-- ==== Sys2Proof/Word.lean ====
section
/-!
DEFINITION. The longword and the byte (00_scope R11), and the number of a general register (10_state R20).
Arithmetic on longwords is that of `BitVec`: modulo 2^32 (R12, D3).
-/

namespace Sys2Proof

/-- A longword: 32 bits, bit 0 the least significant (R11). Addresses are longwords too (R60). -/
abbrev Word := BitVec 32

/-- A byte: 8 bits (R61). -/
abbrev Byte := BitVec 8

/-- The number of a general register, 0 to 15 (R20). -/
abbrev Reg := Fin 16

/-- AP is `x[12]` (R20). -/
abbrev regAP : Reg := 12
/-- FP is `x[13]` (R20). -/
abbrev regFP : Reg := 13
/-- SP is `x[14]` (R12, R20). -/
abbrev regSP : Reg := 14
/-- PC is `x[15]` (R12, R20). -/
abbrev regPC : Reg := 15

end Sys2Proof
end

