-- ==== Sys2Proof/Config.lean ====
section
/-!
DEFINITION. What an implementation fixes (00_scope section 4, R4 to R10), as one record of plain data, and the
free values: constants with no body, for what the spec calls UNPREDICTABLE or does not state (R12, D25).

DESIGN CHOICE (log 1), safe: the record is a field of State that no step writes, so that every statement about
all states is a statement about every implementation the record describes.
-/

namespace Sys2Proof

/-- What a reference does: the `kind` of `Translate` (R63). -/
inductive AccessKind where
  | read
  | write
  deriving DecidableEq, Repr

/-- The process-space memory management registers (R33). -/
structure MapRegs where
  p0br : Word
  p0lr : Word
  p1br : Word
  p1lr : Word
  deriving DecidableEq, Repr

/-- The answer of one entry of the translation table (R63). `mapsTo base` sends the entry's first address to
`base` and the following ones to the following; `mapsThrough slot` does so with the base that the longword in physical
memory at `slot` holds, as a page table does. -/
inductive TransAnswer where
  | mapsTo (base : Word)
  | mapsThrough (slot : Word)
  | accessViolation
  | translationNotValid
  deriving DecidableEq, Repr

/-- One entry of the parameter `Translate` (R63, D6), as data: the references it answers, and its answer. A `none`
matches everything. `context` and `bytes` are the state translation depends on (R63, R73): the memory management
registers and the ASN, and bytes of physical memory with the values they must hold. -/
structure TransEntry where
  context : Option (MapRegs × Word)
  bytes   : List (Word × Byte)
  lo      : Word
  hi      : Word
  mode    : Option (BitVec 2)
  kind    : Option AccessKind
  answer  : TransAnswer
  deriving DecidableEq, Repr

/-- The classes of an existing processor register (R29). A nonexistent one has no class. -/
inductive IprClass where
  | readWrite
  | readOnly
  | writeOnly
  deriving DecidableEq, Repr

/-- The processor registers the spec names (R30), with SCBB (R221) and VMAC (R36). -/
inductive Machine.Ipr where
  | ksp | esp | ssp | usp | isp
  | p0br | p0lr | p1br | p1lr
  | pcbb | scbb | astlvl | tbia | tbis | pme
  | asn | cpuid | vmpsl
  | vpsr | vaer | vmac | vtbia | vsar
  deriving DecidableEq, Repr

/-- One row of the parameter `IprMap` (R30, D13): a number, the register it selects and its class. -/
structure IprRow where
  number : Word
  reg    : Machine.Ipr
  cls    : IprClass
  deriving DecidableEq, Repr

/-- The place of a field of a few bits in the PCB: the byte offset of its longword, and its lowest bit there. -/
structure PcbBits where
  offset : Word
  low    : Nat
  deriving DecidableEq, Repr

/-- The parameter `PcbLayout` (R35, D12): the byte offset of every field of the PCB. P0LR and P1LR are bits <21:0> of
their longwords, which may hold ASTLVL or PME beside them. -/
structure PcbLayout where
  /-- KSP, ESP, SSP, USP. -/
  sp     : Vector Word 4
  /-- R0 to R11, AP, FP. -/
  gpr    : Vector Word 14
  pc     : Word
  psl    : Word
  p0br   : Word
  p0lr   : Word
  p1br   : Word
  p1lr   : Word
  /-- ASTLVL, three bits. -/
  astlvl : PcbBits
  /-- PME, one bit. -/
  pme    : PcbBits
  /-- `PcbOffAsn`, if `HasASN`. -/
  asn    : Word
  /-- `PcbOffPrvcpu`, if `HasASN`. -/
  prvcpu : Word
  deriving DecidableEq, Repr

/-- One entry of the parameters `ReiAllowed` and `VmReiAllowed` (R123, R124), as data: the pairs of PSLs it answers, by
the bits they have under two masks, and its answer. -/
structure ReiEntry where
  curMask : Word
  curBits : Word
  newMask : Word
  newBits : Word
  allowed : Bool
  deriving DecidableEq, Repr

/-- A condition on the PCB: the bits that the longword at an offset has under a mask. -/
structure PcbCondition where
  offset : Word
  mask   : Word
  bits   : Word
  deriving DecidableEq, Repr

/-- One entry of the parameter `PcbValid` (R135), as data: the PCBs it answers, and its answer. -/
structure PcbEntry where
  conditions : List PcbCondition
  valid      : Bool
  deriving DecidableEq, Repr

/-- The implementation parameters. `Translate`, `ReiAllowed`, `VmReiAllowed` and `PcbValid` are functions in the spec;
here each is a table whose first matching entry answers, and where none matches the spec's default does, so that every
function of finitely many states is one (logs 1, 15, 44). -/
structure Params where
  /-- R4. -/
  hasVector      : Bool
  /-- R5. -/
  hasASN         : Bool
  /-- R6. -/
  hasVM          : Bool
  /-- R7. -/
  vecMMAsync     : Bool
  /-- R8. -/
  hasVpsrImp     : Bool
  /-- R8. -/
  hasVpsrIvo     : Bool
  /-- Whether a raised exception enters its handler as R221 describes (`true`), or ends the run as R220 and R224
  decide (`false`). DESIGN CHOICE (log 3). -/
  handlerEntry   : Bool
  /-- Whether every operand form of R94's table has the effect R94 gives it (`true`), or only the subset of R95 is
  admitted and the decoder refuses every other form by name (`false`; R218, D14). DESIGN CHOICE (log 11). -/
  allOperandForms : Bool
  /-- `Translate` (R63): an address no entry matches is its own physical address. DESIGN CHOICE (log 15). -/
  translation    : List TransEntry
  /-- `PhysAddrWidth` (R60): physical memory is the addresses below 2 to this power (log 17). -/
  physAddrWidth  : Nat
  /-- `AsnWidth` (R32, which gives it no default; log 42). -/
  asnWidth       : Nat
  /-- `CpuidWidth` (R32, which gives it no default; log 42). -/
  cpuidWidth     : Nat
  /-- `PslLayout` (R26, D9): bits <31:4> of R26's table that change places in a PSL outside the processor, pair by pair
  and one pair after another, bit <i + 4> for `i`. Every placing of the fields is a list of exchanges (log 43). -/
  pslExchanges   : List (Fin 28 × Fin 28)
  /-- `ModeCode` (R27, D10): codes of R27 that change places in the modes of a PSL outside the processor, in the same
  way (log 43). -/
  modeExchanges  : List (BitVec 2 × BitVec 2)
  /-- `PcbLayout` (R35). -/
  pcb            : PcbLayout
  /-- `IprMap` (R30): the first row with a number and a register that the processor has is the number's. -/
  iprMap         : List IprRow
  /-- `ReiAllowed` (R123). -/
  reiTable       : List ReiEntry
  /-- `VmReiAllowed` (R124). -/
  vmReiTable     : List ReiEntry
  /-- `PcbValid` (R135). -/
  pcbTable       : List PcbEntry
  /-- The SCB offset of the reserved addressing mode fault (R218 gives none). PRESUMED default (log 8). -/
  scbAddressing  : Word
  /-- The SCB offset of the AST's software interrupt (R224 gives none). PRESUMED default (log 9). -/
  scbAst         : Word
  deriving DecidableEq, Repr

/-! ## Free values

Each takes the draw counter of State first (log 38); nothing in Lean can prove a value of one. -/

/-- N, Z, V, C after an MTPR or MFPR: UNPREDICTABLE (R148, R154, U1, U2; log 37). -/
opaque Config.freeFlags : Nat → BitVec 4

/-- What MFPR reads from the register of the active stack pointer, whose cell is stale (R21, R150; log 26). -/
opaque Config.freeActiveSp : Nat → Word

/-- Whether MTPR to the register of the active stack pointer reaches the live SP too (R150, D29; log 26). -/
opaque Config.freeActiveSpWrite : Nat → Bool

/-- Whether LDPCTX with IS clear reloads SP from the PCB or pushes on the stack in use (R136; log 25). -/
opaque Config.freeLdpctxReload : Nat → Bool

/-- The value of PC used as a register operand of read access: UNPREDICTABLE (R94; log 13). The second argument
tells the instruction's two operands apart. -/
opaque Config.freePcOperand : Nat → Nat → Word

/-- Whether an index register that the base specifier also changes is read before that change (R94 is silent;
log 14). The second argument tells the two operands apart. -/
opaque Config.freeIndexBefore : Nat → Nat → Bool

/-- Which of two differing faults a reference that crosses a page boundary reports: the one at the lower addresses
if true (R67 "may fault on either page"; log 16). The second argument is the reference's address. -/
opaque Config.freeLowerFault : Nat → Word → Bool

/-- The reason mask a memory-management fault pushes (R211; log 6). -/
opaque Config.freeReasonMask : Nat → Word

/-- The PC an abort pushes (R210, R221; log 7). -/
opaque Config.freeAbortPc : Nat → Word

/-- A byte of the four stack-pointer longwords of the loaded PCB (R22; log 30). The second argument is its
physical address. -/
opaque Config.freePcbByte : Nat → Nat → Byte

/-- Bits <63:32> of a destination element that a vector instruction leaves UNPREDICTABLE (R180, R182, R184;
log 45). The second argument is the element's number. -/
opaque Config.freeElementHigh : Nat → Nat → Word

end Sys2Proof
end

