-- ==== Sys2Proof/Syntax.lean ====
section
/-!
DEFINITION. Operand specifiers (30_encoding R93, R94) and the seven instructions (R91, R92, opcode_table.json).
-/

namespace Sys2Proof

/-- An operand specifier without index: one constructor per form of R94's table, its fields as the encoding holds
them. -/
inductive Base where
  | literal (n : BitVec 6)
  | reg (r : Reg)
  | regDeferred (r : Reg)
  | autoDec (r : Reg)
  | autoInc (r : Reg)
  | immediate (v : Word)
  | autoIncDeferred (r : Reg)
  | absolute (a : Word)
  | byteDisp (r : Reg) (d : BitVec 8)
  | byteDispDeferred (r : Reg) (d : BitVec 8)
  | wordDisp (r : Reg) (d : BitVec 16)
  | wordDispDeferred (r : Reg) (d : BitVec 16)
  | longDisp (r : Reg) (d : BitVec 32)
  | longDispDeferred (r : Reg) (d : BitVec 32)
  deriving DecidableEq, Repr

/-- An operand specifier: plain, or with an index prefix byte naming the index register (R93, R94 mode 4). -/
inductive Specifier where
  | plain (b : Base)
  | indexed (x : Reg) (b : Base)
  deriving DecidableEq, Repr

/-- The instructions, operands in the order of the Format line (R90, R97). -/
inductive Instr where
  | rei
  | ldpctx
  | svpctx
  | mtpr (src procreg : Specifier)
  | mfpr (procreg dst : Specifier)
  | bugw (message : BitVec 16)
  | bugl (message : BitVec 32)
  deriving DecidableEq, Repr

end Sys2Proof
end

