-- ==== Sys2Proof/WellFormed.lean ====
section
/-!
DEFINITION. Which instructions are well formed: `encodable` says that the term is the reading of its own encoding;
`wellFormed` says besides that R94 gives the operand forms a meaning (no form it calls UNPREDICTABLE, none that
takes a reserved addressing mode fault).
-/

namespace Sys2Proof

/-- Autoincrement and autoincrement deferred with n = 15 do not exist: those bytes are immediate and absolute (R94). -/
def Base.encodable : Base → Bool
  | .autoInc r => r != regPC
  | .autoIncDeferred r => r != regPC
  | _ => true

def Specifier.encodable : Specifier → Bool
  | .plain b => b.encodable
  | .indexed _ b => b.encodable

def Instr.encodable : Instr → Bool
  | .mtpr s p => s.encodable && p.encodable
  | .mfpr p d => p.encodable && d.encodable
  | _ => true

/-- Modes 5, 6 and 7 with PC are UNPREDICTABLE (R94). -/
def Base.usesPcUnpredictably : Base → Bool
  | .reg r => r == regPC
  | .regDeferred r => r == regPC
  | .autoDec r => r == regPC
  | _ => false

/-- The base of an indexed specifier may not be literal, register or immediate (R94 mode 4). -/
def Base.indexable : Base → Bool
  | .literal _ => false
  | .reg _ => false
  | .immediate _ => false
  | _ => true

/-- An operand of write access may not be a literal or an immediate (R94, R218). -/
def Base.writable : Base → Bool
  | .literal _ => false
  | .immediate _ => false
  | _ => true

/-- The index register may not be PC (R94 mode 4). -/
def Specifier.wellFormed : Specifier → Bool
  | .plain b => b.encodable && !b.usesPcUnpredictably
  | .indexed x b => x != regPC && b.indexable && b.encodable && !b.usesPcUnpredictably

def Specifier.writable : Specifier → Bool
  | .plain b => b.writable
  | .indexed _ b => b.writable

def Instr.wellFormed : Instr → Bool
  | .mtpr s p => s.wellFormed && p.wellFormed
  | .mfpr p d => p.wellFormed && d.wellFormed && d.writable
  | _ => true

end Sys2Proof
end

