-- ==== Sys2Proof/Decode.lean ====
section
/-!
DEFINITION. Byte order (20_memory R64), the decoder (30_encoding R90 to R99), total on any bytes, and the encoder
written from the same tables.
-/

namespace Sys2Proof

/-! ## Byte order -/

/-- Little-endian: the first byte is bits <7:0> (R64). -/
def longOfBytes : List Byte → Word
  | [] => 0
  | b :: bs => (longOfBytes bs <<< 8) ||| b.setWidth 32

/-- The four bytes of a longword, lowest address first (R64). -/
def bytesOfLong (w : Word) : List Byte :=
  [w.extractLsb' 0 8, w.extractLsb' 8 8, w.extractLsb' 16 8, w.extractLsb' 24 8]

/-- The two bytes of a 16-bit datum, lowest address first (R64). -/
def bytesOfShort (w : BitVec 16) : List Byte :=
  [w.extractLsb' 0 8, w.extractLsb' 8 8]

/-- The low `n` bytes of a number, the lowest first. -/
def bytesOfNat : Nat → Nat → List Byte
  | 0, _ => []
  | n + 1, w => BitVec.ofNat 8 w :: bytesOfNat n (w / 256)

/-! ## Operand specifiers -/

/-- Why a specifier is not decoded. `truncated`: the bytes end too early. `indexOfIndex`: the base of an indexed
specifier is another index, a reserved addressing mode (R94, R218). -/
inductive SpecError where
  | truncated
  | indexOfIndex
  deriving DecidableEq, Repr

/-- Why an instruction is not decoded: an opcode outside the seven (R99 c), an opcode cut short, or an operand
specifier that does not decode, with the one decoded before it. -/
inductive DecodeError where
  | outOfScope
  | truncatedOpcode
  | operand1 (e : SpecError)
  | operand2 (first : Specifier) (e : SpecError)
  deriving DecidableEq, Repr

/-- `ext(1)` (R94). -/
def takeByte : List Byte → Except SpecError (BitVec 8 × List Byte)
  | b :: rest => .ok (b, rest)
  | [] => .error .truncated

/-- `ext(2)` (R94). -/
def takeShort : List Byte → Except SpecError (BitVec 16 × List Byte)
  | b0 :: b1 :: rest => .ok ((longOfBytes [b0, b1]).setWidth 16, rest)
  | _ => .error .truncated

/-- `ext(4)` (R94). -/
def takeLong : List Byte → Except SpecError (Word × List Byte)
  | b0 :: b1 :: b2 :: b3 :: rest => .ok (longOfBytes [b0, b1, b2, b3], rest)
  | _ => .error .truncated

/-- Bits <7:4> of a specifier byte: the mode (R93). -/
def specMode (b : Byte) : Nat := b.toNat / 16

/-- Bits <3:0> of a specifier byte: the register number (R93). -/
def specReg (b : Byte) : Reg := ⟨b.toNat % 16, Nat.mod_lt _ (by decide)⟩

/-- A specifier byte that is no index byte, with the bytes after it (R94). -/
def decodeBase (b : Byte) (rest : List Byte) : Except SpecError (Base × List Byte) :=
  let r := specReg b
  match specMode b with
  | 0 | 1 | 2 | 3 => .ok (.literal (b.extractLsb' 0 6), rest)
  | 4 => .error .indexOfIndex
  | 5 => .ok (.reg r, rest)
  | 6 => .ok (.regDeferred r, rest)
  | 7 => .ok (.autoDec r, rest)
  | 8 =>
    if r = regPC then (takeLong rest).map (fun p => (.immediate p.1, p.2)) else .ok (.autoInc r, rest)
  | 9 =>
    if r = regPC then (takeLong rest).map (fun p => (.absolute p.1, p.2)) else .ok (.autoIncDeferred r, rest)
  | 10 => (takeByte rest).map (fun p => (.byteDisp r p.1, p.2))
  | 11 => (takeByte rest).map (fun p => (.byteDispDeferred r p.1, p.2))
  | 12 => (takeShort rest).map (fun p => (.wordDisp r p.1, p.2))
  | 13 => (takeShort rest).map (fun p => (.wordDispDeferred r p.1, p.2))
  | 14 => (takeLong rest).map (fun p => (.longDisp r p.1, p.2))
  | _ => (takeLong rest).map (fun p => (.longDispDeferred r p.1, p.2))

/-- An operand specifier: an index byte (mode 4) then its base, or a base alone (R93, R94). -/
def decodeSpecifier : List Byte → Except SpecError (Specifier × List Byte)
  | [] => .error .truncated
  | b :: rest =>
    if specMode b = 4 then
      match rest with
      | [] => .error .truncated
      | b' :: rest' => (decodeBase b' rest').map (fun p => (.indexed (specReg b) p.1, p.2))
    else (decodeBase b rest).map (fun p => (.plain p.1, p.2))

/-! ## Instructions -/

/-- Two specifiers, left to right (R96). -/
def decodeOperands (make : Specifier → Specifier → Instr) (bs : List Byte) :
    Except DecodeError (Instr × List Byte) :=
  match decodeSpecifier bs with
  | .error e => .error (.operand1 e)
  | .ok (s1, rest) =>
    match decodeSpecifier rest with
    | .error e => .error (.operand2 s1 e)
    | .ok (s2, rest') => .ok (make s1 s2, rest')

/-- The decoder: an instruction and the bytes after it. The message of BUGW and BUGL is not fetched (R171), so a
message byte that is missing from the list stands as zero and refuses nothing. DESIGN CHOICE (log 36), safe. -/
def decode : List Byte → Except DecodeError (Instr × List Byte)
  | [] => .error .truncatedOpcode
  | op :: rest =>
    match op.toNat with
    | 0x02 => .ok (.rei, rest)
    | 0x06 => .ok (.ldpctx, rest)
    | 0x07 => .ok (.svpctx, rest)
    | 0xDA => decodeOperands .mtpr rest
    | 0xDB => decodeOperands .mfpr rest
    | 0xFF =>
      match rest with
      | [] => .error .truncatedOpcode
      | op2 :: rest' =>
        match op2.toNat with
        | 0xFE => .ok (.bugw ((longOfBytes (rest'.take 2)).setWidth 16), rest'.drop 2)
        | 0xFD => .ok (.bugl (longOfBytes (rest'.take 4)), rest'.drop 4)
        | _ => .error .outOfScope
    | _ => .error .outOfScope

/-! ## The encoder -/

/-- A specifier byte from its mode and register number (R93). -/
def specByte (mode : Nat) (r : Reg) : Byte := BitVec.ofNat 8 (16 * mode + r.val)

/-- The bytes of a specifier without index (R94). -/
def encodeBase : Base → List Byte
  | .literal n => [n.setWidth 8]
  | .reg r => [specByte 5 r]
  | .regDeferred r => [specByte 6 r]
  | .autoDec r => [specByte 7 r]
  | .autoInc r => [specByte 8 r]
  | .immediate v => specByte 8 regPC :: bytesOfLong v
  | .autoIncDeferred r => [specByte 9 r]
  | .absolute a => specByte 9 regPC :: bytesOfLong a
  | .byteDisp r d => [specByte 10 r, d]
  | .byteDispDeferred r d => [specByte 11 r, d]
  | .wordDisp r d => specByte 12 r :: bytesOfShort d
  | .wordDispDeferred r d => specByte 13 r :: bytesOfShort d
  | .longDisp r d => specByte 14 r :: bytesOfLong d
  | .longDispDeferred r d => specByte 15 r :: bytesOfLong d

/-- The bytes of a specifier (R94). -/
def encodeSpecifier : Specifier → List Byte
  | .plain b => encodeBase b
  | .indexed x b => specByte 4 x :: encodeBase b

/-- `len(spec)` (R94, R98). -/
def specLength (sp : Specifier) : Nat := (encodeSpecifier sp).length

/-- The bytes of an instruction in address order (R90 to R92, R97). -/
def encode : Instr → List Byte
  | .rei => [0x02]
  | .ldpctx => [0x06]
  | .svpctx => [0x07]
  | .mtpr s p => 0xDA :: (encodeSpecifier s ++ encodeSpecifier p)
  | .mfpr p d => 0xDB :: (encodeSpecifier p ++ encodeSpecifier d)
  | .bugw m => 0xFF :: 0xFE :: bytesOfShort m
  | .bugl m => 0xFF :: 0xFD :: bytesOfLong m

/-- The length of an instruction in bytes (R98). -/
def instrLength (i : Instr) : Nat := (encode i).length

/-! ## The admitted subset -/

/-- A specifier without index is in R95's subset, for an operand of read access. -/
def Base.admitted : Base → Bool
  | .literal _ | .immediate _ | .absolute _ => true
  | .reg r | .regDeferred r | .byteDisp r _ | .wordDisp r _ | .longDisp r _ => r != regPC
  | .autoDec _ | .autoInc _ | .autoIncDeferred _ => false
  | .byteDispDeferred _ _ | .wordDispDeferred _ _ | .longDispDeferred _ _ => false

/-- A specifier is in R95's subset, for an operand of read access: no index is. -/
def Specifier.admitted : Specifier → Bool
  | .plain b => b.admitted
  | .indexed _ _ => false

/-- The operand forms of an instruction are in R95's subset, in which a destination is no literal and no immediate. -/
def Instr.admitted : Instr → Bool
  | .mtpr s p => s.admitted && p.admitted
  | .mfpr p d => p.admitted && d.admitted && d.writable
  | .rei | .ldpctx | .svpctx | .bugw _ | .bugl _ => true

/-- What has been read of a specifier that does not decode is in R95's subset: an index of an index is not. -/
def SpecError.admitted : SpecError → Bool
  | .truncated => true
  | .indexOfIndex => false

/-- What has been decoded of an instruction that does not decode is in R95's subset. -/
def DecodeError.admitted : DecodeError → Bool
  | .outOfScope | .truncatedOpcode => true
  | .operand1 e => e.admitted
  | .operand2 first e => first.admitted && e.admitted

/-- The longest instruction: an opcode and two indexed specifiers with four bytes of extension (R98). -/
def maxLength : Nat := 13

/-- The bytes of a table word of `nbits` bits, and zeros up to the longest instruction. -/
def tableBytes (nbits w : Nat) : List Byte :=
  bytesOfNat (nbits / 8) w ++ List.replicate (maxLength - nbits / 8) 0

/-- What the decoder reads from an instruction whose bits, numbered as the opcode table numbers them, are `w`. -/
def decodeTableWord (nbits w : Nat) : Option Instr :=
  match decode (tableBytes nbits w) with
  | .ok (i, _) => some i
  | .error _ => none

end Sys2Proof
end

