-- ==== Sys2Proof/Machine/Defaults.lean ====
section
/-!
DEFINITION. The defaults the spec gives its parameters (10_state R26, R27, R30, R35; 20_memory R63; 40_privileged R123,
R124, R135), and the configuration of its examples.
-/

namespace Sys2Proof

/-- `PcbLayout`, default (R35). The offsets of ASN and PRVCPU have none there: they follow the 96 bytes (log 42). -/
def PcbLayout.standard : PcbLayout where
  sp := #v[0, 4, 8, 12]
  gpr := #v[16, 20, 24, 28, 32, 36, 40, 44, 48, 52, 56, 60, 64, 68]
  pc := 72
  psl := 76
  p0br := 80
  p0lr := 84
  p1br := 88
  p1lr := 92
  astlvl := ⟨84, 24⟩
  pme := ⟨92, 31⟩
  asn := 96
  prvcpu := 100

/-- `IprMap`, default: the table of R30 and no other number, so that SCBB, which R221 alone names, has a row only where
one is configured (D13; log 4). VAER's class is not in the source: it is readable, and a write is
refused by `iprWrite` (R149, R155; log 32). Number 146, VMAC, has no row: DESIGN CHOICE (log 52). -/
def Machine.iprDefault : List IprRow :=
  [⟨0, .ksp, .readWrite⟩, ⟨1, .esp, .readWrite⟩, ⟨2, .ssp, .readWrite⟩, ⟨3, .usp, .readWrite⟩, ⟨4, .isp, .readWrite⟩,
    ⟨8, .p0br, .readWrite⟩, ⟨9, .p0lr, .readWrite⟩, ⟨10, .p1br, .readWrite⟩, ⟨11, .p1lr, .readWrite⟩]
  ++ [⟨16, .pcbb, .readWrite⟩, ⟨19, .astlvl, .readWrite⟩, ⟨57, .tbia, .writeOnly⟩,
    ⟨58, .tbis, .writeOnly⟩, ⟨61, .pme, .readWrite⟩]
  ++ [⟨144, .vpsr, .readWrite⟩, ⟨145, .vaer, .readWrite⟩, ⟨147, .vtbia, .writeOnly⟩, ⟨148, .vsar, .readWrite⟩]

/-- The configuration of the spec's own examples (95_test_vectors: no VM, no ASN, vector, synchronous method, IMP
and IVO implemented; R63: identity translation; every other parameter at its default), with handlers entered and
every operand form of R94 in effect. DESIGN CHOICE (log 2). R32 gives the widths of ASN and CPUID neither a value nor a default: 32 is the model's, DESIGN CHOICE
(log 42). The two SCB offsets are the family's, PRESUMED (logs 8, 9). -/
def Params.standard : Params where
  hasVector := true
  hasASN := false
  hasVM := false
  vecMMAsync := false
  hasVpsrImp := true
  hasVpsrIvo := true
  handlerEntry := true
  allOperandForms := true
  translation := []
  physAddrWidth := 32
  asnWidth := 32
  cpuidWidth := 32
  pslExchanges := []
  modeExchanges := []
  pcb := PcbLayout.standard
  iprMap := Machine.iprDefault
  reiTable := []
  vmReiTable := []
  pcbTable := []
  scbAddressing := 0x1C
  scbAst := 0x88

end Sys2Proof
end

