-- ==== Sys2Proof/Machine/State.lean ====
section
/-!
DEFINITION. The state of the machine (10_state, R20 to R47), the exceptions the spec names (60_exceptions R211),
the reasons a step can stop, and the state right after reset.
-/

namespace Sys2Proof.Machine

/-! ## Exceptions and stops -/

/-- The two reasons of the reserved instruction fault (R213, C4). -/
inductive ReservedReason where
  | privileged
  | reservedOpcode
  deriving DecidableEq, Repr

/-- The exceptions in-scope instructions raise (R211, R218). A memory-management fault names the virtual address of
the byte that could not be translated. -/
inductive Exc where
  | reservedInstruction (reason : ReservedReason)
  | reservedOperandFault
  | reservedOperandAbort
  | reservedAddressingMode
  | accessViolation (va : Word)
  | translationNotValid (va : Word)
  | vmEmulationTrap
  deriving DecidableEq, Repr

/-- Why the machine stops with a fault. -/
inductive Fault where
  /-- An exception that ends the run. Raised by every exception when handlers are not entered (R220), and by the
  VM-emulation trap always (R217: no vector, frame or state is known). Safe: the hardware goes on. -/
  | exception (e : Exc) (pc : Word)
  /-- A pending AST that ends the run, when handlers are not entered (R224). Raised by `step`. Safe. -/
  | interruptAst (pc : Word)
  /-- A physical address that holds no memory (R66: outside the source). Raised by every memory access. Safe. -/
  | nonexistentMemory (pa : Word)
  /-- An SCB vector whose bits <1:0> are neither 00 nor 01, which R221 does not describe. Raised on entering a
  handler. Safe. -/
  | scbVectorCode (vector : Word)
  /-- A memory fault on a push of exception or interrupt entry (R227: not in the source). Safe. -/
  | entryPush (e : Exc)
  /-- A memory fault on one of the two pushes of the LDPCTX at `pc`, after which the state is unspecified (R136, D40).
  Raised by LDPCTX when handlers are entered. Safe. -/
  | ldpctxPush (e : Exc) (pc : Word)
  deriving DecidableEq, Repr

/-- Why a step has no meaning. Each is safe: the hardware does something the spec does not say. -/
inductive Refusal where
  /-- An instruction of the table that the model has not reached. Raised by no meaning. -/
  | notModelled (mnemonic : String)
  /-- An opcode outside the seven (R99 c, D32). Raised by the fetch. -/
  | opcodeOutOfScope
  /-- An instruction byte stored to since the last completed REI (R72, U28). Raised by the fetch. -/
  | staleInstructionStream
  /-- LDPCTX followed by an instruction that is not the REI at the address after it (R138, R255, U23). Raised by the
  fetch. -/
  | notReiAfterLdpctx
  /-- The vector processor is busy (R201, X4). Raised by `step`. -/
  | vectorProcessorBusy
  /-- PC in mode 6, mode 7, or as a destination in mode 5: UNPREDICTABLE (R94, R95). Raised by MTPR and MFPR. -/
  | unpredictableOperand
  /-- An operand form outside R95's subset, where the configuration admits only that (R95, R218, D14). Raised by the
  fetch. -/
  | operandNotAdmitted
  /-- PCBB is not longword-aligned (R66). Raised by LDPCTX and SVPCTX. -/
  | pcbbMisaligned
  /-- A stack pointer register named between SVPCTX and LDPCTX (R151, R256, U24). Raised by MTPR and MFPR. -/
  | stackPointerInSwitchWindow
  /-- A value a memory management register does not accept (R149). Raised by MTPR. -/
  | mapRegisterInvalid
  /-- MTPR to VAER, whose class the source does not give (R149, D38). -/
  | vaerWrite
  /-- VMAC, which only a configured map has, and whose effect no source gives (R36, D35; log 52). Raised by MTPR and
  MFPR. -/
  | vmacUnknown
  /-- A one written to VPSR <4>, <23:8> or <30:26> (R198, D41). Raised by MTPR. -/
  | vpsrReservedBits
  /-- A setting of VPSR<3:0> outside Table 10-2 (R199, D26). Raised by MTPR. -/
  | vpsrSetting
  /-- VPSR<RST> written with one while BSY is set: UNDEFINED (R189, U8). Raised by MTPR. -/
  | vpsrResetWhileBusy
  /-- VPSR<STS> or <RLD> written with one under the asynchronous method: an implementation-specific block moves
  through memory (R190, R191, U9). Raised by MTPR. -/
  | vectorStateTransfer
  /-- A vector instruction with VLR greater than 64: UNPREDICTABLE (R185, U7). Raised by no instruction of the
  table. -/
  | vectorLengthOver64
  /-- A gather onto its own source register: UNPREDICTABLE (R183, U5). Raised by no instruction of the table. -/
  | gatherOntoSource
  deriving DecidableEq, Repr

/-- How a piece of an instruction ends short of a result: an exception to raise, or a stop. -/
inductive Stop where
  | exc (e : Exc)
  | fault (f : Fault)
  | refuse (r : Refusal)
  deriving DecidableEq, Repr

/-! ## State -/

/-- The stored bits of the Vector Processor Status Register (R42). -/
structure Vpsr where
  ven : Bool
  mf  : Bool
  pmf : Bool
  aex : Bool
  imp : Bool
  ivo : Bool
  bsy : Bool
  deriving DecidableEq, Repr

/-- Translation-buffer maintenance, which the model records and does nothing else with (R73, R74; log 22). -/
inductive TbEvent where
  /-- `TbFlushProcess`: the state tagged with an ASN, or all process-space state. -/
  | flushProcess (asn : Option Word)
  | invalidateAll
  | invalidateSingle (va : Word)
  | vectorInvalidateAll
  deriving DecidableEq, Repr

structure State where
  /-- The implementation parameters (R4 to R10). No step writes them. -/
  cfg            : Params
  /-- The general registers `x[0]` to `x[15]`, SP and PC among them (R20, R23). `x[14]` is the live SP (R21). -/
  x              : Vector Word 16
  /-- The processor status longword (R25), its fields at the places and its modes in the codes of R26 and R27. Where the
  longword meets the stack or MTPR and MFPR, `pslToLong` and `pslOfLong` give it the configured layout (log 43). -/
  psl            : Word
  /-- The interrupt stack pointer's cell (R21). -/
  isp            : Word
  /-- The per-process stack pointers' cells, by mode code: KSP, ESP, SSP, USP (R21, R22). -/
  spSlot         : Vector Word 4
  /-- P0BR, P0LR, P1BR, P1LR (R33). -/
  map            : MapRegs
  /-- The vector processor's copies of the four (R43 d, R75, R146). -/
  vecMap         : MapRegs
  /-- Process control block base (R31). -/
  pcbb           : Word
  /-- System control block base (R221). -/
  scbb           : Word
  /-- AST level (R33). -/
  astlvl         : BitVec 3
  /-- Performance monitor enable (R33). -/
  pme            : Bool
  /-- Address space number (R32). -/
  asn            : Word
  /-- CPU identification (R32). -/
  cpuid          : Word
  /-- The virtual machine's PSL (R28), held as `psl` is. -/
  vmpsl          : Word
  /-- The vector registers `V[0]` to `V[15]`, 64 elements each (R38). -/
  v              : Vector (Vector (BitVec 64) 64) 16
  /-- Vector Length Register (R39). -/
  vlr            : BitVec 7
  /-- Vector Mask Register (R40). -/
  vmr            : BitVec 64
  /-- Vector Count Register (R41). -/
  vcr            : BitVec 7
  /-- Vector Processor Status Register (R42). -/
  vpsr           : Vpsr
  /-- Vector Arithmetic Exception Register (R37). -/
  vaer           : Word
  /-- Vector State Address Register (R37). -/
  vsar           : Word
  /-- A deliverable AST has been found by REI and not delivered (R46, R127). -/
  astRequest     : Bool
  /-- Between the completion of SVPCTX and that of LDPCTX (R256). -/
  inSwitchWindow : Bool
  /-- The address after an LDPCTX that has completed, until the REI owed there is executed (R255). -/
  afterLdpctx    : Option Word
  /-- The PCB loaded by LDPCTX and not yet saved by SVPCTX (R22). -/
  loadedPcb      : Option Word
  /-- The physical addresses stored to since the last completed REI, strictly rising (R72). -/
  written        : List Nat
  /-- Physical memory: the listed bytes, addresses strictly rising, no listed byte zero (R61, R70). -/
  mem            : List Host.Cell
  /-- The translation-buffer events so far, the newest first (R73, R74). The model's own field. -/
  tbEvents       : List TbEvent
  /-- The index of the next free values. The model's own field (log 38). -/
  draws          : Nat
  deriving DecidableEq, Repr

/-- Right after reset. The source gives no value (R47, R250). PSL, ASTLVL and PME are the VAX family's (PRESUMED,
log 19); every other register is zero, nothing is pending, no memory is listed (DESIGN CHOICE, logs 18, 20). -/
def State.reset : State where
  cfg := Params.standard
  x := Vector.replicate 16 0
  psl := 0x041F0000
  isp := 0
  spSlot := Vector.replicate 4 0
  map := ⟨0, 0, 0, 0⟩
  vecMap := ⟨0, 0, 0, 0⟩
  pcbb := 0
  scbb := 0
  astlvl := 4
  pme := false
  asn := 0
  cpuid := 0
  vmpsl := 0
  v := Vector.replicate 16 (Vector.replicate 64 0)
  vlr := 0
  vmr := 0
  vcr := 0
  vpsr := ⟨false, false, false, false, false, false, false⟩
  vaer := 0
  vsar := 0
  astRequest := false
  inSwitchWindow := false
  afterLdpctx := none
  loadedPcb := none
  written := []
  mem := []
  tbEvents := []
  draws := 0

end Sys2Proof.Machine
end

