-- ==== Sys2Proof/Machine/Flags.lean ====
section
/-!
DEFINITION. The fields of a PSL (10_state R24 to R27) and its configured layout (R26, R27), the condition codes of MTPR
and MFPR (40_privileged R148, R154), the PSL of an exception handler (60_exceptions R221) and REI's checks (40_privileged
R123, R124).
-/

namespace Sys2Proof.Machine

/-! ## Fields of a PSL (R26) -/

/-- CUR_MOD, bits <25:24>: 0 kernel, 1 executive, 2 supervisor, 3 user (R27). -/
def pslCurMod (p : Word) : BitVec 2 := p.extractLsb' 24 2

/-- PRV_MOD, bits <23:22>. -/
def pslPrvMod (p : Word) : BitVec 2 := p.extractLsb' 22 2

/-- IPL, bits <20:16>. -/
def pslIpl (p : Word) : BitVec 5 := p.extractLsb' 16 5

/-- IS, bit <26>. -/
def pslIs (p : Word) : Bool := p.getLsbD 26

/-- TP, bit <30>. -/
def pslTp (p : Word) : Bool := p.getLsbD 30

/-- CM, bit <31>. -/
def pslCm (p : Word) : Bool := p.getLsbD 31

/-- FPD, bit <27>. -/
def pslFpd (p : Word) : Bool := p.getLsbD 27

/-- DV, FU, IV, bits <7:5>. -/
def pslTrapEnables (p : Word) : BitVec 3 := p.extractLsb' 5 3

/-- The VM bit, bit <28>, on a processor that has one (R26, R28). -/
def pslVm (cfg : Params) (p : Word) : Bool := cfg.hasVM && p.getLsbD 28

/-- N, Z, V, C, bits <3:0> (R24). -/
def pslCc (p : Word) : BitVec 4 := p.extractLsb' 0 4

/-- A PSL with IS replaced. -/
def pslWithIs (p : Word) (is : Bool) : Word :=
  if is then p ||| 0x04000000#32 else p &&& 0xFBFFFFFF#32

/-- A PSL with IPL replaced. -/
def pslWithIpl (p : Word) (ipl : BitVec 5) : Word :=
  (p &&& 0xFFE0FFFF#32) ||| (ipl.setWidth 32 <<< 16)

/-- A PSL with TP set. -/
def pslWithTp (p : Word) : Word := p ||| 0x40000000#32

/-- A PSL with N, Z, V, C replaced. -/
def pslWithCc (p : Word) (cc : BitVec 4) : Word :=
  (p &&& 0xFFFFFFF0#32) ||| cc.setWidth 32

/-! ## The configured layout (R26, R27) -/

/-- A PSL with both mode fields replaced. -/
def pslWithModes (p : Word) (cur prv : BitVec 2) : Word :=
  (p &&& 0xFC3FFFFF#32) ||| (cur.setWidth 32 <<< 24) ||| (prv.setWidth 32 <<< 22)

/-- A PSL with both modes sent through a change of codes. -/
def pslMapModes (f : BitVec 2 → BitVec 2) (p : Word) : Word := pslWithModes p (f (pslCurMod p)) (f (pslPrvMod p))

/-- Two mode codes change places. -/
def exchangeModes (e : BitVec 2 × BitVec 2) (m : BitVec 2) : BitVec 2 :=
  if m = e.1 then e.2 else if m = e.2 then e.1 else m

/-- Two bits of a longword above N, Z, V, C change places. -/
def exchangeBits (e : Fin 28 × Fin 28) (w : Word) : Word :=
  if w.getLsbD (e.1.val + 4) = w.getLsbD (e.2.val + 4) then w
  else w ^^^ (1#32 <<< (e.1.val + 4) ||| 1#32 <<< (e.2.val + 4))

/-- The longword of a PSL as the stack, the PCB, MTPR and MFPR see it (R26, R27; log 43). -/
def pslToLong (cfg : Params) (p : Word) : Word :=
  cfg.pslExchanges.foldl (fun w e => exchangeBits e w)
    (pslMapModes (fun m => cfg.modeExchanges.foldl (fun m e => exchangeModes e m) m) p)

/-- The PSL that such a longword holds. -/
def pslOfLong (cfg : Params) (w : Word) : Word :=
  pslMapModes (fun m => cfg.modeExchanges.reverse.foldl (fun m e => exchangeModes e m) m)
    (cfg.pslExchanges.reverse.foldl (fun w e => exchangeBits e w) w)

/-! ## REI's checks -/

/-- The bits of a PSL that must be zero: 29, 21, 15:8, and 28 when there is no VM bit (R26, R123 condition 8). -/
def pslMustBeZero (cfg : Params) : Word := if cfg.hasVM then 0x2020FF00#32 else 0x3020FF00#32

/-- The popped PSL's own conditions: 3, 4, 5, 6, 8 and 9 of R123 hold of none. -/
def pslConsistent (cfg : Params) (new : Word) : Bool :=
  !(pslIs new && pslCurMod new != 0)
    && !(pslIs new && pslIpl new == 0)
    && !(pslIpl new != 0 && pslCurMod new != 0)
    && !(decide ((pslPrvMod new).toNat < (pslCurMod new).toNat))
    && (new &&& pslMustBeZero cfg == 0)
    && !(pslCm new && (pslFpd new || pslIs new || pslTrapEnables new != 0 || pslCurMod new != 3))

/-- The transition's conditions: 1, 2 and 7 of R123 hold of none. -/
def pslTransition (cur new : Word) : Bool :=
  !(decide ((pslCurMod new).toNat < (pslCurMod cur).toNat))
    && !(pslIs new && !pslIs cur)
    && !(decide ((pslIpl new).toNat > (pslIpl cur).toNat))

/-- An entry of `ReiAllowed` answers a pair of PSLs. -/
def reiEntryMatches (cur new : Word) (e : ReiEntry) : Bool :=
  (cur &&& e.curMask == e.curBits) && (new &&& e.newMask == e.newBits)

/-- `ReiAllowed(cur, new)` (R123): the configured answer, and by default the nine conditions. -/
def reiAllowed (cfg : Params) (cur new : Word) : Bool :=
  match cfg.reiTable.find? (reiEntryMatches cur new) with
  | some e => e.allowed
  | none => pslTransition cur new && pslConsistent cfg new

/-- `VmReiAllowed(vmpsl, new)` (R124): the configured answer, and by default `ReiAllowed` with VMPSL as the current
PSL. -/
def vmReiAllowed (cfg : Params) (vmpsl new : Word) : Bool :=
  match cfg.vmReiTable.find? (reiEntryMatches vmpsl new) with
  | some e => e.allowed
  | none => reiAllowed cfg vmpsl new

/-- The PSL that REI loads: the popped one, with a pending trace carried over (R128; log 24). -/
def reiPsl (cur new : Word) : Word := if pslTp cur then pslWithTp new else new

/-! ## The PSL of a handler -/

/-- R221 (5): kernel mode; PRV_MOD the old mode for an exception, kernel for an interrupt; IS as chosen; IPL
unchanged for an exception, 31 if it is taken on the interrupt stack (log 49), and the interrupt's level for an
interrupt; all other bits zero. -/
def handlerPsl (old : Word) (onIs : Bool) (level : Option (BitVec 5)) : Word :=
  let prv : BitVec 2 := match level with
    | none => pslCurMod old
    | some _ => 0
  let ipl : BitVec 5 := match level with
    | none => if onIs then 31 else pslIpl old
    | some l => l
  pslWithIpl (pslWithIs (prv.setWidth 32 <<< 22) onIs) ipl

end Sys2Proof.Machine
end

