-- ==== Sys2Proof/Machine/Memory.lean ====
section
/-!
DEFINITION. Physical memory as a list of bytes in one canonical form (20_memory R61, R70), and the set of addresses
stored to (R72). An address no entry lists reads as zero: DESIGN CHOICE (log 18), unsafe.
-/

namespace Sys2Proof.Machine

/-- What an address that nothing lists reads as (log 18). -/
def Memory.unlisted : Byte := 0

/-- The byte at an address. -/
def Memory.read : List Host.Cell → Nat → Byte
  | [], _ => Memory.unlisted
  | (k, b) :: m, a => if a = k then b else Memory.read m a

/-- Memory with the byte at an address replaced. Writing what an unlisted address reads as removes the entry. -/
def Memory.write : List Host.Cell → Nat → Byte → List Host.Cell
  | [], a, b => if b = Memory.unlisted then [] else [(a, b)]
  | (k, c) :: m, a, b =>
    if a < k then
      if b = Memory.unlisted then (k, c) :: m else (a, b) :: (k, c) :: m
    else if a = k then
      if b = Memory.unlisted then m else (a, b) :: m
    else (k, c) :: Memory.write m a b

/-- Bytes are written one after another, each at its own address. -/
def Memory.writeAll : List Host.Cell → List Word → List Byte → List Host.Cell
  | m, a :: as, b :: bs => Memory.writeAll (Memory.write m a.toNat b) as bs
  | m, _, _ => m

/-- Every listed address is greater than a bound, rising strictly, and below 2^32, and no listed byte is the
unlisted one. -/
def Memory.wfAbove : Option Nat → List Host.Cell → Bool
  | _, [] => true
  | lo, (k, b) :: m =>
    (match lo with
      | none => true
      | some l => decide (l < k)) && decide (k < 2 ^ 32) && decide (b ≠ Memory.unlisted) && Memory.wfAbove (some k) m

/-- The canonical form of memory. -/
def Memory.wf (m : List Host.Cell) : Bool := Memory.wfAbove none m

/-- A strictly rising list of addresses with one more. -/
def insertAddr : Nat → List Nat → List Nat
  | a, [] => [a]
  | a, k :: l => if a < k then a :: k :: l else if a = k then k :: l else k :: insertAddr a l

/-- A strictly rising list of addresses with several more. -/
def insertAddrs : List Word → List Nat → List Nat
  | [], l => l
  | a :: as, l => insertAddrs as (insertAddr a.toNat l)

/-- Every address is greater than a bound, rising strictly, and below 2^32. -/
def risingAbove : Option Nat → List Nat → Bool
  | _, [] => true
  | lo, k :: l =>
    (match lo with
      | none => true
      | some b => decide (b < k)) && decide (k < 2 ^ 32) && risingAbove (some k) l

end Sys2Proof.Machine
end

