-- ==== Sys2Proof/Machine/Ops.lean ====
section
/-!
DEFINITION. The named operations over registers, stacks and memory (10_state R20 to R23, 20_memory R60 to R69),
the privilege check (40_privileged R132, R141, R147, R153), and taking an exception or interrupt (60_exceptions
R212, R220, R221, R224).
-/

namespace Sys2Proof.Machine

/-- What a piece of an instruction gives: a result, or why it stops. -/
abbrev Res (α : Type) := Except Stop α

/-! ## Registers -/

/-- `x[r]` (R20). -/
def getReg (s : State) (r : Reg) : Word := s.x[r.val]

/-- `x[r] <- w` (R20). -/
def setReg (s : State) (r : Reg) (w : Word) : State := { s with x := s.x.set r.val w r.isLt }

/-- The program counter (R23). -/
def State.pc (s : State) : Word := getReg s regPC

/-- The live stack pointer (R21). -/
def State.sp (s : State) : Word := getReg s regSP

/-- The current access mode (R27). -/
def State.mode (s : State) : BitVec 2 := pslCurMod s.psl

/-- The processor is in VM mode (R28, D23). -/
def State.inVM (s : State) : Bool := pslVm s.cfg s.psl

/-- The cell of the stack that a PSL selects (R21). -/
def stackCell (s : State) (psl : Word) : Word :=
  if pslIs psl then s.isp else s.spSlot[(pslCurMod psl).toNat]'(pslCurMod psl).isLt

/-- The cell of the stack that a PSL selects receives a value. -/
def setStackCell (s : State) (psl : Word) (w : Word) : State :=
  { s with
    isp := if pslIs psl then w else s.isp
    spSlot := if pslIs psl then s.spSlot else s.spSlot.set (pslCurMod psl).toNat w (pslCurMod psl).isLt }

/-- A switch of stack (R21, R126): the outgoing stack pointer goes to the cell of the old PSL's stack, the PSL is
replaced, and SP is loaded from the cell of the new PSL's stack. -/
def switchStack (s : State) (sp newPsl : Word) : State :=
  let s1 := { setStackCell s s.psl sp with psl := newPsl }
  setReg s1 regSP (stackCell s1 newPsl)

/-- The end of an instruction that completes: PC moves, and the free values of this step are spent. -/
def finish (s : State) (pc : Word) : State := { setReg s regPC pc with draws := s.draws + 1 }

/-! ## Physical memory -/

/-- A physical address holds memory (R60, R66). -/
def physExists (cfg : Params) (pa : Word) : Bool := decide (pa.toNat < 2 ^ cfg.physAddrWidth)

/-- All of these addresses hold memory, or the first that does not stops the machine. -/
def requirePhys (cfg : Params) (pas : List Word) : Except Fault Unit :=
  match pas.find? (fun pa => !physExists cfg pa) with
  | some pa => .error (.nonexistentMemory pa)
  | none => .ok ()

/-- The address lies in the four stack-pointer longwords of the loaded PCB (R22). -/
def unreliable (s : State) (pa : Word) : Bool :=
  match s.loadedPcb with
  | some base => s.cfg.pcb.sp.toList.any (fun off => decide ((pa - (base + off)).toNat < 4))
  | none => false

/-- The byte at a physical address; a stack-pointer longword of the loaded PCB holds no reliable value (R22). -/
def physByte (s : State) (pa : Word) : Byte :=
  if unreliable s pa then Config.freePcbByte s.draws pa.toNat else Memory.read s.mem pa.toNat

/-- Bytes of physical memory are stored, each at its own address; they are not to be fetched before the next REI
(R72). -/
def setPhysBytes (s : State) (pas : List Word) (bs : List Byte) : State :=
  { s with mem := Memory.writeAll s.mem pas bs, written := insertAddrs pas s.written }

/-- The four consecutive addresses of a longword, modulo 2^32 (R61, D3). -/
def longAddrs (a : Word) : List Word := [a, a + 1, a + 2, a + 3]

/-- The longword at a physical address that holds memory (R64). -/
def physLong (s : State) (pa : Word) : Word := longOfBytes ((longAddrs pa).map (physByte s))

/-! ## Virtual memory -/

/-- An entry of the translation table answers a reference. -/
def entryMatches (e : TransEntry) (s : State) (va : Word) (mode : BitVec 2) (kind : AccessKind) : Bool :=
  decide (e.lo.toNat ≤ va.toNat) && decide (va.toNat ≤ e.hi.toNat)
    && (match e.context with
        | none => true
        | some c => decide (c = (s.map, s.asn)))
    && e.bytes.all (fun c => decide (physByte s c.1 = c.2))
    && (match e.mode with
        | none => true
        | some m => decide (m = mode))
    && (match e.kind with
        | none => true
        | some k => decide (k = kind))

/-- `Translate(va, mode, kind)` (R63): the physical address, or one of the two memory-management faults, from the memory
management registers, ASN and memory as they are at this access (R73). A translation's own reads of memory do not stop
where no memory is, and then find what an unlisted byte reads as, since the spec is silent on them: DESIGN CHOICE
(log 56). -/
def translate (s : State) (va : Word) (mode : BitVec 2) (kind : AccessKind) : Except Exc Word :=
  match s.cfg.translation.find? (fun e => entryMatches e s va mode kind) with
  | none => .ok va
  | some e =>
    match e.answer with
    | .mapsTo base => .ok (base + (va - e.lo))
    | .mapsThrough slot => .ok (physLong s slot + (va - e.lo))
    | .accessViolation => .error (.accessViolation va)
    | .translationNotValid => .error (.translationNotValid va)

/-- The faults among the answers, in their order. -/
def faultsIn : List (Except Exc Word) → List Exc
  | [] => []
  | .error e :: l => e :: faultsIn l
  | .ok _ :: l => faultsIn l

/-- The addresses among the answers, in their order. -/
def addressesIn : List (Except Exc Word) → List Word
  | [] => []
  | .error _ :: l => addressesIn l
  | .ok a :: l => a :: addressesIn l

/-- Both are access violations, or both are translations not valid. -/
def sameFault : Exc → Exc → Bool
  | .accessViolation _, .accessViolation _ => true
  | .translationNotValid _, .translationNotValid _ => true
  | _, _ => false

/-- The fault a reference reports: the first of its bytes', or, where they differ in kind, either that or the first of
the other kind (R67; log 16). It names the first byte that has it, because R211 does not say which address of the
reference is recorded: DESIGN CHOICE (log 6). -/
def chooseFault (draw : Nat) (va : Word) : List Exc → Option Exc
  | [] => none
  | e :: l =>
    match l.find? (fun e' => !sameFault e e') with
    | none => some e
    | some other => if Config.freeLowerFault draw va then some e else some other

/-- The physical addresses of the four bytes of a virtual longword, or the reference's fault (R63, R67). Where one byte
cannot be translated and another lies where no memory is, the spec states no order, and the memory-management fault is
reported: DESIGN CHOICE (log 53). -/
def translateLong (s : State) (va : Word) (kind : AccessKind) : Res (List Word) :=
  let answers := (longAddrs va).map (fun a => translate s a s.mode kind)
  match chooseFault s.draws va (faultsIn answers) with
  | some e => .error (.exc e)
  | none =>
    match requirePhys s.cfg (addressesIn answers) with
    | .error f => .error (.fault f)
    | .ok _ => .ok (addressesIn answers)

/-- `MemRead(va, 4)` in the current access mode (R12, R64, R67). -/
def memRead (s : State) (va : Word) : Res Word :=
  (translateLong s va .read).map (fun pas => longOfBytes (pas.map (physByte s)))

/-- `MemWrite(va, 4, v)` in the current access mode: every byte is translated before any is written (R12, R64,
R67). -/
def memWrite (s : State) (va v : Word) : Res State :=
  (translateLong s va .write).map (fun pas => setPhysBytes s pas (bytesOfLong v))

/-- `Push4(v)` (R65). -/
def push (s : State) (v : Word) : Res State :=
  let a := s.sp - 4
  (memWrite s a v).map (fun s' => setReg s' regSP a)

/-- Longwords are pushed, the first first. -/
def pushAll (s : State) : List Word → Res State
  | [] => .ok s
  | v :: vs =>
    match push s v with
    | .error e => .error e
    | .ok s' => pushAll s' vs

/-! ## The process control block -/

/-- `PcbRead(off, 4)` (R66), once the PCB is known to hold memory. -/
def pcbRead (s : State) (off : Word) : Word := physLong s (s.pcbb + off)

/-- `PcbWrite(off, 4, v)` (R66) of several longwords, in order, once the PCB is known to hold memory. -/
def pcbWriteAll (s : State) (l : List (Word × Word)) : State :=
  setPhysBytes s (l.flatMap (fun p => longAddrs (s.pcbb + p.1))) (l.flatMap (fun p => bytesOfLong p.2))

/-- The offsets of the longwords that SVPCTX stores (R142). -/
def pcbSavedOffsets (cfg : Params) : List Word :=
  cfg.pcb.sp.toList ++ cfg.pcb.gpr.toList ++ [cfg.pcb.pc, cfg.pcb.psl] ++ (if cfg.hasASN then [cfg.pcb.prvcpu] else [])

/-- The offsets of the longwords that only LDPCTX uses (R143). -/
def pcbUnsavedOffsets (cfg : Params) : List Word :=
  [cfg.pcb.p0br, cfg.pcb.p0lr, cfg.pcb.p1br, cfg.pcb.p1lr, cfg.pcb.astlvl.offset, cfg.pcb.pme.offset] ++ (if cfg.hasASN then [cfg.pcb.asn] else [])

/-- The addresses of the PCB's bytes: those of every field (R35). -/
def pcbAddrs (s : State) : List Word :=
  (pcbSavedOffsets s.cfg ++ pcbUnsavedOffsets s.cfg).flatMap (fun off => longAddrs (s.pcbb + off))

/-- PCBB is longword-aligned (R66). -/
def requirePcbbAligned (s : State) : Res Unit :=
  if s.pcbb.extractLsb' 0 2 = 0 then .ok () else .error (.refuse .pcbbMisaligned)

/-- The PCB lies in memory (R66, D12). -/
def requirePcb (s : State) : Res Unit :=
  match requirePhys s.cfg (pcbAddrs s) with
  | .error f => .error (.fault f)
  | .ok _ => .ok ()

/-! ## Privilege -/

/-- The check of LDPCTX, SVPCTX, MTPR and MFPR: the VM test, then the mode test (R132, R141, R147, R153, R226). -/
def privilegeCheck (s : State) : Res Unit :=
  if s.inVM && pslCurMod s.vmpsl == 0 then .error (.exc .vmEmulationTrap)
  else if s.mode = 0 then .ok ()
  else .error (.exc (.reservedInstruction .privileged))

/-! ## Taking an exception or an interrupt -/

/-- The offset of an exception's vector in the system control block (R211; for the reserved addressing mode fault
the configuration's, log 8). The VM-emulation trap has none (R217). -/
def scbOffset (cfg : Params) : Exc → Option Word
  | .reservedInstruction _ => some 0x10
  | .reservedOperandFault => some 0x18
  | .reservedOperandAbort => some 0x18
  | .reservedAddressingMode => some cfg.scbAddressing
  | .accessViolation _ => some 0x20
  | .translationNotValid _ => some 0x24
  | .vmEmulationTrap => none

/-- The PC an exception saves: the instruction's own for a fault (R212, R221); for an abort the spec states none
(log 7). -/
def savedPc (s : State) : Exc → Word
  | .reservedOperandAbort => Config.freeAbortPc s.draws
  | _ => s.pc

/-- An exception's parameters, in the order they are pushed: for a memory-management fault the virtual address and
then the reason mask (R211; log 6). What the others push R211 does not state and R218 does not say: none, PRESUMED
(log 58). -/
def excParams (s : State) : Exc → List Word
  | .accessViolation va => [va, Config.freeReasonMask s.draws]
  | .translationNotValid va => [va, Config.freeReasonMask s.draws]
  | _ => []

/-- The fault of a push that entry to a handler cannot make. -/
def entryFault : Stop → Fault
  | .exc e => .entryPush e
  | .fault f => f
  | .refuse _ => .entryPush .reservedOperandAbort

/-- Entry to a handler (R221): the vector is read from the system control block; its bits <1:0> choose the stack;
the stack is switched to with the handler's PSL; the old PSL, the saved PC and the parameters are pushed; PC receives
the vector with bits <1:0> cleared. `level` is an interrupt's level, and none for an exception. Whether the low bits of
SCBB count is not said; all 32 do: DESIGN CHOICE (log 55). Nor is the mode in which the pushes are translated; they are
writes of the handler's mode, kernel: DESIGN CHOICE (log 57). -/
def enterHandler (s : State) (offset : Word) (level : Option (BitVec 5)) (pc : Word) (params : List Word) :
    Except Fault State :=
  match requirePhys s.cfg (longAddrs (s.scbb + offset)) with
  | .error f => .error f
  | .ok _ =>
    let vector := physLong s (s.scbb + offset)
    if vector.extractLsb' 0 2 = 0 ∨ vector.extractLsb' 0 2 = 1 then
      let onIs := pslIs s.psl || vector.extractLsb' 0 2 == 1
      match pushAll (switchStack s s.sp (handlerPsl s.psl onIs level)) (pslToLong s.cfg s.psl :: pc :: params) with
      | .error e => .error (entryFault e)
      | .ok s' => .ok (finish s' (vector &&& 0xFFFFFFFC#32))
    else .error (.scbVectorCode vector)

/-- `raise e` in the state before the instruction (R212): the handler is entered (R221), or the run ends (R220; always
for the VM-emulation trap, R217). -/
def raise (s : State) (e : Exc) : Host.Outcome State Fault Refusal :=
  match (if s.cfg.handlerEntry then scbOffset s.cfg e else none) with
  | none => .fault (.exception e s.pc)
  | some off =>
    match enterHandler s off none (savedPc s e) (excParams s e) with
    | .ok s' => .next s'
    | .error f => .fault f

/-- The outcome of an instruction begun in `s`: its result, or the exception it raises with the state as it was
before (R212), or its stop. -/
def settle (s : State) : Res State → Host.Outcome State Fault Refusal
  | .ok s' => .next s'
  | .error (.exc e) => raise s e
  | .error (.fault f) => .fault f
  | .error (.refuse r) => .refused r

/-- The IPL of the software interrupt that delivers an AST (R127, R224). -/
def astLevel : BitVec 5 := 2

/-- The AST's interrupt is being taken: it is no longer requested (R224). -/
def astTaken (s : State) : State := { s with astRequest := false }

/-- A pending AST at an instruction boundary (R224): the run ends if handlers are not entered; else the interrupt is
taken if IPL is below its level, and it stays pending if not. -/
def deliverAst (s : State) : Option (Host.Outcome State Fault Refusal) :=
  if s.astRequest then
    if s.cfg.handlerEntry then
      if (pslIpl s.psl).toNat < astLevel.toNat then
        match enterHandler (astTaken s) s.cfg.scbAst (some astLevel) s.pc [] with
        | .ok s' => some (.next s')
        | .error f => some (.fault f)
      else none
    else some (.fault (.interruptAst s.pc))
  else none

end Sys2Proof.Machine
end

