-- ==== Sys2Proof/Machine/Bugcheck.lean ====
section
/-!
DEFINITION. BUGW and BUGL (41_bugcheck R170 to R173). The hardware does not read the message (R171).
-/

namespace Sys2Proof.Machine

/-- BUGW: a reserved instruction fault, in every mode (R170, R173). -/
def execBugw (_message : BitVec 16) (s : State) : Host.Outcome State Fault Refusal :=
  raise s (.reservedInstruction .reservedOpcode)

/-- BUGL: a reserved instruction fault, in every mode (R172, R173). -/
def execBugl (_message : BitVec 32) (s : State) : Host.Outcome State Fault Refusal :=
  raise s (.reservedInstruction .reservedOpcode)

/-- The message of BUGW as a handler reads it: zero-extended to a longword (R97, R175). -/
def bugwMessage (message : BitVec 16) : Word := message.setWidth 32

end Sys2Proof.Machine
end

