-- ==== Sys2Proof/Machine/Vpsr.lean ====
section
/-!
DEFINITION. The Vector Processor Status Register (42_vector R186 to R202): what MTPR does to it and what MFPR reads.
-/

namespace Sys2Proof.Machine

/-- The settings of VPSR<3:0> that Table 10-2 lists: RLD, STS, RST, VEN (R199). -/
def vpsrSettings : List (BitVec 4) := [0b0000, 0b0001, 0b0010, 0b0011, 0b0100, 0b1000, 0b1001]

/-- RST (R189): the stored bits and VAER are cleared. BSY is the vector processor's own, and clear here. -/
def vpsrReset (s : State) : State :=
  { s with
    vpsr := { s.vpsr with ven := false, mf := false, pmf := false, aex := false, imp := false, ivo := false }
    vaer := 0 }

/-- The bits of a written longword that act on the stored bits one by one: VEN (R188), the write-one-to-clear bits
MF, PMF, AEX with VAER, IMP, IVO (R192 to R196). BSY is ignored (R197). -/
def vpsrBits (s : State) (w : Word) : State :=
  { s with
    vpsr :=
      { ven := w.getLsbD 0
        mf := s.vpsr.mf && !w.getLsbD 5
        pmf := s.vpsr.pmf && !w.getLsbD 6
        aex := s.vpsr.aex && !w.getLsbD 7
        imp := s.vpsr.imp && !(w.getLsbD 24 && s.cfg.hasVpsrImp)
        ivo := s.vpsr.ivo && !(w.getLsbD 25 && s.cfg.hasVpsrIvo)
        bsy := s.vpsr.bsy }
    vaer := if w.getLsbD 7 then 0 else s.vaer }

/-- `VpsrWrite(w)`, in the order of R186. -/
def vpsrWrite (s : State) (w : Word) : Res State :=
  if w &&& 0x7CFFFF10#32 ≠ 0 then .error (.refuse .vpsrReservedBits)
  else if w.extractLsb' 0 4 ∉ vpsrSettings then .error (.refuse .vpsrSetting)
  else if w.getLsbD 1 ∧ s.vpsr.bsy then .error (.refuse .vpsrResetWhileBusy)
  else if (w.getLsbD 2 ∨ w.getLsbD 3) ∧ s.cfg.vecMMAsync then .error (.refuse .vectorStateTransfer)
  else .ok (vpsrBits (if w.getLsbD 1 then vpsrReset s else s) w)

/-- A bit of a longword, or nothing. -/
def bitAt (n : Nat) (b : Bool) : Word := if b then 1#32 <<< n else 0

/-- `VpsrRead()` (R187): MF and PMF read as zero under the synchronous method (R192, R193), IMP and IVO when not
implemented (R195, R196), all other bits but VEN, AEX and BSY always. -/
def vpsrRead (s : State) : Word :=
  bitAt 0 s.vpsr.ven
    ||| bitAt 5 (s.vpsr.mf && s.cfg.vecMMAsync)
    ||| bitAt 6 (s.vpsr.pmf && s.cfg.vecMMAsync)
    ||| bitAt 7 s.vpsr.aex
    ||| bitAt 24 (s.vpsr.imp && s.cfg.hasVpsrImp)
    ||| bitAt 25 (s.vpsr.ivo && s.cfg.hasVpsrIvo)
    ||| bitAt 31 s.vpsr.bsy

end Sys2Proof.Machine
end

