-- ==== Sys2Proof/Machine/Ipr.lean ====
section
/-!
DEFINITION. The internal processor registers (10_state R29 to R34): their numbers and classes, what MTPR writes
(40_privileged R146, R149 to R151) and what MFPR reads (R155).
-/

namespace Sys2Proof.Machine

/-- The processor has the register: ASN and CPUID if `HasASN` (R32), VMPSL if `HasVM` (R28), the vector registers if
`HasVector` (R205), SCBB, where a map has a row for it, if handlers are entered: DESIGN CHOICE (log 4). -/
def iprPresent (cfg : Params) : Ipr → Bool
  | .asn | .cpuid => cfg.hasASN
  | .vmpsl => cfg.hasVM
  | .vpsr | .vaer | .vmac | .vtbia | .vsar => cfg.hasVector
  | .scbb => cfg.handlerEntry
  | _ => true

/-- The row of a number (R29, R30): the whole longword is compared (R145). -/
def iprRow (cfg : Params) (n : Word) : Option IprRow :=
  cfg.iprMap.find? (fun row => decide (row.number = n) && iprPresent cfg row.reg)

/-- `IprMap(n)` (R29, R30). -/
def iprMap (cfg : Params) (n : Word) : Option Ipr := (iprRow cfg n).map (fun row => row.reg)

/-- `class(IprMap(n))` of a number that exists (R29, R30). -/
def iprClass (cfg : Params) (n : Word) : Option IprClass := (iprRow cfg n).map (fun row => row.cls)

/-- A value cut to a register's width (R32). -/
def cutTo (width : Nat) (w : Word) : Word := w &&& BitVec.ofNat 32 (2 ^ width - 1)

/-- P0BR and P1BR: a system-space longword-aligned address (R60, R135). -/
def mapBaseValid (w : Word) : Bool := w.getLsbD 31 && w.extractLsb' 0 2 == 0

/-- The bits that the longword of P0LR or P1LR, at an offset of the PCB, has a field for: the length, and ASTLVL and PME
where the layout puts them there. The others must be zero (R35). -/
def lengthMask (l : PcbLayout) (off : Word) : Word :=
  0x003FFFFF#32 ||| (if l.astlvl.offset = off then 7#32 <<< l.astlvl.low else 0)
    ||| (if l.pme.offset = off then 1#32 <<< l.pme.low else 0)

/-- The longword of P0LR or P1LR: its must-be-zero bits are zero, and ASTLVL, where it is there, is at most 4 (R35, R135). -/
def lengthValid (l : PcbLayout) (off w : Word) : Bool :=
  (w &&& ~~~lengthMask l off == 0)
    && (decide (l.astlvl.offset ≠ off) || decide ((w.extractLsb' l.astlvl.low 3).toNat ≤ 4))

/-- A TB event is recorded (R73, R74). -/
def tbEvent (s : State) (e : TbEvent) : State := { s with tbEvents := e :: s.tbEvents }

/-- The process whose TB state a change of the map invalidates: the current one, if processes have numbers. R149 gives
the event no argument: DESIGN CHOICE (log 22). -/
def currentProcess (s : State) : Option Word := if s.cfg.hasASN then some s.asn else none

/-- A memory management register is written, in all copies (R146, R75), if its value is one that the default of
`PcbValid` accepts in its longword of the PCB (R149; log 32). -/
def mapWrite (s : State) (valid : Bool) (f : MapRegs → MapRegs) : Res State :=
  if valid then
    .ok (tbEvent { s with map := f s.map, vecMap := if s.cfg.hasVector then f s.vecMap else s.vecMap }
      (.flushProcess (currentProcess s)))
  else .error (.refuse .mapRegisterInvalid)

/-- The register named is that of the stack in use (R21, R150): ISP, or the current mode's. -/
def stackActive (s : State) (slot : Option (Fin 4)) : Bool :=
  match slot with
  | none => pslIs s.psl
  | some m => !pslIs s.psl && s.mode.toFin == m

/-- The stored cell of a stack pointer register receives a value. -/
def setSlot (s : State) (slot : Option (Fin 4)) (w : Word) : State :=
  match slot with
  | none => { s with isp := w }
  | some m => { s with spSlot := s.spSlot.set m.val w m.isLt }

/-- MTPR to a stack pointer register (R150, R151). Of the stack in use, the cell is stale, and whether the live SP
is written too is left open (log 26). -/
def stackWrite (s : State) (slot : Option (Fin 4)) (w : Word) : Res State :=
  if s.inSwitchWindow then .error (.refuse .stackPointerInSwitchWindow)
  else if stackActive s slot then
    .ok (if Config.freeActiveSpWrite s.draws then setReg (setSlot s slot w) regSP w else setSlot s slot w)
  else .ok (setSlot s slot w)

/-- MFPR from a stack pointer register (R150, R151). Of the stack in use the value is free (log 26). -/
def stackRead (s : State) (slot : Option (Fin 4)) : Res Word :=
  if s.inSwitchWindow then .error (.refuse .stackPointerInSwitchWindow)
  else if stackActive s slot then .ok (Config.freeActiveSp s.draws)
  else .ok (match slot with
    | none => s.isp
    | some m => s.spSlot[m.val])

/-- MTPR to ASTLVL: values above 4 are reserved operands (R149; log 32). -/
def astlvlWrite (s : State) (w : Word) : Res State :=
  if w.toNat ≤ 4 then .ok { s with astlvl := w.extractLsb' 0 3 } else .error (.exc .reservedOperandFault)

/-- `IprWrite(n, w)` by register (R149). -/
def iprWrite (s : State) (r : Ipr) (w : Word) : Res State :=
  match r with
  | .ksp => stackWrite s (some 0) w
  | .esp => stackWrite s (some 1) w
  | .ssp => stackWrite s (some 2) w
  | .usp => stackWrite s (some 3) w
  | .isp => stackWrite s none w
  | .p0br => mapWrite s (mapBaseValid w) (fun m => { m with p0br := w })
  | .p0lr => mapWrite s (lengthValid s.cfg.pcb s.cfg.pcb.p0lr w) (fun m => { m with p0lr := w })
  | .p1br => mapWrite s (mapBaseValid w) (fun m => { m with p1br := w })
  | .p1lr => mapWrite s (lengthValid s.cfg.pcb s.cfg.pcb.p1lr w) (fun m => { m with p1lr := w })
  | .pcbb => .ok { s with pcbb := w }
  | .scbb => .ok { s with scbb := w }
  | .astlvl => astlvlWrite s w
  | .tbia => .ok (tbEvent s .invalidateAll)
  | .tbis => .ok (tbEvent s (.invalidateSingle w))
  | .pme => .ok { s with pme := w.getLsbD 0 }
  | .asn => .ok { s with asn := cutTo s.cfg.asnWidth w }
  | .cpuid => .ok { s with cpuid := cutTo s.cfg.cpuidWidth w }
  | .vmpsl => .ok { s with vmpsl := pslOfLong s.cfg w }
  | .vpsr => vpsrWrite s w
  | .vaer => .error (.refuse .vaerWrite)
  | .vmac => .error (.refuse .vmacUnknown)
  | .vtbia => .ok (tbEvent s .vectorInvalidateAll)
  | .vsar => .ok { s with vsar := w }

/-- `IprRead(n)` by register (R155). TBIA, TBIS and VTBIA hold no value to read, whatever class a map gives them. -/
def iprRead (s : State) (r : Ipr) : Res Word :=
  match r with
  | .ksp => stackRead s (some 0)
  | .esp => stackRead s (some 1)
  | .ssp => stackRead s (some 2)
  | .usp => stackRead s (some 3)
  | .isp => stackRead s none
  | .p0br => .ok s.map.p0br
  | .p0lr => .ok s.map.p0lr
  | .p1br => .ok s.map.p1br
  | .p1lr => .ok s.map.p1lr
  | .pcbb => .ok s.pcbb
  | .scbb => .ok s.scbb
  | .astlvl => .ok (s.astlvl.setWidth 32)
  | .pme => .ok (if s.pme then 1 else 0)
  | .asn => .ok s.asn
  | .cpuid => .ok s.cpuid
  | .vmpsl => .ok (pslToLong s.cfg s.vmpsl)
  | .vpsr => .ok (vpsrRead s)
  | .vaer => .ok s.vaer
  | .vmac => .error (.refuse .vmacUnknown)
  | .vsar => .ok s.vsar
  | .tbia | .tbis | .vtbia => .error (.exc .reservedOperandFault)

end Sys2Proof.Machine
end

