-- ==== Sys2Proof/Machine/Privileged.lean ====
section
/-!
DEFINITION. REI, LDPCTX and SVPCTX (40_privileged R120 to R144).
-/

namespace Sys2Proof.Machine

/-! ## REI -/

/-- The AST check, with the new PSL in place (R127). -/
def astCheck (s : State) : State :=
  { s with astRequest := s.astRequest || (!pslIs s.psl && decide (s.astlvl.toNat ≤ s.mode.toNat)) }

/-- `IStreamSync()` (R72): the stores so far are seen by the fetches from here on. -/
def iStreamSync (s : State) : State := { s with written := [] }

/-- The state REI leaves when it is allowed: SP past the two longwords goes to the old stack's cell, the new PSL
selects the stack (R126), the AST check is made (R127), the instruction stream is synchronised (R72), and execution
resumes at the popped PC (R128). -/
def reiResume (s : State) (newPc newPsl : Word) : State :=
  finish (iStreamSync (astCheck (switchStack s (s.sp + 8) (reiPsl s.psl newPsl)))) newPc

/-- The checks of REI on the popped PSL: in VM mode the comparison with VMPSL and then the VM-emulation trap (R124);
on a real machine R123, and R125. -/
def reiCheck (s : State) (newPsl : Word) : Res Unit :=
  if s.inVM then
    if vmReiAllowed s.cfg s.vmpsl newPsl then .error (.exc .vmEmulationTrap) else .error (.exc .reservedOperandFault)
  else if !reiAllowed s.cfg s.psl newPsl then .error (.exc .reservedOperandFault)
  else if s.mode ≠ 0 ∧ pslVm s.cfg newPsl then .error (.exc .reservedOperandFault)
  else .ok ()

/-- REI up to its outcome (R120 to R122). -/
def reiBody (s : State) : Res State := do
  let newPc ← memRead s s.sp
  let long ← memRead s (s.sp + 4)
  reiCheck s (pslOfLong s.cfg long)
  return reiResume s newPc (pslOfLong s.cfg long)

/-- The REI owed after an LDPCTX has been executed, whether or not it completes (R255; log 28). -/
def reiBegun (s : State) : State := { s with afterLdpctx := none }

/-- REI (R120). -/
def execRei (s : State) : Host.Outcome State Fault Refusal := settle (reiBegun s) (reiBody (reiBegun s))

/-! ## LDPCTX -/

/-- The PCB's memory management longwords, as registers (R35, R131). -/
def pcbMap (s : State) : MapRegs where
  p0br := pcbRead s s.cfg.pcb.p0br
  p0lr := ((pcbRead s s.cfg.pcb.p0lr).extractLsb' 0 22).setWidth 32
  p1br := pcbRead s s.cfg.pcb.p1br
  p1lr := ((pcbRead s s.cfg.pcb.p1lr).extractLsb' 0 22).setWidth 32

/-- ASTLVL in the PCB (R35). -/
def pcbAstlvl (s : State) : BitVec 3 := (pcbRead s s.cfg.pcb.astlvl.offset).extractLsb' s.cfg.pcb.astlvl.low 3

/-- PME in the PCB (R35). -/
def pcbPme (s : State) : Bool := (pcbRead s s.cfg.pcb.pme.offset).getLsbD s.cfg.pcb.pme.low

/-- The default of `PcbValid` (R135): base registers system-space and longword-aligned, the must-be-zero bits of the
longwords of P0LR and P1LR zero, ASTLVL at most 4. -/
def pcbValidDefault (s : State) : Bool :=
  mapBaseValid (pcbRead s s.cfg.pcb.p0br) && mapBaseValid (pcbRead s s.cfg.pcb.p1br)
    && lengthValid s.cfg.pcb s.cfg.pcb.p0lr (pcbRead s s.cfg.pcb.p0lr)
    && lengthValid s.cfg.pcb s.cfg.pcb.p1lr (pcbRead s s.cfg.pcb.p1lr) && decide ((pcbAstlvl s).toNat ≤ 4)

/-- An entry of `PcbValid` answers the PCB. A condition may name an offset that no field of the layout has; `requirePcb`
does not check that memory is there, and where none is the read finds what an unlisted byte reads as: DESIGN CHOICE
(log 59). -/
def pcbEntryMatches (s : State) (e : PcbEntry) : Bool :=
  e.conditions.all (fun c => pcbRead s c.offset &&& c.mask == c.bits)

/-- `PcbValid` (R135): the configured answer, and else the default. -/
def pcbValid (s : State) : Bool :=
  match s.cfg.pcbTable.find? (pcbEntryMatches s) with
  | some e => e.valid
  | none => pcbValidDefault s

/-- The general registers of the PCB: R0 to R11, AP, FP (R35); SP and PC as they are. -/
def pcbGprs (s : State) : Vector Word 16 :=
  Vector.ofFn (fun i : Fin 16 => if h : i.val < 14 then pcbRead s s.cfg.pcb.gpr[i.val] else getReg s i)

/-- The translation-buffer event of LDPCTX: all process-space state without ASN; with ASN, that of the new ASN if
the process last ran on another processor (R134, R73). -/
def ldpctxFlush (s : State) (newAsn : Word) : List TbEvent :=
  if s.cfg.hasASN then
    if pcbRead s s.cfg.pcb.prvcpu ≠ s.cpuid then [.flushProcess (some newAsn)] else []
  else [.flushProcess none]

/-- The ASN that LDPCTX leaves: the PCB's, if the processor has one (R133). -/
def pcbAsn (s : State) : Word :=
  if s.cfg.hasASN then cutTo s.cfg.asnWidth (pcbRead s s.cfg.pcb.asn) else s.asn

/-- What LDPCTX loads from the PCB (R133, R139): stack pointers, general registers, map, ASTLVL, PME, ASN. The vector
processor's copies of the map are not loaded (R75, R137). -/
def ldpctxLoad (s : State) : State :=
  { s with
    spSlot := s.cfg.pcb.sp.map (pcbRead s)
    x := pcbGprs s
    map := pcbMap s
    astlvl := pcbAstlvl s
    pme := pcbPme s
    asn := pcbAsn s
    tbEvents := ldpctxFlush s (pcbAsn s) ++ s.tbEvents }

/-- Execution is switched to the kernel stack (R136): from the interrupt stack, SP goes to ISP, IS is cleared and SP is
the kernel stack pointer just loaded. With IS already clear the spec does not say whether SP is reloaded or the stack
in use is kept (log 25). -/
def toKernelStack (s : State) : State :=
  if pslIs s.psl then switchStack s s.sp (pslWithIs s.psl false)
  else if Config.freeLdpctxReload s.draws then setReg s regSP (s.spSlot[0]) else s

/-- The end of an LDPCTX at `pc` that meets a memory fault on a push, after which the spec does not give the state (R136,
D40): where an exception ends the run, its outcome (R220); and else a fault of the model's own. -/
def pushFault (cfg : Params) (e : Exc) (pc : Word) : Fault :=
  if cfg.handlerEntry then .ldpctxPush e pc else .exception e pc

/-- A push of an LDPCTX at `pc`. -/
def ldpctxPush (pc : Word) (s : State) (v : Word) : Res State :=
  match push s v with
  | .ok s' => .ok s'
  | .error (.exc e) => .error (.fault (pushFault s.cfg e pc))
  | .error e => .error e

/-- LDPCTX has completed: the switch window is over (R256), an REI is owed at `next` (R255), and the PCB at `pcb` is
loaded (R22). -/
def ldpctxDone (s : State) (pcb next : Word) : State :=
  { s with inSwitchWindow := false, afterLdpctx := some next, loadedPcb := some pcb }

/-- LDPCTX up to its outcome (R131, R132, R136). An invalid PCB raises the reserved operand abort, the preferred
implementation of the UNDEFINED operation (R135; log 7). -/
def ldpctxBody (s : State) : Res State := do
  privilegeCheck s
  requirePcbbAligned s
  requirePcb s
  if pcbValid s then
    let s1 := toKernelStack (ldpctxLoad s)
    let s2 ← ldpctxPush s.pc s1 (pcbRead s1 s1.cfg.pcb.psl)
    let s3 ← ldpctxPush s.pc s2 (pcbRead s2 s2.cfg.pcb.pc)
    return finish (ldpctxDone s3 s.pcbb (s.pc + 1)) (s.pc + 1)
  else throw (.exc .reservedOperandAbort)

/-- LDPCTX (R131). -/
def execLdpctx (s : State) : Host.Outcome State Fault Refusal := settle s (ldpctxBody s)

/-! ## SVPCTX -/

/-- The longwords SVPCTX stores before it leaves the stack: the general registers, the popped PC and PSL (R142), and
CPUID in PRVCPU if the processor has an ASN register. -/
def svpctxStores (s : State) (savedPc savedPsl : Word) : List (Word × Word) :=
  (List.finRange 14).map (fun i => (s.cfg.pcb.gpr[i], getReg s (i.castLE (by decide))))
    ++ [(s.cfg.pcb.pc, savedPc), (s.cfg.pcb.psl, savedPsl)]
    ++ (if s.cfg.hasASN then [(s.cfg.pcb.prvcpu, s.cpuid)] else [])

/-- The PSL of SVPCTX when it switches to the interrupt stack: IS set, IPL at least 1 (R144, C12). -/
def svpctxPsl (p : Word) : Word :=
  pslWithIpl (pslWithIs p true) (if pslIpl p = 0 then 1 else pslIpl p)

/-- With IS clear, SP goes to the kernel stack's cell and execution continues on the interrupt stack; with IS set
nothing is switched (R144). -/
def toInterruptStack (s : State) : State :=
  if pslIs s.psl then s else switchStack s s.sp (svpctxPsl s.psl)

/-- The four per-process stack pointers are stored (R142). -/
def svpctxSlots (s : State) : List (Word × Word) :=
  (List.finRange 4).map (fun m => (s.cfg.pcb.sp[m], s.spSlot[m]))

/-- SVPCTX has completed: the switch window begins (R256), and no PCB is loaded (R22). -/
def svpctxDone (s : State) : State := { s with inSwitchWindow := true, loadedPcb := none }

/-- SVPCTX's first stores, once its two pops have been made, and its switch of stack (R142, R144). -/
def svpctxLeave (s : State) (savedPc savedPsl : Word) : State :=
  toInterruptStack (setReg (pcbWriteAll s (svpctxStores s savedPc savedPsl)) regSP (s.sp + 8))

/-- What SVPCTX does once its two pops have been made (R140, R142, R144). -/
def svpctxSave (s : State) (savedPc savedPsl : Word) : State :=
  let left := svpctxLeave s savedPc savedPsl
  finish (svpctxDone (pcbWriteAll left (svpctxSlots left))) (s.pc + 1)

/-- SVPCTX up to its outcome (R140, R141): both pops come before the first store, so that a fault on one changes
nothing (R142). -/
def svpctxBody (s : State) : Res State := do
  privilegeCheck s
  requirePcbbAligned s
  let savedPc ← memRead s s.sp
  let savedPsl ← memRead s (s.sp + 4)
  requirePcb s
  return svpctxSave s savedPc savedPsl

/-- SVPCTX (R140). -/
def execSvpctx (s : State) : Host.Outcome State Fault Refusal := settle s (svpctxBody s)

end Sys2Proof.Machine
end

