-- ==== Sys2Proof/Machine/Operands.lean ====
section
/-!
DEFINITION. Evaluating operand specifiers of longword operands (30_encoding R93 to R96, 10_state R23), every form of
R94's table. The forms R95 leaves out for caution have the effect R94 gives them;
where the configuration admits R95's subset alone, the decoder refuses them before (`runBytes`, log 11).
-/

namespace Sys2Proof.Machine

/-- What a specifier names: a value, a register, or a memory address (R93). -/
inductive Loc where
  | value (v : Word)
  | reg (r : Reg)
  | mem (a : Word)
  deriving DecidableEq, Repr

/-- `x[r]` as an address in a displacement mode: PC is the address after the specifier (R23, R94; log 12). -/
def baseReg (s : State) (r : Reg) (pcAfter : Word) : Word := if r = regPC then pcAfter else getReg s r

/-- A use of PC that R94 calls UNPREDICTABLE (log 13), or an encoding that does not exist. -/
def refusePc (r : Reg) : Res Unit :=
  if r = regPC then .error (.refuse .unpredictableOperand) else .ok ()

/-- A specifier without index: what it names, and the state with its register side effects (R94). -/
def evalBase (s : State) (b : Base) (pcAfter : Word) : Res (Loc × State) :=
  match b with
  | .literal n => .ok (.value (n.setWidth 32), s)
  | .reg r => .ok (.reg r, s)
  | .regDeferred r => do
    refusePc r
    return (.mem (getReg s r), s)
  | .autoDec r => do
    refusePc r
    return (.mem (getReg s r - 4), setReg s r (getReg s r - 4))
  | .autoInc r => do
    refusePc r
    return (.mem (getReg s r), setReg s r (getReg s r + 4))
  | .immediate v => .ok (.value v, s)
  | .autoIncDeferred r => do
    refusePc r
    let a ← memRead s (getReg s r)
    return (.mem a, setReg s r (getReg s r + 4))
  | .absolute a => .ok (.mem a, s)
  | .byteDisp r d => .ok (.mem (baseReg s r pcAfter + d.signExtend 32), s)
  | .byteDispDeferred r d => do
    let a ← memRead s (baseReg s r pcAfter + d.signExtend 32)
    return (.mem a, s)
  | .wordDisp r d => .ok (.mem (baseReg s r pcAfter + d.signExtend 32), s)
  | .wordDispDeferred r d => do
    let a ← memRead s (baseReg s r pcAfter + d.signExtend 32)
    return (.mem a, s)
  | .longDisp r d => .ok (.mem (baseReg s r pcAfter + d), s)
  | .longDispDeferred r d => do
    let a ← memRead s (baseReg s r pcAfter + d)
    return (.mem a, s)

/-- The index register's value: R94 does not say whether it is read before or after the base changes it (log 14). -/
def indexValue (s s' : State) (x : Reg) (which : Nat) : Word :=
  if getReg s x = getReg s' x then getReg s x
  else if Config.freeIndexBefore s.draws which then getReg s x else getReg s' x

/-- A specifier: an index adds four times the index register to the base's address; an index register PC or a base
that is literal, register or immediate is a reserved addressing mode (R94, R218), before the base is evaluated: R226
gives that fault no place in its order. DESIGN CHOICE (log 54). `which` tells the instruction's operands apart. -/
def evalSpecifier (s : State) (sp : Specifier) (pcAfter : Word) (which : Nat) : Res (Loc × State) :=
  match sp with
  | .plain b => evalBase s b pcAfter
  | .indexed x b =>
    if x = regPC ∨ b.indexable = false then .error (.exc .reservedAddressingMode)
    else do
      let r ← evalBase s b pcAfter
      match r.1 with
      | .mem a => return (.mem (a + 4 * indexValue s r.2 x which), r.2)
      | _ => throw (.exc .reservedAddressingMode)

/-- An operand of access type r: its value (R93, R94). PC as a register gives a free value (log 13). -/
def readOperand (s : State) (sp : Specifier) (pcAfter : Word) (which : Nat) : Res (Word × State) := do
  let r ← evalSpecifier s sp pcAfter which
  match r.1 with
  | .value v => return (v, r.2)
  | .reg n => return (if n = regPC then Config.freePcOperand s.draws which else getReg r.2 n, r.2)
  | .mem a =>
    let v ← memRead r.2 a
    return (v, r.2)

/-- An operand of access type w, resolved with its memory faults and not yet written (R152). A literal or an immediate
is a reserved addressing mode (R94, R218); PC as a register is UNPREDICTABLE (R94). -/
def resolveDestination (s : State) (sp : Specifier) (pcAfter : Word) (which : Nat) : Res (Loc × State) := do
  let r ← evalSpecifier s sp pcAfter which
  match r.1 with
  | .value _ => throw (.exc .reservedAddressingMode)
  | .reg n => do
    refusePc n
    return r
  | .mem a => do
    let _ ← translateLong r.2 a .write
    return r

/-- `WriteOperand(d, 4, v)` (R152). -/
def writeOperand (s : State) (d : Loc) (v : Word) : Res State :=
  match d with
  | .value _ => .error (.exc .reservedAddressingMode)
  | .reg r => .ok (setReg s r v)
  | .mem a => memWrite s a v

/-- The PC after the first operand specifier of an instruction with a one-byte opcode (R23, R90). -/
def pcAfter1 (s : State) (sp1 : Specifier) : Word := s.pc + 1 + BitVec.ofNat 32 (specLength sp1)

/-- The PC after the second: the address of the next instruction (R23, R98). -/
def pcAfter2 (s : State) (sp1 sp2 : Specifier) : Word := pcAfter1 s sp1 + BitVec.ofNat 32 (specLength sp2)

end Sys2Proof.Machine
end

