-- ==== Sys2Proof/Machine/ProcReg.lean ====
section
/-!
DEFINITION. MTPR and MFPR (40_privileged R145 to R155).
-/

namespace Sys2Proof.Machine

/-- N, Z, V and C are UNPREDICTABLE after MTPR and MFPR (R148, R154): four free bits (log 37). -/
def drawCc (s : State) : State := { s with psl := pslWithCc s.psl (Config.freeFlags s.draws) }

/-- The register MTPR names, if it exists and is not read-only (R147). -/
def writableIpr (cfg : Params) (n : Word) : Res Ipr :=
  match iprMap cfg n with
  | none => .error (.exc .reservedOperandFault)
  | some r => if iprClass cfg n = some .readOnly then .error (.exc .reservedOperandFault) else .ok r

/-- The register MFPR names, if it exists and is not write-only (R153). -/
def readableIpr (cfg : Params) (n : Word) : Res Ipr :=
  match iprMap cfg n with
  | none => .error (.exc .reservedOperandFault)
  | some r => if iprClass cfg n = some .writeOnly then .error (.exc .reservedOperandFault) else .ok r

/-- MTPR up to its outcome, in the order of R145, R147 and R226. -/
def mtprBody (src procreg : Specifier) (s : State) : Res State := do
  privilegeCheck s
  let a ← readOperand s src (pcAfter1 s src) 0
  let n ← readOperand a.2 procreg (pcAfter2 s src procreg) 1
  let r ← writableIpr s.cfg n.1
  let s' ← iprWrite n.2 r a.1
  return finish (drawCc s') (pcAfter2 s src procreg)

/-- MTPR src, procreg (R145). -/
def execMtpr (src procreg : Specifier) (s : State) : Host.Outcome State Fault Refusal :=
  settle s (mtprBody src procreg s)

/-- MFPR up to its outcome, in the order of R152, R153 and R226. -/
def mfprBody (procreg dst : Specifier) (s : State) : Res State := do
  privilegeCheck s
  let n ← readOperand s procreg (pcAfter1 s procreg) 0
  let d ← resolveDestination n.2 dst (pcAfter2 s procreg dst) 1
  let r ← readableIpr s.cfg n.1
  let v ← iprRead d.2 r
  let s' ← writeOperand d.2 d.1 v
  return finish (drawCc s') (pcAfter2 s procreg dst)

/-- MFPR procreg, dst (R152). -/
def execMfpr (procreg dst : Specifier) (s : State) : Host.Outcome State Fault Refusal :=
  settle s (mfprBody procreg dst s)

end Sys2Proof.Machine
end

