-- ==== Sys2Proof/Machine/Dispatch.lean ====
section
/-!
DEFINITION. The one match over the instructions: each arm calls its meaning.
-/

namespace Sys2Proof.Machine

def exec (i : Instr) (s : State) : Host.Outcome State Fault Refusal :=
  match i with
  | .rei => Sys2Proof.Machine.execRei s
  | .ldpctx => Sys2Proof.Machine.execLdpctx s
  | .svpctx => Sys2Proof.Machine.execSvpctx s
  | .mtpr src procreg => Sys2Proof.Machine.execMtpr src procreg s
  | .mfpr procreg dst => Sys2Proof.Machine.execMfpr procreg dst s
  | .bugw message => Sys2Proof.Machine.execBugw message s
  | .bugl message => Sys2Proof.Machine.execBugl message s

end Sys2Proof.Machine
end

