-- ==== Sys2Proof/Machine/Fetch.lean ====
section
/-!
DEFINITION. Fetching and running the instruction at PC (10_state R23, 20_memory R62, R63, R72, 60_exceptions R216,
R226), and what a step does around it: the vector processor's idleness (42_vector R201), a pending AST (R224), and
the rule that an REI follows an LDPCTX (R138, R255).
-/

namespace Sys2Proof.Machine

/-- The byte of the instruction stream at a virtual address: translated for reading in the current mode (R63, R216),
and refused if it has been stored to since the last completed REI (R72). -/
def fetchByte (s : State) (va : Word) : Res Byte :=
  match translate s va s.mode .read with
  | .error e => .error (.exc e)
  | .ok pa =>
    if !physExists s.cfg pa then .error (.fault (.nonexistentMemory pa))
    else if pa.toNat ∈ s.written then .error (.refuse .staleInstructionStream)
    else .ok (physByte s pa)

/-- The bytes that can be fetched from an address on, at most `n`, and why the next one cannot. -/
def fetchBytes (s : State) : Nat → Word → List Byte × Option Stop
  | 0, _ => ([], none)
  | n + 1, va =>
    match fetchByte s va with
    | .error e => ([], some e)
    | .ok b =>
      let more := fetchBytes s n (va + 1)
      (b :: more.1, more.2)

/-- Why a byte the decoder wants is missing. The limit `maxLength` is reached by no instruction. -/
def missingByte (why : Option Stop) : Stop := why.getD (.refuse .opcodeOutOfScope)

/-- What a specifier that does not decode does: the fault of its missing byte (R216), or a reserved addressing mode
(R94, R218). -/
def specStop (why : Option Stop) : SpecError → Stop
  | .truncated => missingByte why
  | .indexOfIndex => .exc .reservedAddressingMode

/-- What becomes of an instruction that does not decode, in the order of R226: for an operand, the privilege check
comes first, and the first operand is evaluated before the second is fetched. -/
def undecoded (s : State) (why : Option Stop) : DecodeError → Res State
  | .outOfScope => .error (.refuse .opcodeOutOfScope)
  | .truncatedOpcode => .error (missingByte why)
  | .operand1 e => do
    privilegeCheck s
    throw (specStop why e)
  | .operand2 first e => do
    privilegeCheck s
    let _ ← readOperand s first (pcAfter1 s first) 0
    throw (specStop why e)

/-- The instruction at PC, whose bytes these are, is not the REI owed after an LDPCTX: it lies at another address than
the one after the LDPCTX, or its first byte is not REI's (R138, R255). -/
def wrongSuccessor (s : State) (bs : List Byte) : Bool :=
  match s.afterLdpctx with
  | none => false
  | some a => decide (s.pc ≠ a) || bs.head?.any (fun b => b != 0x02)

/-- The decoder refuses what it has read: only R95's subset is admitted, and this is not in it (R95, R218, D14;
log 11). -/
def formRefused (cfg : Params) (admitted : Bool) : Bool := !cfg.allOperandForms && !admitted

/-- The instruction whose bytes these are is run: only bytes the decoder wants can stop it (R171, R216). After an LDPCTX
it must be the REI owed (R255). Where R95's subset alone is admitted, the decoder refuses the other forms, in any mode
(T49f, T41g). -/
def runBytes (s : State) (bs : List Byte) (why : Option Stop) : Host.Outcome State Fault Refusal :=
  if wrongSuccessor s bs then .refused .notReiAfterLdpctx
  else
    match decode bs with
    | .ok (i, _) => if formRefused s.cfg i.admitted then .refused .operandNotAdmitted else exec i s
    | .error e => if formRefused s.cfg e.admitted then .refused .operandNotAdmitted else settle s (undecoded s why e)

/-- The instruction at PC is fetched and run. -/
def fetchAndRun (s : State) : Host.Outcome State Fault Refusal :=
  let w := fetchBytes s maxLength s.pc
  runBytes s w.1 w.2

/-- One step: a busy vector processor is refused (R201); a deliverable AST comes before the instruction (R224); else
the instruction at PC is run. -/
def stepOnce (s : State) : Host.Outcome State Fault Refusal :=
  if s.cfg.hasVector ∧ s.vpsr.bsy then .refused .vectorProcessorBusy
  else
    match deliverAst s with
    | some o => o
    | none => fetchAndRun s

/-! ## Placing an instruction -/

/-- Bytes placed in physical memory from outside the machine: no store of the program's, so not stale (R72). -/
def placeBytes (s : State) : Word → List Byte → State
  | _, [] => s
  | a, b :: bs =>
    placeBytes { s with mem := Memory.write s.mem a.toNat b, written := s.written.filter (fun k => k != a.toNat) }
      (a + 1) bs

/-- A state in which nothing stands between the next step and the bytes at PC: the vector processor idle, no AST to
deliver, no REI owed, no operand form refused by the decoder, no translation, memory everywhere, and no PCB loaded. -/
def readyToFetch (s : State) : State :=
  { s with
    cfg := { s.cfg with allOperandForms := true, translation := [], physAddrWidth := 32 }
    vpsr := { s.vpsr with bsy := false }
    astRequest := false
    afterLdpctx := none
    loadedPcb := none }

end Sys2Proof.Machine
end

