-- ==== Sys2Proof/Machine/Step.lean ====
section
/-!
DEFINITION. The step, and the state with an instruction placed where the step fetches (log 21).
-/

namespace Sys2Proof.Machine

/-- One step of the scalar processor (10_state section 1). -/
def step (s : State) : Host.Outcome State Fault Refusal := stepOnce s

/-- `s` with the instruction of a table word stored at PC, ready to be fetched by the next step (log 21). -/
def State.withFetchWord (s : State) (nbits w : Nat) : State :=
  placeBytes (readyToFetch s) s.pc (tableBytes nbits w)

end Sys2Proof.Machine
end

