-- ==== Sys2Proof/Machine/Vector.lean ====
section
/-!
DEFINITION. What 42_vector R180 to R185, R203 and R204 say of the vector register file: which bits of an element the
kinds of vector instruction read and write, and the vector length. No instruction of the table is a vector instruction, so no
meaning calls these (log 45).
-/

namespace Sys2Proof.Machine

/-- The number of a vector register, V0 to V15 (R38). -/
abbrev VReg := Fin 16

/-- The kinds of vector instruction that R180 to R182 and R184 tell apart. -/
inductive VectorKind where
  /-- Register-to-register on F_floating or integer data, or a shift, with its source registers (R180). -/
  | operate (sources : List VReg)
  /-- Logical, with its two source registers (R181). -/
  | logical (va vb : VReg)
  /-- VLDL, VGATHL: longword data from memory (R182). -/
  | load
  /-- IOTA (R184). -/
  | iota
  deriving DecidableEq, Repr

/-- `V[r][e]` (R38). -/
def element (s : State) (r : VReg) (e : Fin 64) : BitVec 64 := s.v[r.val][e.val]

/-- The registers whose elements an instruction of a kind reads as operands (R180, R181). -/
def VectorKind.sources : VectorKind → List VReg
  | .operate sources => sources
  | .logical va vb => [va, vb]
  | .load => []
  | .iota => []

/-- Bits <31:0> of element `e` of each source register: all that a vector operate or logical instruction on these data
reads of it (R180, R181). -/
def sourceLongs (s : State) (kind : VectorKind) (e : Fin 64) : List Word :=
  kind.sources.map (fun r => (element s r e).extractLsb' 0 32)

/-- Bits <63:32> of element `e` of the destination: those of the Vb element for a logical instruction, else
UNPREDICTABLE (R180 to R182, R184). -/
def elementHigh (s : State) (kind : VectorKind) (e : Fin 64) : Word :=
  match kind with
  | .logical _ vb => (element s vb e).extractLsb' 32 32
  | _ => Config.freeElementHigh s.draws e.val

/-- A destination register after an instruction of a kind with these results: elements below the vector length
receive the result in bits <31:0>; the others are not modified (R180, R185). Every element below the vector length is
written, whatever VMR holds: the spec does not say how the mask controls an operation (R203, N23), and masked operations
are left out: DESIGN CHOICE (log 45). -/
def vectorResult (s : State) (kind : VectorKind) (c : VReg) (results : Vector Word 64) : Vector (BitVec 64) 64 :=
  Vector.ofFn (fun e : Fin 64 =>
    if e.val < s.vlr.toNat then (elementHigh s kind e ++ results[e.val] : BitVec 64) else element s c e)

/-- The destination register is written. A vector length above 64 makes the results UNPREDICTABLE (R185). -/
def vectorWrite (s : State) (kind : VectorKind) (c : VReg) (results : Vector Word 64) : Res State :=
  if s.vlr.toNat ≤ 64 then .ok { s with v := s.v.set c.val (vectorResult s kind c results) c.isLt }
  else .error (.refuse .vectorLengthOver64)

/-- A vector operate or logical instruction that computes `f` of bits <31:0> of its source elements, element by element
(R180, R181). -/
def vectorOperate (s : State) (kind : VectorKind) (c : VReg) (f : List Word → Word) : Res State :=
  vectorWrite s kind c (Vector.ofFn (fun e => f (sourceLongs s kind e)))

/-- A gather of longwords by offsets from memory (VGATHL): the same register as source and destination makes the result
UNPREDICTABLE (R183), and is refused with a vector length of zero too, where R185 has no element processed: DESIGN CHOICE
(log 45). The quadword form, which R183 calls implied and not named, is left out: DESIGN CHOICE (log 45). -/
def gatherWrite (s : State) (source c : VReg) (results : Vector Word 64) : Res State :=
  if source = c then .error (.refuse .gatherOntoSource) else vectorWrite s .load c results

/-- IOTA's other result: VCR receives the length of the offset vector, 0 to 64 (R204). -/
def iotaCount (s : State) (length : Fin 65) : State := { s with vcr := BitVec.ofNat 7 length.val }

/-- The mask bit of an element (R40, R203). -/
def maskBit (s : State) (e : Fin 64) : Bool := s.vmr.getLsbD e.val

end Sys2Proof.Machine
end

