-- ==== Sys2Proof/Safety.lean ====
section
/-!
DEFINITION. The terms of the claims: the invariant of the machine, what stands between a step and its instruction,
what two states have in common, and what MTPR accepts and keeps.
-/

namespace Sys2Proof.Machine

/-! ## The invariant -/

/-- The machine's invariant: memory and the record of stores are in canonical form; with REI's default check, the PSL is
one that its consistency part accepts (R123 conditions 3 to 6, 8, 9), so that the interrupt stack is in use in kernel
mode only, IPL is zero outside kernel mode, and its must-be-zero bits are zero; with the default check of the PCB,
ASTLVL is at most 4 (R33, R135). -/
abbrev State.Inv (s : State) : Prop :=
  Memory.wf s.mem = true ∧ risingAbove none s.written = true ∧
    (s.cfg.reiTable = [] → pslConsistent s.cfg s.psl = true) ∧ (s.cfg.pcbTable = [] → s.astlvl.toNat ≤ 4)

/-! ## Before the instruction -/

/-- The next step runs the instruction at PC: the vector processor is idle (R201; log 34), and no AST is delivered (R224;
that one waits at IPL 2 or more where handlers are entered is log 9). -/
abbrev State.undisturbed (s : State) : Prop :=
  (s.cfg.hasVector && s.vpsr.bsy) = false ∧
    (s.astRequest && (!s.cfg.handlerEntry || decide ((pslIpl s.psl).toNat < astLevel.toNat))) = false

/-- The instruction may come next: no REI is owed after an LDPCTX, or it is that REI, at its address (R255). -/
abbrev State.maySucceed (s : State) (i : Instr) : Prop :=
  s.afterLdpctx = none ∨ (s.afterLdpctx = some s.pc ∧ i = .rei)

/-- The decoder does not refuse the instruction's operand forms: all are admitted, or these are in R95's subset. -/
abbrev State.admits (s : State) (i : Instr) : Prop :=
  s.cfg.allOperandForms = true ∨ i.admitted = true

/-- Translation is the identity and memory is everywhere: the spec's default (R63). -/
abbrev State.plainMemory (s : State) : Prop :=
  s.cfg.translation = [] ∧ 32 ≤ s.cfg.physAddrWidth

/-- The machine may execute the privileged instructions: kernel mode, and no virtual machine in kernel mode (R132). -/
abbrev State.privileged (s : State) : Prop :=
  s.mode = 0 ∧ (s.inVM && pslCurMod s.vmpsl == 0) = false

/-- The bytes of an instruction that a step fetches: all of them, and of a bugcheck the opcode alone (R171). -/
def fetchedLength : Instr → Nat
  | .bugw _ | .bugl _ => 2
  | i => instrLength i

/-- Byte `k` of an instruction at PC is wanted, once those before it are fetched: of an operand, if the instruction may be
executed and the operand before it is admitted and can be read (R95, R226). -/
def wantsByte (s : State) (i : Instr) (k : Nat) : Prop :=
  match i with
  | .mtpr a _ | .mfpr a _ =>
    k = 0 ∨ (s.privileged ∧ (1 + specLength a ≤ k →
      (s.cfg.allOperandForms = true ∨ a.admitted = true) ∧ ∃ r, readOperand s a (pcAfter1 s a) 0 = .ok r))
  | _ => True

/-! ## What states have in common -/

/-- The processor registers but the stack pointers' cells. -/
def sameProcessorRegisters (s t : State) : Prop :=
  t.map = s.map ∧ t.vecMap = s.vecMap ∧ t.pcbb = s.pcbb ∧ t.scbb = s.scbb ∧ t.astlvl = s.astlvl ∧ t.pme = s.pme ∧
    t.asn = s.asn ∧ t.cpuid = s.cpuid ∧ t.vmpsl = s.vmpsl

/-- The vector registers and the vector processor's own registers. -/
def sameVectorState (s t : State) : Prop :=
  t.v = s.v ∧ t.vlr = s.vlr ∧ t.vmr = s.vmr ∧ t.vcr = s.vcr ∧ t.vpsr = s.vpsr ∧ t.vaer = s.vaer ∧ t.vsar = s.vsar

/-- The stack pointers' cells. -/
def sameStackCells (s t : State) : Prop := t.isp = s.isp ∧ t.spSlot = s.spSlot

/-- The marks of a context switch in progress, the AST request and the TB events. -/
def sameMarks (s t : State) : Prop :=
  t.astRequest = s.astRequest ∧ t.inSwitchWindow = s.inSwitchWindow ∧ t.afterLdpctx = s.afterLdpctx ∧
    t.loadedPcb = s.loadedPcb ∧ t.tbEvents = s.tbEvents

/-- Every byte of physical memory reads as before. -/
def sameMemory (s t : State) : Prop := ∀ a : Word, Memory.read t.mem a.toNat = Memory.read s.mem a.toNat

/-- Every byte of physical memory outside a list of addresses reads as before. -/
def sameMemoryOutside (s t : State) (stored : List Word) : Prop :=
  ∀ a : Word, a ∉ stored → Memory.read t.mem a.toNat = Memory.read s.mem a.toNat

/-- The PSL outside N, Z, V, C. -/
def samePslButCc (s t : State) : Prop := t.psl &&& 0xFFFFFFF0#32 = s.psl &&& 0xFFFFFFF0#32

/-- The longword in physical memory at an address. -/
def storedLong (m : List Host.Cell) (a : Word) : Word :=
  longOfBytes ((longAddrs a).map (fun b => Memory.read m b.toNat))

/-! ## Stacks -/

/-- Two PSLs select the same stack (R21). -/
def sameStack (p q : Word) : Bool :=
  (pslIs p && pslIs q) || (!pslIs p && !pslIs q && pslCurMod p == pslCurMod q)

/-- The vector of an exception (R221 step 1). -/
def vectorOf (s : State) (off : Word) : Word := physLong s (s.scbb + off)

/-- An exception's vector can be followed: its bits <1:0> are 00 or 01 (R221 step 2). -/
abbrev vectorUsable (s : State) (off : Word) : Prop :=
  (vectorOf s off).extractLsb' 0 2 = 0 ∨ (vectorOf s off).extractLsb' 0 2 = 1

/-- The handler of a vector runs on the interrupt stack: it is in use, or the vector chooses it (R221 step 2). -/
def onInterruptStack (s : State) (off : Word) : Bool :=
  pslIs s.psl || (vectorOf s off).extractLsb' 0 2 == 1

/-- The state after entry has switched to the handler's stack, before the pushes (R221 step 3). -/
def entryStart (s : State) (off : Word) (level : Option (BitVec 5)) : State :=
  switchStack s s.sp (handlerPsl s.psl (onInterruptStack s off) level)

/-- The stack pointer a handler's pushes begin at (R221 step 3). -/
def entrySp (s : State) (off : Word) : Word :=
  if onInterruptStack s off then (if pslIs s.psl then s.sp else s.isp)
  else if s.mode = 0 then s.sp else s.spSlot[0]

/-- The physical addresses that pushes of longwords from a state store to: for each in turn, those of the longword below
SP, translated as memory then stands (R63, R65). -/
def pushTargets : State → List Word → List Word
  | _, [] => []
  | s, v :: vs =>
    match translateLong s (s.sp - 4) .write with
    | .ok pas => pas ++ pushTargets (setReg (setPhysBytes s pas (bytesOfLong v)) regSP (s.sp - 4)) vs
    | .error _ => []

/-- What entry to a handler pushes: the old PSL, the saved PC and the parameters (R221 step 4). -/
def entryFrame (s : State) (pc : Word) (params : List Word) : List Word := pslToLong s.cfg s.psl :: pc :: params

/-- A handler has been entered from `s`: the jump, the handler's PSL, SP below the frame, and in the frame the old PSL
above the saved PC above the parameters, the first the highest (R221); the general registers but SP and PC are
unchanged. -/
def handlerEntered (s t : State) (off : Word) (level : Option (BitVec 5)) (pc : Word) (params : List Word) : Prop :=
  t.pc = vectorOf s off &&& 0xFFFFFFFC#32 ∧
    t.psl = handlerPsl s.psl (onInterruptStack s off) level ∧
    t.sp = entrySp s off - BitVec.ofNat 32 (4 * (params.length + 2)) ∧
    storedLong t.mem (t.sp + BitVec.ofNat 32 (4 * params.length)) = pc ∧
    storedLong t.mem (t.sp + BitVec.ofNat 32 (4 * params.length) + 4) = pslToLong s.cfg s.psl ∧
    (∀ k (h : k < params.length),
      storedLong t.mem (t.sp + BitVec.ofNat 32 (4 * (params.length - 1 - k))) = params[k]) ∧
    ∀ q, q ≠ regSP → q ≠ regPC → getReg t q = getReg s q

/-- What entry to a handler leaves alone: the configuration, the general registers but SP and PC, the processor
registers, the vector state, the marks but the AST request, the cells of the stacks not left, and memory outside the
frame; the outgoing stack's cell receives SP (R212, R221). -/
def entryKeeps (s t : State) (off : Word) (level : Option (BitVec 5)) (frame : List Word) : Prop :=
  t.cfg = s.cfg ∧ (∀ q, q ≠ regSP → q ≠ regPC → getReg t q = getReg s q) ∧ sameProcessorRegisters s t ∧
    sameVectorState s t ∧ t.inSwitchWindow = s.inSwitchWindow ∧ t.afterLdpctx = s.afterLdpctx ∧
    t.loadedPcb = s.loadedPcb ∧ t.tbEvents = s.tbEvents ∧
    (∀ p, sameStack s.psl p = false → stackCell t p = stackCell s p) ∧ stackCell t s.psl = s.sp ∧
    sameMemoryOutside s t (pushTargets (entryStart s off level) frame)

/-- An instruction's exception was taken, in the state before it. -/
def tookException (s t : State) : Prop := ∃ e, raise s e = .next t

/-- The physical addresses SVPCTX stores to: those of the fields it saves (R142, R143). -/
def svpctxTargets (s : State) : List Word :=
  (pcbSavedOffsets s.cfg).flatMap (fun off => longAddrs (s.pcbb + off))

/-- The physical addresses LDPCTX stores to: those of its two pushes (R136). -/
def ldpctxTargets (s : State) : List Word :=
  let s1 := toKernelStack (ldpctxLoad s)
  match push s1 (pcbRead s1 s.cfg.pcb.psl) with
  | .ok s2 => pushTargets s1 [pcbRead s1 s.cfg.pcb.psl, pcbRead s2 s.cfg.pcb.pc]
  | .error _ => []

/-- Longwords at these offsets share no byte, modulo 2^32. -/
def offsetsApart (l : List Word) : Prop := l.Pairwise (fun a b => 4 ≤ (a - b).toNat ∧ 4 ≤ (b - a).toNat)

/-- The fields of the PCB that SVPCTX stores lie apart from those that only LDPCTX uses (R35, R143). -/
def pcbFieldsApart (cfg : Params) : Prop :=
  ∀ a ∈ pcbUnsavedOffsets cfg, ∀ b ∈ pcbSavedOffsets cfg, 4 ≤ (a - b).toNat ∧ 4 ≤ (b - a).toNat

/-- What an MTPR that stores `w` in register `r` records of the translation buffer (R73, R74, R149). -/
def mtprEvents (s : State) (r : Ipr) (w : Word) : List TbEvent :=
  match r with
  | .tbia => [.invalidateAll]
  | .tbis => [.invalidateSingle w]
  | .vtbia => [.vectorInvalidateAll]
  | .p0br | .p0lr | .p1br | .p1lr => [.flushProcess (currentProcess s)]
  | _ => []

/-! ## Operands -/

/-- The register that a specifier's addressing mode updates (R94). -/
def baseUpdates : Base → List Reg
  | .autoDec r => [r]
  | .autoInc r => [r]
  | .autoIncDeferred r => [r]
  | _ => []

def specUpdates : Specifier → List Reg
  | .plain b => baseUpdates b
  | .indexed _ b => baseUpdates b

/-- A specifier without index names the memory address `a` and leaves the state `t`: as an operand of read access it is
the longword there, as a destination it resolves to that address if the longword can be written (R93, R94). -/
def namesAddress (s : State) (b : Base) (pc : Word) (k : Nat) (a : Word) (t : State) : Prop :=
  (∀ v, memRead t a = .ok v → readOperand s (.plain b) pc k = .ok (v, t)) ∧
    ∀ pas, translateLong t a .write = .ok pas → resolveDestination s (.plain b) pc k = .ok (.mem a, t)

/-! ## Processor registers -/

/-- MTPR of a value to a register completes (R149 to R151, R186, R198, R199). -/
def mtprAccepts (s : State) (r : Ipr) (w : Word) : Bool :=
  match r with
  | .ksp | .esp | .ssp | .usp | .isp => !s.inSwitchWindow
  | .p0br | .p1br => mapBaseValid w
  | .p0lr => lengthValid s.cfg.pcb s.cfg.pcb.p0lr w
  | .p1lr => lengthValid s.cfg.pcb s.cfg.pcb.p1lr w
  | .astlvl => decide (w.toNat ≤ 4)
  | .vaer | .vmac => false
  | .vpsr =>
    (w &&& 0x7CFFFF10#32 == 0) && decide (w.extractLsb' 0 4 ∈ vpsrSettings) && !(w.getLsbD 1 && s.vpsr.bsy)
      && !((w.getLsbD 2 || w.getLsbD 3) && s.cfg.vecMMAsync)
  | _ => true

/-- The register's number belongs to a stack pointer (R150). -/
def Ipr.isStackPointer : Ipr → Bool
  | .ksp | .esp | .ssp | .usp | .isp => true
  | _ => false

/-- The register is that of the stack in use (R21, R150). -/
def activeStackIpr (s : State) : Ipr → Bool
  | .ksp => stackActive s (some 0)
  | .esp => stackActive s (some 1)
  | .ssp => stackActive s (some 2)
  | .usp => stackActive s (some 3)
  | .isp => stackActive s none
  | _ => false

/-- The registers whose reading gives back what MTPR stored in them (R149, R155). -/
def Ipr.holdsValue : Ipr → Bool
  | .tbia | .tbis | .vtbia | .vpsr | .vaer | .vmac => false
  | _ => true

/-- What a read of a register may give, by the register: its cell, extended with zeros; PSLs in the configured layout;
VPSR as tabled. Of the stack pointer in use it is any value (log 26), and a register that cannot be read has none (R155,
R187). -/
def holdsContents (s : State) (r : Ipr) (v : Word) : Prop :=
  match r with
  | .ksp => stackActive s (some 0) = false → v = s.spSlot[0]
  | .esp => stackActive s (some 1) = false → v = s.spSlot[1]
  | .ssp => stackActive s (some 2) = false → v = s.spSlot[2]
  | .usp => stackActive s (some 3) = false → v = s.spSlot[3]
  | .isp => stackActive s none = false → v = s.isp
  | .p0br => v = s.map.p0br
  | .p0lr => v = s.map.p0lr
  | .p1br => v = s.map.p1br
  | .p1lr => v = s.map.p1lr
  | .pcbb => v = s.pcbb
  | .scbb => v = s.scbb
  | .astlvl => v.toNat = s.astlvl.toNat
  | .pme => v.toNat = s.pme.toNat
  | .asn => v = s.asn
  | .cpuid => v = s.cpuid
  | .vmpsl => pslOfLong s.cfg v = s.vmpsl
  | .vpsr => v = vpsrRead s
  | .vaer => v = s.vaer
  | .vsar => v = s.vsar
  | .vmac | .tbia | .tbis | .vtbia => False

/-- What a register keeps of a value written to it (R32, R149). -/
def keptPart (cfg : Params) (r : Ipr) (w : Word) : Word :=
  match r with
  | .pme => w &&& 1
  | .asn => cutTo cfg.asnWidth w
  | .cpuid => cutTo cfg.cpuidWidth w
  | _ => w

/-- Two states agree on every processor register but those a write of `r` may change, with the vector processor's
copy of a memory management register counted with it. -/
def sameIprsBut (r : Ipr) (s t : State) : Prop :=
  (r ≠ .isp → t.isp = s.isp) ∧ (r ≠ .ksp → t.spSlot[0] = s.spSlot[0]) ∧ (r ≠ .esp → t.spSlot[1] = s.spSlot[1]) ∧
    (r ≠ .ssp → t.spSlot[2] = s.spSlot[2]) ∧ (r ≠ .usp → t.spSlot[3] = s.spSlot[3]) ∧
    (r ≠ .p0br → t.map.p0br = s.map.p0br ∧ t.vecMap.p0br = s.vecMap.p0br) ∧
    (r ≠ .p0lr → t.map.p0lr = s.map.p0lr ∧ t.vecMap.p0lr = s.vecMap.p0lr) ∧
    (r ≠ .p1br → t.map.p1br = s.map.p1br ∧ t.vecMap.p1br = s.vecMap.p1br) ∧
    (r ≠ .p1lr → t.map.p1lr = s.map.p1lr ∧ t.vecMap.p1lr = s.vecMap.p1lr) ∧
    (r ≠ .pcbb → t.pcbb = s.pcbb) ∧ (r ≠ .scbb → t.scbb = s.scbb) ∧ (r ≠ .astlvl → t.astlvl = s.astlvl) ∧
    (r ≠ .pme → t.pme = s.pme) ∧ (r ≠ .asn → t.asn = s.asn) ∧ (r ≠ .cpuid → t.cpuid = s.cpuid) ∧
    (r ≠ .vmpsl → t.vmpsl = s.vmpsl) ∧ (r ≠ .vpsr → t.vpsr = s.vpsr ∧ t.vaer = s.vaer) ∧
    (r ≠ .vsar → t.vsar = s.vsar) ∧ t.v = s.v ∧ t.vlr = s.vlr ∧ t.vmr = s.vmr ∧ t.vcr = s.vcr

end Sys2Proof.Machine
end

