-- ==== Sys2Proof/Certificates/Slice0/Obligations.lean ====
section
/-!
DEFINITION. The statements for the provers. Each docstring names the rules of spec/ it rests on, and the log entry
where a clause is the model's choice.
-/

open Sys2Proof Sys2Proof.Machine

/-! ## Encoding -/

/-- R90 to R97: no bit of an encoding is dropped: every instruction is read back from its bytes, whatever follows. That
the forms which R95 leaves out are decoded too is the model's choice (log 11). -/
def Obligations.DecodeAfterEncode : Prop :=
  ∀ (i : Instr) (rest : List Byte), i.encodable = true → decode (encode i ++ rest) = .ok (i, rest)

/-- R90 to R97: what the decoder reads it can be read back from; the decoded instruction is encodable. The message of
BUGW and BUGL may be cut short (log 36), so that for these two only the first part is said. That the forms which R95
leaves out are decoded too is the model's choice (log 11). -/
def Obligations.EncodeAfterDecode : Prop :=
  ∀ (bs : List Byte) (i : Instr) (rest : List Byte), decode bs = .ok (i, rest) →
    i.encodable = true ∧ ((∀ m, i ≠ .bugw m) → (∀ m, i ≠ .bugl m) → encode i ++ rest = bs)

/-- Words written out from the spec: opcodes of R91 and R92, specifiers of R94 (T1, T40, T41a, T45, T46). -/
def Obligations.DecodesWordsOfTheSpec : Prop :=
  decode [0x02] = .ok (.rei, []) ∧ decode [0x06] = .ok (.ldpctx, []) ∧ decode [0x07] = .ok (.svpctx, []) ∧
    decode [0xDA, 0x50, 0x10] = .ok (.mtpr (.plain (.reg 0)) (.plain (.literal 16)), []) ∧
    decode [0xDA, 0x8F, 0x00, 0x00, 0x01, 0x00, 0x10] =
      .ok (.mtpr (.plain (.immediate 0x00010000)) (.plain (.literal 16)), []) ∧
    decode [0xDA, 0xA2, 0x04, 0x10] = .ok (.mtpr (.plain (.byteDisp 2 4)) (.plain (.literal 16)), []) ∧
    decode [0xDB, 0x10, 0x9F, 0x00, 0x30, 0x00, 0x00] =
      .ok (.mfpr (.plain (.literal 16)) (.plain (.absolute 0x3000)), []) ∧
    decode [0xFF, 0xFE, 0x04, 0x00] = .ok (.bugw 4, []) ∧
    decode [0xFF, 0xFD, 0x05, 0x00, 0x00, 0x00] = .ok (.bugl 5, [])

/-! ## Fetching and stepping -/

/-- A step runs the decoded instruction: when the vector processor is idle and no AST is delivered, and the bytes that
can be fetched at PC decode, the step is `exec` of what they decode to, if its operand forms are admitted: every form is
by the model's setting, and R95's subset always (log 11). After an LDPCTX it is `exec` of the REI at the address after
it alone (R138, R255). Nothing is added around `exec`: the meaning itself moves PC. That a requested AST may be waiting,
that a busy vector processor stops the step, and that the message bytes a bugcheck lacks are zero are logs 9, 34 and 36.
-/
def Obligations.StepRunsDecodedInstruction : Prop :=
  ∀ (s : State) (i : Instr) (rest : List Byte), s.undisturbed →
    decode (fetchBytes s maxLength s.pc).1 = .ok (i, rest) → s.maySucceed i → s.admits i →
    step s = exec i s

/-- R99 (c), R92: a first byte outside the seven opcodes, and a second byte after FF other than FD and FE, are refused.
A requested AST may be waiting (log 9). -/
def Obligations.OutOfScopeOpcodesAreRefused : Prop :=
  ∀ (s : State) (b : Byte), s.undisturbed → s.afterLdpctx = none → fetchByte s s.pc = .ok b →
    (b ∉ [0x02, 0x06, 0x07, 0xDA, 0xDB, 0xFF] → step s = .refused .opcodeOutOfScope) ∧
      (b = 0xFF → ∀ c, fetchByte s (s.pc + 1) = .ok c → c ∉ [0xFD, 0xFE] → step s = .refused .opcodeOutOfScope)

/-- R171: once the two opcode bytes of a bugcheck are fetched, the fault is raised, whatever becomes of the message
bytes. A requested AST may be waiting (log 9). -/
def Obligations.BugcheckMessageIsNotFetched : Prop :=
  ∀ (s : State) (c : Byte), s.undisturbed → s.afterLdpctx = none → fetchByte s s.pc = .ok 0xFF →
    fetchByte s (s.pc + 1) = .ok c → c = 0xFE ∨ c = 0xFD →
    step s = raise s (.reservedInstruction .reservedOpcode)

/-- R226 (4) before (5) (log 48): outside kernel mode MTPR and MFPR raise the privileged-instruction fault whatever
their operand specifiers hold, fetched or not (no virtual machine being in kernel mode). Where R95's subset alone is
admitted, the decoder may refuse them instead, as T49f has it in any mode (log 11). A requested AST may be waiting (log
9). -/
def Obligations.PrivilegePrecedesOperandFetch : Prop :=
  ∀ (s : State) (b : Byte), s.undisturbed → s.afterLdpctx = none → fetchByte s s.pc = .ok b →
    b = 0xDA ∨ b = 0xDB → s.mode ≠ 0 → (s.inVM && pslCurMod s.vmpsl == 0) = false →
    step s = raise s (.reservedInstruction .privileged) ∨
      (s.cfg.allOperandForms = false ∧ step s = .refused .operandNotAdmitted)

/-- R138, R255: an LDPCTX that completes leaves the mark of an REI owed at the address after it. While the mark stands
an instruction at any other address is refused, and so is one at that address whose first byte is not REI's; a step
keeps the mark or executes the REI there. That entry to a handler keeps it, and an REI that faults does not, is the
model's choice (log 28). A requested AST may be waiting (log 9). That an LDPCTX with IS clear completes is log 25. -/
def Obligations.LdpctxMustBeFollowedByRei : Prop :=
  (∀ (s t : State), exec .ldpctx s = .next t →
      tookException s t ∨ (t.afterLdpctx = some (s.pc + 1) ∧ t.pc = s.pc + 1)) ∧
    (∀ (s : State) (a : Word), s.undisturbed → s.afterLdpctx = some a → s.pc ≠ a →
      step s = .refused .notReiAfterLdpctx) ∧
    (∀ (s : State) (b : Byte), s.undisturbed → s.afterLdpctx = some s.pc → fetchByte s s.pc = .ok b → b ≠ 0x02 →
      step s = .refused .notReiAfterLdpctx) ∧
    ∀ (s t : State) (a : Word), s.afterLdpctx = some a → step s = .next t →
      t.afterLdpctx = some a ∨ (s.pc = a ∧ fetchByte s a = .ok 0x02 ∧ exec .rei s = .next t)

/-- R72 (log 23): every store marks the bytes it writes, SVPCTX's in the PCB among them; a step keeps every mark, and
marks every byte it changes, unless an REI completes, which removes every mark; the fetch of a marked byte is refused,
and so is the instruction whose next byte is marked, whichever of its bytes that is: opcode, second opcode byte or
operand specifier. That an instruction meets its missing bytes in the order of R226 is log 48, that a requested AST may
be waiting log 9. An operand's byte is wanted once the operand before it is admitted (log 11). -/
def Obligations.ModifiedInstructionStreamNeedsRei : Prop :=
  (∀ (s : State) (pas : List Word) (bs : List Byte), ∀ pa ∈ pas, pa.toNat ∈ (setPhysBytes s pas bs).written) ∧
    (∀ (s t : State) (va v : Word), memWrite s va v = .ok t →
      ∃ pas, translateLong s va .write = .ok pas ∧ ∀ pa ∈ pas, pa.toNat ∈ t.written) ∧
    (∀ (s t : State), exec .svpctx s = .next t →
      tookException s t ∨ ∀ pa ∈ svpctxTargets s, pa.toNat ∈ t.written) ∧
    (∀ (s t : State), step s = .next t →
      ((∀ a ∈ s.written, a ∈ t.written) ∧
        ∀ a : Word, Memory.read t.mem a.toNat ≠ Memory.read s.mem a.toNat → a.toNat ∈ t.written) ∨
      (fetchByte s s.pc = .ok 0x02 ∧ exec .rei s = .next t ∧ t.written = [])) ∧
    (∀ (s t : State), exec .rei s = .next t → tookException (reiBegun s) t ∨ t.written = []) ∧
    (∀ (s : State) (va pa : Word), translate s va s.mode .read = .ok pa → physExists s.cfg pa = true →
      pa.toNat ∈ s.written → fetchByte s va = .error (.refuse .staleInstructionStream)) ∧
    ∀ (s : State) (i : Instr) (k : Nat), s.undisturbed → s.maySucceed i → i.encodable = true →
      k < fetchedLength i →
      (∀ j, j < k → ∃ b, (encode i)[j]? = some b ∧ fetchByte s (s.pc + BitVec.ofNat 32 j) = .ok b) →
      wantsByte s i k → fetchByte s (s.pc + BitVec.ofNat 32 k) = .error (.refuse .staleInstructionStream) →
      step s = .refused .staleInstructionStream

/-- R201, X4 (log 34): a busy vector processor is refused, and no step makes it busy or idle. -/
def Obligations.VectorProcessorStaysAsItIs : Prop :=
  (∀ (s : State), s.cfg.hasVector = true → s.vpsr.bsy = true → step s = .refused .vectorProcessorBusy) ∧
    ∀ (s t : State), step s = .next t → t.vpsr.bsy = s.vpsr.bsy

/-- The interface of the host (log 21): the step after `withFetchWord` runs the table word's instruction. -/
def Obligations.FetchWordRunsTableInstruction : Prop :=
  ∀ (s : State) (nbits w : Nat) (i : Instr), nbits / 8 ≤ maxLength → Memory.wf s.mem = true →
    decodeTableWord nbits w = some i → step (s.withFetchWord nbits w) = exec i (s.withFetchWord nbits w)

/-! ## Exceptions and interrupts -/

/-- R220 and R217: when handlers are not entered an exception ends the run with its name and the instruction's address;
the VM-emulation trap always does. Model's choice of two settings: log 3. -/
def Obligations.TerminalExceptions : Prop :=
  (∀ (s : State) (e : Exc), s.cfg.handlerEntry = false → raise s e = .fault (.exception e s.pc)) ∧
    ∀ (s : State), raise s .vmEmulationTrap = .fault (.exception .vmEmulationTrap s.pc)

/-- R221, R212, R211: an exception with a vector enters its handler: PC from the vector, the old PSL, the saved PC and
the parameters on the handler's stack, for a memory-management fault the virtual address and then the reason mask; the
longword of the old PSL reads back as it, so that an REI restores it. That handlers are entered is the model's setting
(log 3). The model's choices too are what an abort saves (log 7), what a memory-management fault pushes (log 6) and that
the other exceptions push no parameter (log 58), that the reserved addressing mode fault is raised and where its vector
lies (log 8), IPL 31 on the interrupt stack (log 49), the address of the vector, SCBB plus the offset with all bits
counting (log 55), and that the PSL is pushed in the configured layout (log 43). -/
def Obligations.ExceptionEntersItsHandler : Prop :=
  ∀ (s : State) (e : Exc) (off : Word), s.cfg.handlerEntry = true → scbOffset s.cfg e = some off → s.plainMemory →
    Memory.wf s.mem = true → vectorUsable s off →
    ∃ t, raise s e = .next t ∧ handlerEntered s t off none (savedPc s e) (excParams s e) ∧
      (∀ va, e = .accessViolation va ∨ e = .translationNotValid va →
        storedLong t.mem (t.sp + 4) = va ∧ storedLong t.mem t.sp = Config.freeReasonMask s.draws ∧
          pslOfLong s.cfg (storedLong t.mem (t.sp + 12)) = s.psl) ∧
      ((∀ va, e ≠ .accessViolation va ∧ e ≠ .translationNotValid va) →
        pslOfLong s.cfg (storedLong t.mem (t.sp + 4)) = s.psl)

/-- R221 (5): a handler runs in kernel mode, on the chosen stack, with the previous mode recorded, IPL as for an
exception or an interrupt, and all other bits zero. That handlers are entered is the model's setting (log 3), and IPL 31
on the interrupt stack its choice (log 49). -/
def Obligations.HandlerPslFields : Prop :=
  ∀ (old : Word) (onIs : Bool) (level : Option (BitVec 5)),
    pslCurMod (handlerPsl old onIs level) = 0 ∧ pslIs (handlerPsl old onIs level) = onIs ∧
      pslPrvMod (handlerPsl old onIs level) = (if level = none then pslCurMod old else 0) ∧
      pslIpl (handlerPsl old onIs level) = level.getD (if onIs then 31 else pslIpl old) ∧
      handlerPsl old onIs level &&& 0xF820FFFF#32 = 0

/-- R212, R221: taking an exception leaves alone every general register but SP and PC, every processor register, the
vector state and the marks; of the stack pointers' cells it writes the outgoing one; of memory, the pushed longwords.
The model's choices are that handlers are entered (log 3), that the switch window and the mark of an LDPCTX stand (logs
27, 28), and, for the addresses stored to, the parameters and the PC that are pushed (logs 6, 7, 58), the layout of the
pushed PSL (log 43), the place of the vector that chooses the stack (logs 8, 55), and that the pushes are translated in
the handler's mode (log 57). -/
def Obligations.ExceptionEntryFrame : Prop :=
  ∀ (s t : State) (e : Exc) (off : Word), scbOffset s.cfg e = some off → raise s e = .next t →
    entryKeeps s t off none (entryFrame s (savedPc s e) (excParams s e)) ∧ t.astRequest = s.astRequest

/-- R224, R222: a requested AST ends the run when handlers are not entered; when they are, it is taken as an interrupt
at IPL 2 if IPL is below 2, and otherwise waits while the instruction runs. Taking it withdraws the request and leaves
alone what taking an exception does, the switch window and the mark of an LDPCTX among it (R151, R255). That it is
taken, where, and with no parameter is the model's choice (logs 3, 9, 58), and so are the address of its vector, SCBB
plus the offset with all bits counting (log 55), that the pushes are translated in the handler's mode, kernel (log 57),
the layout of the pushed PSL (log 43), and that the window and the mark stand (logs 27, 28). -/
def Obligations.AstDelivery : Prop :=
  ∀ (s : State), (s.cfg.hasVector && s.vpsr.bsy) = false → s.astRequest = true →
    (s.cfg.handlerEntry = false → step s = .fault (.interruptAst s.pc)) ∧
      (s.cfg.handlerEntry = true → 2 ≤ (pslIpl s.psl).toNat → step s = fetchAndRun s) ∧
      (s.cfg.handlerEntry = true → (pslIpl s.psl).toNat < 2 → s.plainMemory → Memory.wf s.mem = true →
        vectorUsable s s.cfg.scbAst →
        ∃ t, step s = .next t ∧ t.astRequest = false ∧ handlerEntered s t s.cfg.scbAst (some 2) s.pc []) ∧
      (s.cfg.handlerEntry = true → (pslIpl s.psl).toNat < 2 → ∀ t, step s = .next t →
        t.astRequest = false ∧ entryKeeps s t s.cfg.scbAst (some 2) (entryFrame s s.pc []))

/-- R132, R141, R147, R153: the four privileged instructions outside kernel mode, and in a virtual machine's kernel
mode. -/
def Obligations.PrivilegedInstructionsNeedKernelMode : Prop :=
  ∀ (s : State) (i : Instr), i = .ldpctx ∨ i = .svpctx ∨ (∃ a b, i = .mtpr a b) ∨ (∃ a b, i = .mfpr a b) →
    ((s.inVM && pslCurMod s.vmpsl == 0) = true → exec i s = .fault (.exception .vmEmulationTrap s.pc)) ∧
      ((s.inVM && pslCurMod s.vmpsl == 0) = false → s.mode ≠ 0 →
        exec i s = raise s (.reservedInstruction .privileged))

/-! ## BUGW, BUGL -/

/-- R170, R172, R173, R221: a bugcheck enters the reserved instruction handler, in every mode, with the address of its
first byte saved. The model's choices are that the handler is entered (log 3), that no parameter is pushed (log 58), IPL
31 on the interrupt stack (log 49), the address of the vector, SCBB plus the offset with all bits counting (log 55), and
the layout of the pushed PSL (log 43). -/
def Obligations.BugcheckEntersItsHandler : Prop :=
  ∀ (s : State), s.cfg.handlerEntry = true → s.plainMemory → Memory.wf s.mem = true → vectorUsable s 0x10 →
    (∀ m, ∃ t, exec (.bugw m) s = .next t ∧ handlerEntered s t 0x10 none s.pc []) ∧
      ∀ m, ∃ t, exec (.bugl m) s = .next t ∧ handlerEntered s t 0x10 none s.pc []

/-- R170 to R173: a bugcheck raises the reserved instruction fault in every state, whatever its message. -/
def Obligations.BugcheckRaisesReservedInstructionFault : Prop :=
  ∀ (s : State), (∀ m, exec (.bugw m) s = raise s (.reservedInstruction .reservedOpcode)) ∧
    ∀ m, exec (.bugl m) s = raise s (.reservedInstruction .reservedOpcode)

/-! ## REI -/

/-- R120, R121, R126 to R128: an allowed REI resumes at the popped PC with the popped PSL (and its N, Z, V, C), SP past
the two longwords in the outgoing stack's cell, the new stack selected, and the AST check made. Log 24 for a pending
trace, log 43 for the layout of the popped longword, log 44 for the predicate. -/
def Obligations.ReiResumesInterruptedCode : Prop :=
  ∀ (s : State) (newPc long newPsl : Word), memRead s s.sp = .ok newPc → memRead s (s.sp + 4) = .ok long →
    pslOfLong s.cfg long = newPsl →
    s.inVM = false → reiAllowed s.cfg s.psl newPsl = true → ¬(s.mode ≠ 0 ∧ pslVm s.cfg newPsl = true) →
    ∃ t, exec .rei s = .next t ∧ t.pc = newPc ∧ t.psl = reiPsl s.psl newPsl ∧ pslCc t.psl = pslCc long ∧
      t.sp = (if sameStack s.psl newPsl then s.sp + 8 else stackCell s newPsl) ∧
      stackCell t s.psl = s.sp + 8 ∧ (∀ p, sameStack s.psl p = false → stackCell t p = stackCell s p) ∧
      t.astRequest =
        (s.astRequest || (!pslIs newPsl && decide (s.astlvl.toNat ≤ (pslCurMod newPsl).toNat))) ∧
      t.written = [] ∧ t.afterLdpctx = none

/-- R123, R125, R226 (7): on a real machine an REI that is not allowed, by the configured predicate or the default
conditions (log 44), raises a reserved operand fault. It is raised with everything as before the instruction but the
mark that an REI is owed, which an REI that faults removes by the model's choice (log 28). Log 43 for the layout of the
popped longword. That it is raised with PSL<TP> set too is the model's choice, where R120, R128, D31 and T117 have the
model refuse the REI before this check (log 24). -/
def Obligations.ReiRejectsForbiddenPsl : Prop :=
  ∀ (s : State) (newPc long newPsl : Word), memRead s s.sp = .ok newPc → memRead s (s.sp + 4) = .ok long →
    pslOfLong s.cfg long = newPsl → s.inVM = false →
    reiAllowed s.cfg s.psl newPsl = false ∨ (s.mode ≠ 0 ∧ pslVm s.cfg newPsl = true) →
    exec .rei s = raise (reiBegun s) .reservedOperandFault

/-- R124: in VM mode REI never completes: the popped PSL is compared with VMPSL (log 44), and what is allowed takes the
VM-emulation trap, which ends the run (log 10); what is not raises a reserved operand fault. It is raised with
everything as before the instruction but the mark that an REI is owed, which an REI that faults removes by the model's
choice (log 28). Log 43 for the layout of the popped longword. -/
def Obligations.ReiInVmModeNeverCompletes : Prop :=
  ∀ (s : State) (newPc long newPsl : Word), memRead s s.sp = .ok newPc → memRead s (s.sp + 4) = .ok long →
    pslOfLong s.cfg long = newPsl → s.inVM = true →
    exec .rei s =
      if vmReiAllowed s.cfg s.vmpsl newPsl then .fault (.exception .vmEmulationTrap s.pc)
      else raise (reiBegun s) .reservedOperandFault

/-- R122, R68, R142 (T34): a memory-management fault on either pop of an REI or an SVPCTX is raised with SP, PC, PSL,
memory and everything else as before the instruction (but, for REI, the mark that an REI is owed, log 28). That SVPCTX
makes its pops before it checks that its PCB is memory is the model's choice (log 47). -/
def Obligations.PopFaultRestoresState : Prop :=
  ∀ (s : State) (e : Exc),
    memRead s s.sp = .error (.exc e) ∨
      (∃ newPc, memRead s s.sp = .ok newPc ∧ memRead s (s.sp + 4) = .error (.exc e)) →
    exec .rei s = raise (reiBegun s) e ∧
      (s.privileged → s.pcbb.extractLsb' 0 2 = 0 → exec .svpctx s = raise s e)

/-- R123 conditions 1, 2, 7, the default of `ReiAllowed` (log 44), R230: an REI that completes gains no privilege, does
not raise IPL, and does not enter the interrupt stack. That an REI with PSL<TP> set completes is the model's choice (log
24). -/
def Obligations.ReiNeverGainsPrivilege : Prop :=
  ∀ (s t : State), s.cfg.reiTable = [] → exec .rei s = .next t →
    tookException (reiBegun s) t ∨
      (s.mode.toNat ≤ t.mode.toNat ∧ (pslIpl t.psl).toNat ≤ (pslIpl s.psl).toNat ∧
        (pslIs t.psl = true → pslIs s.psl = true))

/-- R120, R130: what an REI that completes leaves unchanged. That one with PSL<TP> set completes is the model's choice
(log 24). -/
def Obligations.ReiFrame : Prop :=
  ∀ (s t : State), exec .rei s = .next t →
    tookException (reiBegun s) t ∨
      (t.cfg = s.cfg ∧ (∀ q, q ≠ regSP → q ≠ regPC → getReg t q = getReg s q) ∧ sameProcessorRegisters s t ∧
        sameVectorState s t ∧ t.inSwitchWindow = s.inSwitchWindow ∧ t.loadedPcb = s.loadedPcb ∧
        t.tbEvents = s.tbEvents ∧ sameMemory s t)

/-! ## LDPCTX -/

/-- R131, R133, R134, R136, R139, R35: from the interrupt stack in kernel mode, with a valid PCB in memory and a kernel
stack that can be written, LDPCTX loads the process's context and leaves execution on its kernel stack. Logs 22 for the
recorded flush, 28 for the mark, 30 for the stack pointers of a PCB already loaded, 42 for the layout and the width of
ASN, 44 for the predicate, 47 for the order of the push and the read of PC. -/
def Obligations.LdpctxLoadsProcessContext : Prop :=
  ∀ (s s2 s3 : State), s.privileged → s.pcbb.extractLsb' 0 2 = 0 →
    requirePhys s.cfg (pcbAddrs s) = .ok () → pcbValid s = true → pslIs s.psl = true →
    push (toKernelStack (ldpctxLoad s)) (pcbRead s s.cfg.pcb.psl) = .ok s2 →
    push s2 (pcbRead s2 s.cfg.pcb.pc) = .ok s3 →
    ∃ t, exec .ldpctx s = .next t ∧
      (∀ r (h : r < 14), getReg t ⟨r, by omega⟩ = pcbRead s s.cfg.pcb.gpr[r]) ∧
      t.spSlot = s.cfg.pcb.sp.map (pcbRead s) ∧
      t.map.p0br = pcbRead s s.cfg.pcb.p0br ∧
      t.map.p0lr = ((pcbRead s s.cfg.pcb.p0lr).extractLsb' 0 22).setWidth 32 ∧
      t.map.p1br = pcbRead s s.cfg.pcb.p1br ∧
      t.map.p1lr = ((pcbRead s s.cfg.pcb.p1lr).extractLsb' 0 22).setWidth 32 ∧
      t.astlvl = (pcbRead s s.cfg.pcb.astlvl.offset).extractLsb' s.cfg.pcb.astlvl.low 3 ∧
      t.pme = (pcbRead s s.cfg.pcb.pme.offset).getLsbD s.cfg.pcb.pme.low ∧
      t.asn = (if s.cfg.hasASN then cutTo s.cfg.asnWidth (pcbRead s s.cfg.pcb.asn) else s.asn) ∧
      t.isp = s.sp ∧ t.psl = pslWithIs s.psl false ∧ t.sp = pcbRead s s.cfg.pcb.sp[0] - 8 ∧ t.pc = s.pc + 1 ∧
      t.tbEvents = ldpctxFlush s t.asn ++ s.tbEvents ∧
      t.inSwitchWindow = false ∧ t.afterLdpctx = some (s.pc + 1) ∧ t.loadedPcb = some s.pcbb

/-- R136: the process's PSL and, on top of it, its PC are left on the kernel stack for the following REI. The PC is read
from the PCB after the PSL has been pushed (R131; log 47). Logs 30 and 42 for what is read from the PCB, 44 for the
predicate. -/
def Obligations.LdpctxStacksPslAndPc : Prop :=
  ∀ (s : State), s.privileged → s.pcbb.extractLsb' 0 2 = 0 → pcbValid s = true → pslIs s.psl = true →
    s.plainMemory → Memory.wf s.mem = true →
    ∃ t, exec .ldpctx s = .next t ∧ storedLong t.mem (t.sp + 4) = pcbRead s s.cfg.pcb.psl ∧
      storedLong t.mem t.sp =
        pcbRead { s with
            mem := Memory.writeAll s.mem (longAddrs (pcbRead s s.cfg.pcb.sp[0] - 4))
              (bytesOfLong (pcbRead s s.cfg.pcb.psl)) } s.cfg.pcb.pc

/-- R136, R133, R134, R139 with IS clear on entry, which the spec leaves open: the process's PSL and, on top of it, its
PC are left either below the reloaded kernel stack pointer or below the SP in use, IS stays clear, and the rest of the
context is loaded as from the interrupt stack. Log 25 for the choice between the two; logs 22 for the recorded flush, 28
for the mark, 30 for the stack pointers of a PCB already loaded, 42 for the layout and the width of ASN, 44 for the
predicate, 47 for the order of the push and the read of PC. -/
def Obligations.LdpctxWithInterruptStackClear : Prop :=
  ∀ (s : State), s.privileged → s.pcbb.extractLsb' 0 2 = 0 → pcbValid s = true → pslIs s.psl = false →
    s.plainMemory → Memory.wf s.mem = true →
    ∃ t sp, exec .ldpctx s = .next t ∧ (sp = pcbRead s s.cfg.pcb.sp[0] ∨ sp = s.sp) ∧ t.sp = sp - 8 ∧
      storedLong t.mem (t.sp + 4) = pcbRead s s.cfg.pcb.psl ∧
      storedLong t.mem t.sp =
        pcbRead { s with
            mem := Memory.writeAll s.mem (longAddrs (sp - 4)) (bytesOfLong (pcbRead s s.cfg.pcb.psl)) } s.cfg.pcb.pc ∧
      t.psl = s.psl ∧ t.isp = s.isp ∧ t.spSlot = s.cfg.pcb.sp.map (pcbRead s) ∧ t.map = pcbMap s ∧
      (∀ r (h : r < 14), getReg t ⟨r, by omega⟩ = pcbRead s s.cfg.pcb.gpr[r]) ∧ t.pc = s.pc + 1 ∧
      t.astlvl = (pcbRead s s.cfg.pcb.astlvl.offset).extractLsb' s.cfg.pcb.astlvl.low 3 ∧
      t.pme = (pcbRead s s.cfg.pcb.pme.offset).getLsbD s.cfg.pcb.pme.low ∧
      t.asn = (if s.cfg.hasASN then cutTo s.cfg.asnWidth (pcbRead s s.cfg.pcb.asn) else s.asn) ∧
      t.tbEvents = ldpctxFlush s t.asn ++ s.tbEvents ∧
      t.inSwitchWindow = false ∧ t.afterLdpctx = some (s.pc + 1) ∧ t.loadedPcb = some s.pcbb

/-- R135: with an invalid PCB LDPCTX raises the reserved operand abort, the preferred implementation (log 7; log 44 for
the predicate). R136: with a valid one, a memory fault on either push ends the run: with the exception's outcome and the
LDPCTX's address where every exception does (R220), and else with a fault of its own that names both (log 31). Both also
with IS clear, where R131, R136, D24 and T22 have the model refuse the LDPCTX before either check: that it then aborts
or faults, and which stack it pushes on, is the model's choice (log 25). -/
def Obligations.LdpctxInvalidPcbAborts : Prop :=
  ∀ (s : State), s.privileged → s.pcbb.extractLsb' 0 2 = 0 → requirePhys s.cfg (pcbAddrs s) = .ok () →
    (pcbValid s = false → exec .ldpctx s = raise s .reservedOperandAbort) ∧
      ∀ e : Exc, pcbValid s = true →
        push (toKernelStack (ldpctxLoad s)) (pcbRead s s.cfg.pcb.psl) = .error (.exc e) ∨
          (∃ s2, push (toKernelStack (ldpctxLoad s)) (pcbRead s s.cfg.pcb.psl) = .ok s2 ∧
            push s2 (pcbRead s2 s.cfg.pcb.pc) = .error (.exc e)) →
        exec .ldpctx s = .fault (if s.cfg.handlerEntry then .ldpctxPush e s.pc else .exception e s.pc)

/-- R137, R75, R131: what an LDPCTX that completes leaves unchanged: the vector processor's state and its copies of the
memory management registers among it; of memory, all but the two longwords pushed. Log 41 for the copies, logs 25 and 47
for what is pushed and where. -/
def Obligations.LdpctxFrame : Prop :=
  ∀ (s t : State), exec .ldpctx s = .next t →
    tookException s t ∨
      (t.cfg = s.cfg ∧ sameVectorState s t ∧ t.vecMap = s.vecMap ∧ t.pcbb = s.pcbb ∧ t.scbb = s.scbb ∧
        t.cpuid = s.cpuid ∧ t.vmpsl = s.vmpsl ∧ t.astRequest = s.astRequest ∧
        t.psl &&& 0xFBFFFFFF#32 = s.psl &&& 0xFBFFFFFF#32 ∧
        sameMemoryOutside s t (ldpctxTargets s))

/-! ## SVPCTX -/

/-- R140, R142, R35: SVPCTX saves the general registers, the popped PC and PSL, the four stack pointers and, with ASN,
CPUID in the PCB, where the layout keeps the fields it saves apart, as the default does (log 42). That the pops come
before the stores is log 47. -/
def Obligations.SvpctxSavesProcessContext : Prop :=
  ∀ (s : State) (a b : Word), s.privileged → s.pcbb.extractLsb' 0 2 = 0 → memRead s s.sp = .ok a →
    memRead s (s.sp + 4) = .ok b → requirePhys s.cfg (pcbAddrs s) = .ok () → Memory.wf s.mem = true →
    offsetsApart (pcbSavedOffsets s.cfg) →
    ∃ t, exec .svpctx s = .next t ∧ t.pc = s.pc + 1 ∧
      (∀ r (h : r < 14), getReg t ⟨r, by omega⟩ = getReg s ⟨r, by omega⟩ ∧
        storedLong t.mem (s.pcbb + s.cfg.pcb.gpr[r]) = getReg s ⟨r, by omega⟩) ∧
      storedLong t.mem (s.pcbb + s.cfg.pcb.pc) = a ∧ storedLong t.mem (s.pcbb + s.cfg.pcb.psl) = b ∧
      (∀ m : Fin 4, storedLong t.mem (s.pcbb + s.cfg.pcb.sp[m.val]) = t.spSlot[m.val]) ∧
      (s.cfg.hasASN = true → storedLong t.mem (s.pcbb + s.cfg.pcb.prvcpu) = s.cpuid) ∧
      t.inSwitchWindow = true ∧ t.loadedPcb = none

/-- R144: with IS clear SVPCTX saves SP in the kernel stack's cell, sets IS, activates ISP and raises IPL to at least 1;
with IS set it switches nothing. -/
def Obligations.SvpctxSwitchesToInterruptStack : Prop :=
  ∀ (s : State) (a b : Word), s.privileged → s.pcbb.extractLsb' 0 2 = 0 → memRead s s.sp = .ok a →
    memRead s (s.sp + 4) = .ok b → requirePhys s.cfg (pcbAddrs s) = .ok () →
    ∃ t, exec .svpctx s = .next t ∧
      (pslIs s.psl = false →
        pslIs t.psl = true ∧ (pslIpl t.psl).toNat = max (pslIpl s.psl).toNat 1 ∧ t.sp = s.isp ∧
          t.spSlot[0] = s.sp + 8 ∧ t.spSlot[1] = s.spSlot[1] ∧ t.spSlot[2] = s.spSlot[2] ∧
          t.spSlot[3] = s.spSlot[3] ∧ t.psl &&& 0xFBE0FFFF#32 = s.psl &&& 0xFBE0FFFF#32) ∧
      (pslIs s.psl = true →
        t.psl = s.psl ∧ t.sp = s.sp + 8 ∧ t.isp = s.isp ∧ t.spSlot = s.spSlot)

/-- R143, R35: SVPCTX changes neither the PCB longwords of P0BR, P0LR, P1BR, P1LR, ASTLVL and PME, nor, with ASN, that
of the ASN, where the layout keeps them apart from the fields it stores, as the default does (log 42). -/
def Obligations.SvpctxLeavesMapAstlvlPmeInPcb : Prop :=
  ∀ (s t : State), exec .svpctx s = .next t → pcbFieldsApart s.cfg →
    tookException s t ∨
      ((∀ off ∈ [s.cfg.pcb.p0br, s.cfg.pcb.p0lr, s.cfg.pcb.p1br, s.cfg.pcb.p1lr, s.cfg.pcb.astlvl.offset,
            s.cfg.pcb.pme.offset],
          storedLong t.mem (s.pcbb + off) = storedLong s.mem (s.pcbb + off)) ∧
        (s.cfg.hasASN = true → storedLong t.mem (s.pcbb + s.cfg.pcb.asn) = storedLong s.mem (s.pcbb + s.cfg.pcb.asn)))

/-- R140, R142: what an SVPCTX that completes leaves unchanged. -/
def Obligations.SvpctxFrame : Prop :=
  ∀ (s t : State), exec .svpctx s = .next t →
    tookException s t ∨
      (t.cfg = s.cfg ∧ (∀ q, q ≠ regSP → q ≠ regPC → getReg t q = getReg s q) ∧ sameProcessorRegisters s t ∧
        sameVectorState s t ∧ t.astRequest = s.astRequest ∧ t.afterLdpctx = s.afterLdpctx ∧
        t.tbEvents = s.tbEvents ∧ t.isp = s.isp ∧
        t.psl &&& 0xFBE0FFFF#32 = s.psl &&& 0xFBE0FFFF#32 ∧ sameMemoryOutside s t (svpctxTargets s))

/-- R24 (T4): LDPCTX and SVPCTX, when they complete, leave N, Z, V and C unchanged. That an LDPCTX with IS clear
completes is the model's choice (log 25). -/
def Obligations.ContextSwitchKeepsConditionCodes : Prop :=
  ∀ (s t : State) (i : Instr), i = .ldpctx ∨ i = .svpctx → exec i s = .next t →
    tookException s t ∨ pslCc t.psl = pslCc s.psl

/-! ## Operands -/

/-- R93, R94 (logs 8, 11 to 14, 54): what an operand of read access is, form by form, and what a destination names: PC
in a displacement form is the address after the specifier, and in register mode a free value; autoincrement and
autodecrement move the register by four; an index adds four times the index register, read before or after the base
changes it; an index register PC, or a base that cannot be indexed, is a reserved addressing mode, and so is a literal
or an immediate as a destination; R95 and R218 have the model refuse these forms, and that it raises the fault is its
choice (log 8, PRESUMED). A destination that names memory resolves to that address if the longword there can be written.
-/
def Obligations.OperandFormsReadAsTabled : Prop :=
  ∀ (s : State) (pc : Word) (k : Nat),
    (∀ n, readOperand s (.plain (.literal n)) pc k = .ok (n.setWidth 32, s) ∧
      resolveDestination s (.plain (.literal n)) pc k = .error (.exc .reservedAddressingMode)) ∧
    (∀ v, readOperand s (.plain (.immediate v)) pc k = .ok (v, s) ∧
      resolveDestination s (.plain (.immediate v)) pc k = .error (.exc .reservedAddressingMode)) ∧
    readOperand s (.plain (.reg regPC)) pc k = .ok (Config.freePcOperand s.draws k, s) ∧
    (∀ r : Reg, r ≠ regPC → readOperand s (.plain (.reg r)) pc k = .ok (getReg s r, s) ∧
      resolveDestination s (.plain (.reg r)) pc k = .ok (.reg r, s)) ∧
    (∀ r : Reg, r ≠ regPC → namesAddress s (.regDeferred r) pc k (getReg s r) s) ∧
    (∀ r : Reg, r ≠ regPC → namesAddress s (.autoInc r) pc k (getReg s r) (setReg s r (getReg s r + 4))) ∧
    (∀ r : Reg, r ≠ regPC → namesAddress s (.autoDec r) pc k (getReg s r - 4) (setReg s r (getReg s r - 4))) ∧
    (∀ (r : Reg) a, r ≠ regPC → memRead s (getReg s r) = .ok a →
      namesAddress s (.autoIncDeferred r) pc k a (setReg s r (getReg s r + 4))) ∧
    (∀ a, namesAddress s (.absolute a) pc k a s) ∧
    (∀ (r : Reg) (b : Word), b = (if r = regPC then pc else getReg s r) →
      (∀ d, namesAddress s (.byteDisp r d) pc k (b + d.signExtend 32) s) ∧
      (∀ d, namesAddress s (.wordDisp r d) pc k (b + d.signExtend 32) s) ∧
      (∀ d, namesAddress s (.longDisp r d) pc k (b + d) s) ∧
      (∀ d a, memRead s (b + d.signExtend 32) = .ok a → namesAddress s (.byteDispDeferred r d) pc k a s) ∧
      (∀ d a, memRead s (b + d.signExtend 32) = .ok a → namesAddress s (.wordDispDeferred r d) pc k a s) ∧
      (∀ d a, memRead s (b + d) = .ok a → namesAddress s (.longDispDeferred r d) pc k a s)) ∧
    (∀ (x : Reg) (b : Base) a t, x ≠ regPC → b.indexable = true → evalBase s b pc = .ok (.mem a, t) →
      ∃ i, (i = getReg s x ∨ i = getReg t x) ∧
        (∀ v, memRead t (a + 4 * i) = .ok v → readOperand s (.indexed x b) pc k = .ok (v, t)) ∧
        ∀ pas, translateLong t (a + 4 * i) .write = .ok pas →
          resolveDestination s (.indexed x b) pc k = .ok (.mem (a + 4 * i), t)) ∧
    ∀ (x : Reg) (b : Base), x = regPC ∨ b.indexable = false →
      readOperand s (.indexed x b) pc k = .error (.exc .reservedAddressingMode) ∧
        resolveDestination s (.indexed x b) pc k = .error (.exc .reservedAddressingMode)

/-- R94, R95 (log 11): reading or resolving an operand changes no register but the one its mode updates, and nothing
else. R147, R153, R212: an exception that evaluating an operand of MTPR or MFPR meets is raised in the state before the
instruction, so that what an operand has already updated is as it was. -/
def Obligations.OperandEvaluationFrame : Prop :=
  ∀ (s t : State) (sp : Specifier) (pc : Word) (k : Nat),
    (∀ v, readOperand s sp pc k = .ok (v, t) →
      t = { s with x := t.x } ∧ ∀ q, q ∉ specUpdates sp → getReg t q = getReg s q) ∧
    (∀ d, resolveDestination s sp pc k = .ok (d, t) →
      t = { s with x := t.x } ∧ ∀ q, q ∉ specUpdates sp → getReg t q = getReg s q) ∧
    ∀ (first second : Specifier) (e : Exc), s.privileged →
      (readOperand s first (pcAfter1 s first) 0 = .error (.exc e) →
        exec (.mtpr first second) s = raise s e ∧ exec (.mfpr first second) s = raise s e) ∧
      ∀ v, readOperand s first (pcAfter1 s first) 0 = .ok (v, t) →
        (readOperand t second (pcAfter2 s first second) 1 = .error (.exc e) →
          exec (.mtpr first second) s = raise s e) ∧
        (resolveDestination t second (pcAfter2 s first second) 1 = .error (.exc e) →
          exec (.mfpr first second) s = raise s e)

/-! ## MTPR -/

/-- R145 to R149 (log 42 for ASN, CPUID and VMPSL): MTPR stores the source operand in the register named; N, Z, V and C
are the free value (log 37), the rest of the PSL and memory are unchanged; the register, if it is not of the stack in
use, then reads as the part of the value it keeps. That an MTPR of KSP, ESP, SSP, USP or ISP completes when that stack
is in use is the model's choice, where R150 and D29 say that the model refuses it (log 26); of that case the statement
does not say what the register's cell and the live SP become. The model's choices too are the argument of the
TbFlushProcess that a write of a memory management register records, the current ASN if the processor has one (log 22),
which values those registers and VPSR accept (logs 32, 33), that SCBB can be written and keeps all its bits (logs 4,
55), and the layout of VMPSL (log 43). The operands may have every form of R94 (log 11). -/
def Obligations.MtprStoresInProcessorRegister : Prop :=
  ∀ (s s1 s2 : State) (src procreg : Specifier) (v n : Word) (r : Ipr), s.privileged →
    readOperand s src (pcAfter1 s src) 0 = .ok (v, s1) →
    readOperand s1 procreg (pcAfter2 s src procreg) 1 = .ok (n, s2) →
    iprMap s.cfg n = some r → iprClass s.cfg n ≠ some .readOnly → mtprAccepts s r v = true →
    ∃ t, exec (.mtpr src procreg) s = .next t ∧
      t.pc = s.pc + BitVec.ofNat 32 (instrLength (.mtpr src procreg)) ∧
      pslCc t.psl = Config.freeFlags s.draws ∧ samePslButCc s t ∧ sameMemory s t ∧
      (r.holdsValue = true → activeStackIpr s r = false → iprRead t r = .ok (keptPart s.cfg r v)) ∧
      t.tbEvents = mtprEvents s r v ++ s.tbEvents

/-- R146, R75, R149 (log 41 for the copies): MTPR of a memory management register writes all 32 bits of the scalar
processor's copy and the vector processor's, if the value is one that the default of `PcbValid` accepts in the
register's longword of the PCB. In R35's layout P0LR's may hold an ASTLVL of at most 4 in bits <26:24>, and P1LR's a PME
in bit <31> (log 32). The operands may have every form of R94 (log 11). -/
def Obligations.MtprWritesAllCopiesOfMapRegisters : Prop :=
  (∀ v : Word,
    (lengthValid PcbLayout.standard PcbLayout.standard.p0lr v = true ↔
      v &&& 0xF8C00000#32 = 0 ∧ (v.extractLsb' 24 3).toNat ≤ 4) ∧
    (lengthValid PcbLayout.standard PcbLayout.standard.p1lr v = true ↔ v &&& 0x7FC00000#32 = 0)) ∧
  ∀ (s s1 s2 : State) (src procreg : Specifier) (v n : Word), s.privileged → s.cfg.hasVector = true →
    readOperand s src (pcAfter1 s src) 0 = .ok (v, s1) →
    readOperand s1 procreg (pcAfter2 s src procreg) 1 = .ok (n, s2) → iprClass s.cfg n ≠ some .readOnly →
    (iprMap s.cfg n = some .p0br → mapBaseValid v = true →
      ∃ t, exec (.mtpr src procreg) s = .next t ∧ t.map.p0br = v ∧ t.vecMap.p0br = v) ∧
    (iprMap s.cfg n = some .p0lr → lengthValid s.cfg.pcb s.cfg.pcb.p0lr v = true →
      ∃ t, exec (.mtpr src procreg) s = .next t ∧ t.map.p0lr = v ∧ t.vecMap.p0lr = v) ∧
    (iprMap s.cfg n = some .p1br → mapBaseValid v = true →
      ∃ t, exec (.mtpr src procreg) s = .next t ∧ t.map.p1br = v ∧ t.vecMap.p1br = v) ∧
    (iprMap s.cfg n = some .p1lr → lengthValid s.cfg.pcb s.cfg.pcb.p1lr v = true →
      ∃ t, exec (.mtpr src procreg) s = .next t ∧ t.map.p1lr = v ∧ t.vecMap.p1lr = v)

/-- R145, R147: what an MTPR that completes leaves unchanged: every general register its operands do not update (but for
the live SP if it names the register of the stack in use, which completes by the model's choice, log 26), every
processor register but the one named (a memory management register with its copy, log 41), the PSL but N, Z, V, C, and
memory. The operands may have every form of R94 (log 11). -/
def Obligations.MtprFrame : Prop :=
  ∀ (s t : State) (src procreg : Specifier), exec (.mtpr src procreg) s = .next t →
    tookException s t ∨
      ∃ v s1 n s2 r, readOperand s src (pcAfter1 s src) 0 = .ok (v, s1) ∧
        readOperand s1 procreg (pcAfter2 s src procreg) 1 = .ok (n, s2) ∧ iprMap s.cfg n = some r ∧
        t.cfg = s.cfg ∧ sameIprsBut r s t ∧ samePslButCc s t ∧ t.astRequest = s.astRequest ∧
        t.inSwitchWindow = s.inSwitchWindow ∧ t.afterLdpctx = s.afterLdpctx ∧ t.loadedPcb = s.loadedPcb ∧
        sameMemory s t ∧
        ∀ q, q ∉ specUpdates src → q ∉ specUpdates procreg → q ≠ regPC →
          (q ≠ regSP ∨ activeStackIpr s r = false) → getReg t q = getReg s q

/-- R147, R153, R29: a register that does not exist, MTPR to a read-only one, and MFPR from a write-only one raise a
reserved operand fault. The operands may have every form of R94 (log 11). -/
def Obligations.WrongProcessorRegisterFaults : Prop :=
  ∀ (s s1 s2 : State) (first second : Specifier) (v n : Word) (d : Loc), s.privileged →
    (readOperand s first (pcAfter1 s first) 0 = .ok (v, s1) →
      readOperand s1 second (pcAfter2 s first second) 1 = .ok (n, s2) →
      (iprMap s.cfg n = none ∨ iprClass s.cfg n = some .readOnly) →
      exec (.mtpr first second) s = raise s .reservedOperandFault) ∧
    (readOperand s first (pcAfter1 s first) 0 = .ok (n, s1) →
      resolveDestination s1 second (pcAfter2 s first second) 1 = .ok (d, s2) →
      (iprMap s.cfg n = none ∨ iprClass s.cfg n = some .writeOnly) →
      exec (.mfpr first second) s = raise s .reservedOperandFault)

/-- R149 (logs 32, 52): a value above 4 for ASTLVL is a reserved operand; a memory management register value that the
default of `PcbValid` rejects, a write of VAER, and one of a configured VMAC are refused by name. The operands may have
every form of R94 (log 11). -/
def Obligations.MtprValuesNotAccepted : Prop :=
  ∀ (s s1 s2 : State) (src procreg : Specifier) (v n : Word) (r : Ipr), s.privileged →
    readOperand s src (pcAfter1 s src) 0 = .ok (v, s1) →
    readOperand s1 procreg (pcAfter2 s src procreg) 1 = .ok (n, s2) →
    iprMap s.cfg n = some r → iprClass s.cfg n ≠ some .readOnly →
    (r = .astlvl → 4 < v.toNat → exec (.mtpr src procreg) s = raise s .reservedOperandFault) ∧
    (r = .p0br ∨ r = .p1br → mapBaseValid v = false → exec (.mtpr src procreg) s = .refused .mapRegisterInvalid) ∧
    (r = .p0lr → lengthValid s.cfg.pcb s.cfg.pcb.p0lr v = false →
      exec (.mtpr src procreg) s = .refused .mapRegisterInvalid) ∧
    (r = .p1lr → lengthValid s.cfg.pcb s.cfg.pcb.p1lr v = false → exec (.mtpr src procreg) s = .refused .mapRegisterInvalid) ∧
    (r = .vaer → exec (.mtpr src procreg) s = .refused .vaerWrite) ∧
    (r = .vmac → exec (.mtpr src procreg) s = .refused .vmacUnknown)

/-- R151: from the completion of an SVPCTX until that of the next LDPCTX, MTPR and MFPR naming KSP, ESP, SSP, USP or ISP
are refused. -/
def Obligations.StackPointerRegistersInSwitchWindow : Prop :=
  (∀ (s t : State), exec .svpctx s = .next t → tookException s t ∨ t.inSwitchWindow = true) ∧
    (∀ (s t : State), exec .ldpctx s = .next t → tookException s t ∨ t.inSwitchWindow = false) ∧
    (∀ (s t : State) (i : Instr), i ≠ .svpctx → i ≠ .ldpctx → exec i s = .next t →
      t.inSwitchWindow = s.inSwitchWindow) ∧
    ∀ (s s1 s2 : State) (first second : Specifier) (v n : Word) (d : Loc) (r : Ipr), s.privileged →
      s.inSwitchWindow = true → iprMap s.cfg n = some r → r.isStackPointer = true →
      (readOperand s first (pcAfter1 s first) 0 = .ok (v, s1) →
        readOperand s1 second (pcAfter2 s first second) 1 = .ok (n, s2) → iprClass s.cfg n ≠ some .readOnly →
        exec (.mtpr first second) s = .refused .stackPointerInSwitchWindow) ∧
      (readOperand s first (pcAfter1 s first) 0 = .ok (n, s1) →
        resolveDestination s1 second (pcAfter2 s first second) 1 = .ok (d, s2) → iprClass s.cfg n ≠ some .writeOnly →
        exec (.mfpr first second) s = .refused .stackPointerInSwitchWindow)

/-- R29, R30, D13, R205, R36, T43 (logs 4, 42, 52). By the default map the registers have the numbers and classes of
R30's table, and every other number, 17 and 146 among them, does not exist; VAER's row is read-write though MTPR to it is
refused (log 32), and without the vector architecture none of the vector registers exists. A map that puts ASN, CPUID,
VMPSL, SCBB or any other register first at a number gives that number the register, with the row's class, if the
processor has it, and it has SCBB if handlers are entered (model choice, log 4); a number that no row lists does not
exist. -/
def Obligations.ProcessorRegisterNumbers : Prop :=
  (∀ cfg : Params, cfg.iprMap = iprDefault →
      (∀ p ∈ [(0#32, Ipr.ksp), (1, .esp), (2, .ssp), (3, .usp), (4, .isp), (8, .p0br), (9, .p0lr), (10, .p1br),
          (11, .p1lr), (16, .pcbb), (19, .astlvl), (61, .pme)],
        iprMap cfg p.1 = some p.2 ∧ iprClass cfg p.1 = some .readWrite) ∧
      (∀ p ∈ [(57#32, Ipr.tbia), (58, .tbis)], iprMap cfg p.1 = some p.2 ∧ iprClass cfg p.1 = some .writeOnly) ∧
      (∀ p ∈ [(144#32, Ipr.vpsr, IprClass.readWrite), (145, .vaer, .readWrite), (147, .vtbia, .writeOnly),
          (148, .vsar, .readWrite)],
        iprMap cfg p.1 = (if cfg.hasVector then some p.2.1 else none) ∧
          iprClass cfg p.1 = (if cfg.hasVector then some p.2.2 else none)) ∧
      ∀ n : Word, n.toNat ∉ [0, 1, 2, 3, 4, 8, 9, 10, 11, 16, 19, 57, 58, 61, 144, 145, 147, 148] →
        iprMap cfg n = none) ∧
    (∀ (cfg : Params) (n : Word) (r : Ipr) (c : IprClass) (before after : List IprRow),
      cfg.iprMap = before ++ ⟨n, r, c⟩ :: after → (∀ row ∈ before, row.number ≠ n) → iprPresent cfg r = true →
      iprMap cfg n = some r ∧ iprClass cfg n = some c) ∧
    (∀ (cfg : Params) (n : Word), (∀ row ∈ cfg.iprMap, row.number = n → iprPresent cfg row.reg = false) →
      iprMap cfg n = none) ∧
    ∀ cfg : Params, iprPresent cfg .scbb = cfg.handlerEntry ∧ iprPresent cfg .asn = cfg.hasASN ∧
      iprPresent cfg .cpuid = cfg.hasASN ∧ iprPresent cfg .vmpsl = cfg.hasVM

/-! ## MFPR -/

/-- R152, R154, R155: MFPR into a register replaces all of it by the processor register's contents, its cell; N, Z, V
and C are the free value (log 37); nothing else but PC and the registers its operands update is changed. Of the stack
pointer register of the stack in use the contents are a free value, the model's choice, where R150 and D29 say that the
model refuses it (log 26). Logs 41 for the copy read of a memory management register, 43 for the layout of VMPSL, 55 for
the bits of SCBB. The operands may have every form of R94 (log 11). -/
def Obligations.MfprLoadsRegister : Prop :=
  ∀ (s s1 s2 : State) (procreg dst : Specifier) (n v : Word) (r : Ipr) (q : Reg), s.privileged →
    readOperand s procreg (pcAfter1 s procreg) 0 = .ok (n, s1) →
    resolveDestination s1 dst (pcAfter2 s procreg dst) 1 = .ok (.reg q, s2) →
    iprMap s.cfg n = some r → iprClass s.cfg n ≠ some .writeOnly → iprRead s r = .ok v →
    ∃ t, exec (.mfpr procreg dst) s = .next t ∧ getReg t q = v ∧ holdsContents s r v ∧
      t.pc = s.pc + BitVec.ofNat 32 (instrLength (.mfpr procreg dst)) ∧
      pslCc t.psl = Config.freeFlags s.draws ∧ samePslButCc s t ∧ t.cfg = s.cfg ∧
      (∀ p, p ≠ q → p ≠ regPC → p ∉ specUpdates procreg → p ∉ specUpdates dst → getReg t p = getReg s p) ∧
      sameProcessorRegisters s t ∧ sameStackCells s t ∧ sameVectorState s t ∧ sameMarks s t ∧ sameMemory s t

/-- R152, R154, R155, R64: MFPR into memory stores the contents, the register's cell, least significant byte first, at
the physical addresses of the destination; all other memory, and everything but PC, N, Z, V, C and the registers its
operands update, is unchanged. Of the stack pointer register of the stack in use the contents are a free value, the
model's choice (log 26). Logs 41, 43 and 55 as for MFPR into a register. The operands may have every form of R94 (log
11). -/
def Obligations.MfprStoresInMemory : Prop :=
  ∀ (s s1 s2 : State) (procreg dst : Specifier) (n v a : Word) (r : Ipr), s.privileged →
    readOperand s procreg (pcAfter1 s procreg) 0 = .ok (n, s1) →
    resolveDestination s1 dst (pcAfter2 s procreg dst) 1 = .ok (.mem a, s2) →
    iprMap s.cfg n = some r → iprClass s.cfg n ≠ some .writeOnly → iprRead s r = .ok v →
    ∃ t pas, exec (.mfpr procreg dst) s = .next t ∧ translateLong s a .write = .ok pas ∧ holdsContents s r v ∧
      t.pc = s.pc + BitVec.ofNat 32 (instrLength (.mfpr procreg dst)) ∧
      (Memory.wf s.mem = true → pas.Nodup → pas.map (fun b => Memory.read t.mem b.toNat) = bytesOfLong v) ∧
      sameMemoryOutside s t pas ∧ pslCc t.psl = Config.freeFlags s.draws ∧ samePslButCc s t ∧ t.cfg = s.cfg ∧
      (∀ p, p ≠ regPC → p ∉ specUpdates procreg → p ∉ specUpdates dst → getReg t p = getReg s p) ∧
      sameProcessorRegisters s t ∧ sameStackCells s t ∧ sameVectorState s t ∧ sameMarks s t

/-- R94, R218 (logs 8, 54): a literal, an immediate, or an index with register PC or over a base that cannot be indexed,
as MFPR's destination raises the reserved addressing mode fault, where R95 and R218 have the model refuse it (log 8). -/
def Obligations.MfprDestinationMustBeWritable : Prop :=
  ∀ (s s1 : State) (procreg : Specifier) (n : Word), s.privileged →
    readOperand s procreg (pcAfter1 s procreg) 0 = .ok (n, s1) →
    (∀ b : Base, b.writable = false →
      exec (.mfpr procreg (.plain b)) s = raise s .reservedAddressingMode) ∧
    ∀ (x : Reg) (b : Base), x = regPC ∨ b.indexable = false →
      exec (.mfpr procreg (.indexed x b)) s = raise s .reservedAddressingMode

/-- R94, R95, R66: where the configuration admits R95's subset alone, the decoder refuses every other form by name (log
11, which gives that setting and its order); and in every configuration the forms that R94 calls UNPREDICTABLE with no
bound on the outcome (PC in modes 6 and 7, under an index too; PC as a destination in mode 5; log 13), and LDPCTX and
SVPCTX with a misaligned PCBB (log 29), are refused by name; and so is MFPR of a configured VMAC, whose contents no
source gives (R36; log 52). -/
def Obligations.FormsRefusedByName : Prop :=
  (∀ (s : State), s.undisturbed → s.afterLdpctx = none → s.cfg.allOperandForms = false →
    (∀ (i : Instr) (rest : List Byte), decode (fetchBytes s maxLength s.pc).1 = .ok (i, rest) → i.admitted = false →
      step s = .refused .operandNotAdmitted) ∧
    ∀ e : DecodeError, decode (fetchBytes s maxLength s.pc).1 = .error e → e.admitted = false →
      step s = .refused .operandNotAdmitted) ∧
  ∀ (s : State), s.privileged →
    (s.pcbb.extractLsb' 0 2 ≠ 0 →
      exec .ldpctx s = .refused .pcbbMisaligned ∧ exec .svpctx s = .refused .pcbbMisaligned) ∧
    (∀ (sp dst : Specifier) (n : Word) (d : Loc) (s1 s2 : State), readOperand s sp (pcAfter1 s sp) 0 = .ok (n, s1) →
      resolveDestination s1 dst (pcAfter2 s sp dst) 1 = .ok (d, s2) → iprMap s.cfg n = some .vmac →
      iprClass s.cfg n ≠ some .writeOnly → exec (.mfpr sp dst) s = .refused .vmacUnknown) ∧
    ∀ (b : Base) (form sp : Specifier), b = .regDeferred regPC ∨ b = .autoDec regPC →
      form = .plain b ∨ (∃ x, x ≠ regPC ∧ form = .indexed x b) →
      exec (.mtpr form sp) s = .refused .unpredictableOperand ∧
      exec (.mfpr form sp) s = .refused .unpredictableOperand ∧
      ∀ n s1, readOperand s sp (pcAfter1 s sp) 0 = .ok (n, s1) →
        exec (.mtpr sp form) s = .refused .unpredictableOperand ∧
        exec (.mfpr sp form) s = .refused .unpredictableOperand ∧
        exec (.mfpr sp (.plain (.reg regPC))) s = .refused .unpredictableOperand

/-! ## VPSR -/

/-- R186 to R197: what MTPR does to each stored bit of VPSR and to VAER: RST first, then VEN, then the
write-one-to-clear bits; BSY is not written. Log 33 for the writes that are accepted. The operands may have every form
of R94 (log 11). -/
def Obligations.VpsrWriteActsBitByBit : Prop :=
  ∀ (s s1 s2 : State) (src procreg : Specifier) (w n : Word), s.privileged →
    readOperand s src (pcAfter1 s src) 0 = .ok (w, s1) →
    readOperand s1 procreg (pcAfter2 s src procreg) 1 = .ok (n, s2) → iprMap s.cfg n = some .vpsr →
    iprClass s.cfg n ≠ some .readOnly → mtprAccepts s .vpsr w = true →
    ∃ t, exec (.mtpr src procreg) s = .next t ∧ t.vpsr.ven = w.getLsbD 0 ∧
      t.vpsr.mf = (s.vpsr.mf && !w.getLsbD 1 && !w.getLsbD 5) ∧
      t.vpsr.pmf = (s.vpsr.pmf && !w.getLsbD 1 && !w.getLsbD 6) ∧
      t.vpsr.aex = (s.vpsr.aex && !w.getLsbD 1 && !w.getLsbD 7) ∧
      t.vpsr.imp = (s.vpsr.imp && !w.getLsbD 1 && !(w.getLsbD 24 && s.cfg.hasVpsrImp)) ∧
      t.vpsr.ivo = (s.vpsr.ivo && !w.getLsbD 1 && !(w.getLsbD 25 && s.cfg.hasVpsrIvo)) ∧
      t.vpsr.bsy = s.vpsr.bsy ∧ t.vaer = (if w.getLsbD 1 || w.getLsbD 7 then 0 else s.vaer) ∧
      t.v = s.v ∧ t.vlr = s.vlr ∧ t.vmr = s.vmr ∧ t.vcr = s.vcr

/-- R187: MFPR from VPSR returns BSY, IVO, IMP, AEX, PMF, MF and VEN at their places and zero elsewhere, in a register or
in memory; reading has no side effect, and N, Z, V, C are the free value. -/
def Obligations.VpsrReadsAsTabled : Prop :=
  (∀ s : State, vpsrRead s &&& 0x7CFFFF1E#32 = 0 ∧
    (vpsrRead s).getLsbD 0 = s.vpsr.ven ∧ (vpsrRead s).getLsbD 5 = (s.vpsr.mf && s.cfg.vecMMAsync) ∧
    (vpsrRead s).getLsbD 6 = (s.vpsr.pmf && s.cfg.vecMMAsync) ∧ (vpsrRead s).getLsbD 7 = s.vpsr.aex ∧
    (vpsrRead s).getLsbD 24 = (s.vpsr.imp && s.cfg.hasVpsrImp) ∧
    (vpsrRead s).getLsbD 25 = (s.vpsr.ivo && s.cfg.hasVpsrIvo) ∧ (vpsrRead s).getLsbD 31 = s.vpsr.bsy) ∧
  ∀ (s s1 s2 : State) (procreg dst : Specifier) (n : Word), s.privileged →
    readOperand s procreg (pcAfter1 s procreg) 0 = .ok (n, s1) → iprMap s.cfg n = some .vpsr →
    iprClass s.cfg n ≠ some .writeOnly →
    (∀ q, resolveDestination s1 dst (pcAfter2 s procreg dst) 1 = .ok (.reg q, s2) →
      ∃ t, exec (.mfpr procreg dst) s = .next t ∧ getReg t q = vpsrRead s ∧
        pslCc t.psl = Config.freeFlags s.draws ∧ samePslButCc s t ∧ t.cfg = s.cfg ∧
        (∀ p, p ≠ q → p ≠ regPC → p ∉ specUpdates procreg → p ∉ specUpdates dst → getReg t p = getReg s p) ∧
        sameProcessorRegisters s t ∧ sameStackCells s t ∧ sameVectorState s t ∧ sameMarks s t ∧ sameMemory s t) ∧
    ∀ a, resolveDestination s1 dst (pcAfter2 s procreg dst) 1 = .ok (.mem a, s2) →
      ∃ t pas, exec (.mfpr procreg dst) s = .next t ∧ translateLong s a .write = .ok pas ∧
        (Memory.wf s.mem = true → pas.Nodup →
          pas.map (fun b => Memory.read t.mem b.toNat) = bytesOfLong (vpsrRead s)) ∧
        pslCc t.psl = Config.freeFlags s.draws ∧ samePslButCc s t ∧ t.cfg = s.cfg ∧
        (∀ p, p ≠ regPC → p ∉ specUpdates procreg → p ∉ specUpdates dst → getReg t p = getReg s p) ∧
        sameProcessorRegisters s t ∧ sameStackCells s t ∧ sameVectorState s t ∧ sameMarks s t ∧
        sameMemoryOutside s t pas

/-- R198: bits <4>, <23:8> and <30:26> of VPSR read as zero, and an MTPR to VPSR with a one in any of them is refused. -/
def Obligations.VpsrReservedBits : Prop :=
  (∀ s : State, vpsrRead s &&& 0x7CFFFF10#32 = 0) ∧
    ∀ (s s1 s2 : State) (src procreg : Specifier) (w n : Word), s.privileged →
      readOperand s src (pcAfter1 s src) 0 = .ok (w, s1) →
      readOperand s1 procreg (pcAfter2 s src procreg) 1 = .ok (n, s2) → iprMap s.cfg n = some .vpsr →
      iprClass s.cfg n ≠ some .readOnly → w &&& 0x7CFFFF10#32 ≠ 0 →
      exec (.mtpr src procreg) s = .refused .vpsrReservedBits

/-- R199, R189, R190, R191: settings of VPSR<3:0> outside Table 10-2, RST while busy, and STS or RLD under the
asynchronous method are refused, each by its name (log 33). The operands may have every form of R94 (log 11). -/
def Obligations.VpsrSettingsRefused : Prop :=
  ∀ (s s1 s2 : State) (src procreg : Specifier) (w n : Word), s.privileged →
    readOperand s src (pcAfter1 s src) 0 = .ok (w, s1) →
    readOperand s1 procreg (pcAfter2 s src procreg) 1 = .ok (n, s2) → iprMap s.cfg n = some .vpsr →
    iprClass s.cfg n ≠ some .readOnly → w &&& 0x7CFFFF10#32 = 0 →
    (w.extractLsb' 0 4 ∈ [0b0101#4, 0b0110#4, 0b0111#4, 0b1010#4, 0b1011#4, 0b1100#4, 0b1101#4, 0b1110#4, 0b1111#4] →
      exec (.mtpr src procreg) s = .refused .vpsrSetting) ∧
    (w.extractLsb' 0 4 = 0b0010#4 ∨ w.extractLsb' 0 4 = 0b0011#4 → s.vpsr.bsy = true →
      exec (.mtpr src procreg) s = .refused .vpsrResetWhileBusy) ∧
    (w.extractLsb' 0 4 = 0b0100#4 ∨ w.extractLsb' 0 4 = 0b1000#4 ∨ w.extractLsb' 0 4 = 0b1001#4 →
      s.cfg.vecMMAsync = true → exec (.mtpr src procreg) s = .refused .vectorStateTransfer)

/-! ## Vector registers -/

/-- R180 to R185: a write of a vector register under a vector length of at most 64 gives the elements below it the
result in bits <31:0> (and, for a logical instruction, bits <63:32> of the Vb element), modifies no other element of the
destination, and no other register. The result of a vector operate or logical instruction is a function of bits <31:0>
of its source elements. No instruction of the table does this, and masked operations are left out: VMR plays no part,
because the spec does not say how it would (R203, log 45). -/
def Obligations.VectorWriteRespectsLength : Prop :=
  ∀ (s : State) (kind : VectorKind) (c : VReg), s.vlr.toNat ≤ 64 →
    (∀ results : Vector Word 64, ∃ t, vectorWrite s kind c results = .ok t ∧
      (∀ e : Fin 64, e.val < s.vlr.toNat → (element t c e).extractLsb' 0 32 = results[e.val]) ∧
      (∀ e : Fin 64, e.val < s.vlr.toNat → ∀ va vb, kind = .logical va vb →
        (element t c e).extractLsb' 32 32 = (element s vb e).extractLsb' 32 32) ∧
      (∀ e : Fin 64, s.vlr.toNat ≤ e.val → element t c e = element s c e) ∧
      (∀ d, d ≠ c → ∀ e, element t d e = element s d e)) ∧
    ∀ f : List Word → Word, ∃ t, vectorOperate s kind c f = .ok t ∧
      (∀ e : Fin 64, e.val < s.vlr.toNat → ∀ sources, kind = .operate sources →
        (element t c e).extractLsb' 0 32 = f (sources.map (fun r => (element s r e).extractLsb' 0 32))) ∧
      (∀ e : Fin 64, e.val < s.vlr.toNat → ∀ va vb, kind = .logical va vb →
        (element t c e).extractLsb' 0 32 =
            f [(element s va e).extractLsb' 0 32, (element s vb e).extractLsb' 0 32] ∧
          (element t c e).extractLsb' 32 32 = (element s vb e).extractLsb' 32 32) ∧
      (∀ e : Fin 64, s.vlr.toNat ≤ e.val → element t c e = element s c e) ∧
      (∀ d, d ≠ c → ∀ e, element t d e = element s d e)

/-! ## Stack and memory -/

/-- R64, R65: a longword pushed is the longword on top of the stack, four bytes lower, and a load there gives it back. -/
def Obligations.PushedLongwordIsOnTop : Prop :=
  ∀ (s : State) (v : Word), s.plainMemory → Memory.wf s.mem = true → s.loadedPcb = none →
    ∃ t, push s v = .ok t ∧ t.sp = s.sp - 4 ∧ memRead t t.sp = .ok v ∧ sameMemoryOutside s t (longAddrs t.sp)

/-- R64, R67: a store that succeeds puts bits <8k+7:8k> at the k-th physical address, if the four differ, and changes no
other byte; one whose translation fails stops with that translation's error, before any byte is written. -/
def Obligations.StoresAreLittleEndian : Prop :=
  (∀ (s t : State) (va v : Word), memWrite s va v = .ok t →
    ∃ pas, translateLong s va .write = .ok pas ∧ sameMemoryOutside s t pas ∧
      (Memory.wf s.mem = true → pas.Nodup → ∀ k, k < 4 → ∀ pa, pas[k]? = some pa →
        Memory.read t.mem pa.toNat = v.extractLsb' (8 * k) 8)) ∧
    ∀ (s : State) (va v : Word) (e : Stop), translateLong s va .write = .error e → memWrite s va v = .error e

/-! ## The whole machine -/

/-- The reset state meets the invariant. Its PSL and ASTLVL are the model's (log 19), and so are its empty memory and
record of stores (logs 18, 20) and its configuration (log 2). -/
def Obligations.ResetMeetsInvariant : Prop := State.reset.Inv

/-- R26, R33, R123, R135: every step keeps the invariant: memory and the record of stores in canonical form; with the
default checks (log 44) the PSL consistent (interrupt stack and raised IPL in kernel mode only, must-be-zero bits zero),
and ASTLVL at most 4. That entry to a handler is a step, and what PSL it leaves, are the model's choices (logs 3, 49),
and so is what MTPR of ASTLVL does with a greater value (log 32). -/
def Obligations.StepKeepsInvariant : Prop :=
  ∀ (s t : State), s.Inv → step s = .next t → t.Inv

/-- R204, R4 (log 1): no step changes the configuration, the vector registers, VLR, VMR or VCR. -/
def Obligations.StepLeavesVectorRegisters : Prop :=
  ∀ (s t : State), step s = .next t → t.cfg = s.cfg ∧ t.v = s.v ∧ t.vlr = s.vlr ∧ t.vmr = s.vmr ∧ t.vcr = s.vcr

/-- R229, R230: outside kernel mode no step changes a processor register other than the stack pointers', the vector
state, the context-switch window, the loaded PCB or the TB. Of the stack pointers' cells it writes one, that of the
stack it leaves: an REI with SP past the two longwords, and then memory is unchanged; entry to the handler of an
exception or of the AST with SP, and then memory changes in the longwords it pushes alone. R230 describes no entry and
says that the model performs none: the clauses on entry are the model's choice (log 3), with the vectors and where they
lie (logs 8, 9, 55), what is pushed (logs 6, 7, 43, 58), the mode in which the pushes are translated (log 57), and that
the window stands (log 27). -/
def Obligations.OutsideKernelModeNothingPrivilegedChanges : Prop :=
  ∀ (s t : State), s.mode ≠ 0 → step s = .next t →
    t.cfg = s.cfg ∧ sameProcessorRegisters s t ∧ sameVectorState s t ∧ t.inSwitchWindow = s.inSwitchWindow ∧
      t.loadedPcb = s.loadedPcb ∧ t.tbEvents = s.tbEvents ∧
      (∀ p, sameStack s.psl p = false → stackCell t p = stackCell s p) ∧
      ((stackCell t s.psl = s.sp + 8 ∧ sameMemory s t) ∨
        (t.mode = 0 ∧ stackCell t s.psl = s.sp ∧
          ((∃ e off, scbOffset s.cfg e = some off ∧
              sameMemoryOutside s t
                (pushTargets (entryStart s off none) (entryFrame s (savedPc s e) (excParams s e)))) ∨
            sameMemoryOutside s t
              (pushTargets (entryStart s s.cfg.scbAst (some 2)) (entryFrame s s.pc [])))))

/-- R230, R221: with the default check of REI (log 44), a step that moves to a more privileged mode has entered a handler
through the vector of an exception or of the AST: it runs in kernel mode, and its previous mode is the mode left (an
exception) or kernel (an interrupt). R230 describes no entry and says that the model performs none: that handlers are
entered is the model's choice (log 3), with the place of the vector, SCBB plus the offset (log 55), and the offsets of the
AST's and of the reserved addressing mode's vectors (logs 9, 8). -/
def Obligations.PrivilegeRisesOnlyByEntry : Prop :=
  ∀ (s t : State), s.cfg.reiTable = [] → step s = .next t → t.mode.toNat < s.mode.toNat →
    t.mode = 0 ∧ (pslPrvMod t.psl = s.mode ∨ pslPrvMod t.psl = 0) ∧
      ∃ off, (off = s.cfg.scbAst ∨ ∃ e, scbOffset s.cfg e = some off) ∧ t.pc = vectorOf s off &&& 0xFFFFFFFC#32
end

