-- ==== Sys2Proof/Laws/Memory.lean ====
section
/-!
SUPPORT. The laws of physical memory and of the set of stored addresses: reading after writing, and the canonical
forms that every operation keeps.
-/

namespace Sys2Proof.Machine

/-! ## One byte -/

/-- A bound that is below an address, or absent. -/
def boundBelow (lo : Option Nat) (a : Nat) : Bool :=
  match lo with
  | none => true
  | some l => decide (l < a)

theorem boundBelow_trans {lo : Option Nat} {a k : Nat} (h : boundBelow lo a = true) (hk : a < k) :
    boundBelow lo k = true := by
  cases lo with
  | none => rfl
  | some l => simp [boundBelow] at *; omega

theorem Memory.wfAbove_cons (lo : Option Nat) (k : Nat) (b : Byte) (m : List Host.Cell) :
    Memory.wfAbove lo ((k, b) :: m) = true ↔
      boundBelow lo k = true ∧ k < 2 ^ 32 ∧ b ≠ Memory.unlisted ∧ Memory.wfAbove (some k) m = true := by
  cases lo <;> simp [Memory.wfAbove, boundBelow, and_assoc]

theorem Memory.wfAbove_weaken {lo lo' : Option Nat} {m : List Host.Cell} (h : Memory.wfAbove lo m = true)
    (hlo : ∀ a, boundBelow lo a = true → boundBelow lo' a = true) : Memory.wfAbove lo' m = true := by
  cases m with
  | nil => simp [Memory.wfAbove]
  | cons c m =>
    obtain ⟨k, b⟩ := c
    rw [Memory.wfAbove_cons] at h ⊢
    exact ⟨hlo k h.1, h.2⟩

theorem Memory.wfAbove_write {m : List Host.Cell} {a : Nat} {b : Byte} (ha : a < 2 ^ 32) :
    ∀ {lo : Option Nat}, Memory.wfAbove lo m = true → boundBelow lo a = true →
      Memory.wfAbove lo (Memory.write m a b) = true := by
  induction m with
  | nil =>
    intro lo _ hlo
    unfold Memory.write
    split
    · simp [Memory.wfAbove]
    · exact (Memory.wfAbove_cons ..).2 ⟨hlo, ha, ‹_›, by simp [Memory.wfAbove]⟩
  | cons c m ih =>
    obtain ⟨k, d⟩ := c
    intro lo h hlo
    have h' := (Memory.wfAbove_cons ..).1 h
    unfold Memory.write
    split
    · rename_i hak
      split
      · exact h
      · exact (Memory.wfAbove_cons ..).2 ⟨hlo, ha, ‹_›, (Memory.wfAbove_cons ..).2
          ⟨by simpa [boundBelow] using hak, h'.2⟩⟩
    · split
      · rename_i hak
        subst hak
        split
        · exact Memory.wfAbove_weaken h'.2.2.2
            (fun x hx => boundBelow_trans hlo (by simpa [boundBelow] using hx))
        · exact (Memory.wfAbove_cons ..).2 ⟨hlo, ha, ‹_›, h'.2.2.2⟩
      · exact (Memory.wfAbove_cons ..).2
          ⟨h'.1, h'.2.1, h'.2.2.1, ih h'.2.2.2 (by simp [boundBelow]; omega)⟩

/-- Writing a byte keeps the canonical form. -/
theorem Memory.wf_write {m : List Host.Cell} (h : Memory.wf m = true) {a : Nat} (ha : a < 2 ^ 32) (b : Byte) :
    Memory.wf (Memory.write m a b) = true :=
  Memory.wfAbove_write ha h rfl

theorem Memory.read_below {m : List Host.Cell} {a l : Nat} (h : Memory.wfAbove (some l) m = true) (hal : a ≤ l) :
    Memory.read m a = Memory.unlisted := by
  induction m generalizing l with
  | nil => rfl
  | cons c m ih =>
    obtain ⟨k, d⟩ := c
    have h' := (Memory.wfAbove_cons ..).1 h
    have hk : l < k := by simpa [boundBelow] using h'.1
    rw [Memory.read, if_neg (by omega)]
    exact ih h'.2.2.2 (by omega)

/-- Reading another address is not affected by a write, whatever the memory. -/
theorem Memory.read_write_ne (m : List Host.Cell) {a x : Nat} (b : Byte) (hx : x ≠ a) :
    Memory.read (Memory.write m a b) x = Memory.read m x := by
  induction m with
  | nil =>
    unfold Memory.write
    split <;> simp [Memory.read, hx]
  | cons c m ih =>
    obtain ⟨k, d⟩ := c
    unfold Memory.write
    split
    · split <;> simp [Memory.read, hx]
    · split
      · rename_i hk
        subst hk
        split <;> simp [Memory.read, hx]
      · simp [Memory.read, ih]

theorem Memory.read_write_same_above {m : List Host.Cell} {a : Nat} (b : Byte) :
    ∀ {lo : Option Nat}, Memory.wfAbove lo m = true → Memory.read (Memory.write m a b) a = b := by
  induction m with
  | nil =>
    intro lo _
    unfold Memory.write
    split <;> simp_all [Memory.read]
  | cons c m ih =>
    obtain ⟨k, d⟩ := c
    intro lo h
    have h' := (Memory.wfAbove_cons ..).1 h
    unfold Memory.write
    split
    · rename_i hak
      split
      · rename_i hb
        rw [Memory.read, if_neg (by omega), Memory.read_below h'.2.2.2 (by omega), hb]
      · simp [Memory.read]
    · split
      · rename_i hak
        split
        · rename_i hb
          rw [hak, Memory.read_below h'.2.2.2 (le_refl k), hb]
        · simp [Memory.read]
      · rename_i h1 h2
        rw [Memory.read, if_neg h2]
        exact ih h'.2.2.2

/-- In canonical memory, reading the address just written gives the byte written. -/
theorem Memory.read_write_same {m : List Host.Cell} (h : Memory.wf m = true) (a : Nat) (b : Byte) :
    Memory.read (Memory.write m a b) a = b :=
  Memory.read_write_same_above b h

/-! ## Several bytes -/

/-- Writing bytes keeps the canonical form. -/
theorem Memory.wf_writeAll {as : List Word} {bs : List Byte} :
    ∀ {m : List Host.Cell}, Memory.wf m = true → Memory.wf (Memory.writeAll m as bs) = true := by
  induction as generalizing bs with
  | nil => intro m h; simpa [Memory.writeAll] using h
  | cons a as ih =>
    intro m h
    cases bs with
    | nil => simpa [Memory.writeAll] using h
    | cons b bs => exact ih (Memory.wf_write h a.isLt b)

/-- Bytes written in two goes. -/
theorem Memory.writeAll_append {as as' : List Word} {bs bs' : List Byte} (h : as.length = bs.length)
    (m : List Host.Cell) :
    Memory.writeAll m (as ++ as') (bs ++ bs') = Memory.writeAll (Memory.writeAll m as bs) as' bs' := by
  induction as generalizing bs m with
  | nil => cases bs with
    | nil => rfl
    | cons => cases h
  | cons a as ih => cases bs with
    | nil => cases h
    | cons b bs => exact ih (by simpa using h) _

/-- An address that is none of those written reads as before. -/
theorem Memory.read_writeAll_of_notMem {as : List Word} {bs : List Byte} {x : Nat} (hx : ∀ a ∈ as, x ≠ a.toNat) :
    ∀ (m : List Host.Cell), Memory.read (Memory.writeAll m as bs) x = Memory.read m x := by
  induction as generalizing bs with
  | nil => intro m; simp [Memory.writeAll]
  | cons a as ih =>
    intro m
    cases bs with
    | nil => simp [Memory.writeAll]
    | cons b bs =>
      rw [Memory.writeAll, ih (fun y hy => hx y (List.mem_cons_of_mem _ hy)),
        Memory.read_write_ne _ _ (hx a (List.mem_cons_self ..))]

/-- Bytes written to distinct addresses of canonical memory are read back, each at its own. -/
theorem Memory.map_read_writeAll {as : List Word} {bs : List Byte} (hlen : as.length = bs.length)
    (hnd : as.Nodup) :
    ∀ {m : List Host.Cell}, Memory.wf m = true →
      as.map (fun a => Memory.read (Memory.writeAll m as bs) a.toNat) = bs := by
  induction as generalizing bs with
  | nil => intro m _; cases bs <;> simp_all
  | cons a as ih =>
    intro m h
    cases bs with
    | nil => simp at hlen
    | cons b bs =>
      have hnd' := List.nodup_cons.1 hnd
      have hfirst : Memory.read (Memory.writeAll (Memory.write m a.toNat b) as bs) a.toNat = b := by
        rw [Memory.read_writeAll_of_notMem, Memory.read_write_same h]
        intro y hy he
        exact hnd'.1 (BitVec.eq_of_toNat_eq he ▸ hy)
      simp only [List.map_cons, Memory.writeAll, hfirst]
      rw [ih (by simpa using hlen) hnd'.2 (Memory.wf_write h a.isLt b)]

/-! ## The addresses stored to -/

theorem risingAbove_cons (lo : Option Nat) (k : Nat) (l : List Nat) :
    risingAbove lo (k :: l) = true ↔ boundBelow lo k = true ∧ k < 2 ^ 32 ∧ risingAbove (some k) l = true := by
  cases lo <;> simp [risingAbove, boundBelow, and_assoc]

theorem risingAbove_insertAddr {l : List Nat} {a : Nat} (ha : a < 2 ^ 32) :
    ∀ {lo : Option Nat}, risingAbove lo l = true → boundBelow lo a = true →
      risingAbove lo (insertAddr a l) = true := by
  induction l with
  | nil =>
    intro lo _ hlo
    exact (risingAbove_cons ..).2 ⟨hlo, ha, rfl⟩
  | cons k l ih =>
    intro lo h hlo
    have h' := (risingAbove_cons ..).1 h
    unfold insertAddr
    split
    · exact (risingAbove_cons ..).2 ⟨hlo, ha, (risingAbove_cons ..).2 ⟨by simpa [boundBelow], h'.2⟩⟩
    · split
      · exact h
      · exact (risingAbove_cons ..).2 ⟨h'.1, h'.2.1, ih h'.2.2 (by simp [boundBelow]; omega)⟩

/-- Storing keeps the set of stored addresses strictly rising. -/
theorem risingAbove_insertAddrs {as : List Word} :
    ∀ {l : List Nat}, risingAbove none l = true → risingAbove none (insertAddrs as l) = true := by
  induction as with
  | nil => intro l h; simpa [insertAddrs] using h
  | cons a as ih => intro l h; exact ih (risingAbove_insertAddr a.isLt h rfl)

theorem mem_insertAddr (a x : Nat) (l : List Nat) : x ∈ insertAddr a l ↔ x = a ∨ x ∈ l := by
  induction l with
  | nil => simp [insertAddr]
  | cons k l ih =>
    unfold insertAddr
    split
    · simp
    · split
      · rename_i h; subst h; simp
      · simp [ih]; tauto

/-- The addresses after a store are those stored to and those before. -/
theorem mem_insertAddrs (as : List Word) (x : Nat) :
    ∀ (l : List Nat), x ∈ insertAddrs as l ↔ (∃ a ∈ as, x = a.toNat) ∨ x ∈ l := by
  induction as with
  | nil => intro l; simp [insertAddrs]
  | cons a as ih =>
    intro l
    simp only [insertAddrs, ih, mem_insertAddr, List.mem_cons, exists_eq_or_imp]
    exact or_left_comm.trans or_assoc.symm

end Sys2Proof.Machine
end

