-- ==== Sys2Proof/Laws/State.lean ====
section
/-!
SUPPORT. The fields of State under each named update: what it does not write is unchanged.
-/

namespace Sys2Proof.Machine

/-! ## The write of a register -/

@[simp] theorem setReg_cfg (s : State) (r : Reg) (w : Word) : (setReg s r w).cfg = s.cfg := rfl
@[simp] theorem setReg_psl (s : State) (r : Reg) (w : Word) : (setReg s r w).psl = s.psl := rfl
@[simp] theorem setReg_isp (s : State) (r : Reg) (w : Word) : (setReg s r w).isp = s.isp := rfl
@[simp] theorem setReg_spSlot (s : State) (r : Reg) (w : Word) : (setReg s r w).spSlot = s.spSlot := rfl
@[simp] theorem setReg_map (s : State) (r : Reg) (w : Word) : (setReg s r w).map = s.map := rfl
@[simp] theorem setReg_vecMap (s : State) (r : Reg) (w : Word) : (setReg s r w).vecMap = s.vecMap := rfl
@[simp] theorem setReg_pcbb (s : State) (r : Reg) (w : Word) : (setReg s r w).pcbb = s.pcbb := rfl
@[simp] theorem setReg_scbb (s : State) (r : Reg) (w : Word) : (setReg s r w).scbb = s.scbb := rfl
@[simp] theorem setReg_astlvl (s : State) (r : Reg) (w : Word) : (setReg s r w).astlvl = s.astlvl := rfl
@[simp] theorem setReg_pme (s : State) (r : Reg) (w : Word) : (setReg s r w).pme = s.pme := rfl
@[simp] theorem setReg_asn (s : State) (r : Reg) (w : Word) : (setReg s r w).asn = s.asn := rfl
@[simp] theorem setReg_cpuid (s : State) (r : Reg) (w : Word) : (setReg s r w).cpuid = s.cpuid := rfl
@[simp] theorem setReg_vmpsl (s : State) (r : Reg) (w : Word) : (setReg s r w).vmpsl = s.vmpsl := rfl
@[simp] theorem setReg_v (s : State) (r : Reg) (w : Word) : (setReg s r w).v = s.v := rfl
@[simp] theorem setReg_vlr (s : State) (r : Reg) (w : Word) : (setReg s r w).vlr = s.vlr := rfl
@[simp] theorem setReg_vmr (s : State) (r : Reg) (w : Word) : (setReg s r w).vmr = s.vmr := rfl
@[simp] theorem setReg_vcr (s : State) (r : Reg) (w : Word) : (setReg s r w).vcr = s.vcr := rfl
@[simp] theorem setReg_vpsr (s : State) (r : Reg) (w : Word) : (setReg s r w).vpsr = s.vpsr := rfl
@[simp] theorem setReg_vaer (s : State) (r : Reg) (w : Word) : (setReg s r w).vaer = s.vaer := rfl
@[simp] theorem setReg_vsar (s : State) (r : Reg) (w : Word) : (setReg s r w).vsar = s.vsar := rfl
@[simp] theorem setReg_astRequest (s : State) (r : Reg) (w : Word) : (setReg s r w).astRequest = s.astRequest := rfl
@[simp] theorem setReg_inSwitchWindow (s : State) (r : Reg) (w : Word) : (setReg s r w).inSwitchWindow = s.inSwitchWindow := rfl
@[simp] theorem setReg_afterLdpctx (s : State) (r : Reg) (w : Word) : (setReg s r w).afterLdpctx = s.afterLdpctx := rfl
@[simp] theorem setReg_loadedPcb (s : State) (r : Reg) (w : Word) : (setReg s r w).loadedPcb = s.loadedPcb := rfl
@[simp] theorem setReg_written (s : State) (r : Reg) (w : Word) : (setReg s r w).written = s.written := rfl
@[simp] theorem setReg_mem (s : State) (r : Reg) (w : Word) : (setReg s r w).mem = s.mem := rfl
@[simp] theorem setReg_tbEvents (s : State) (r : Reg) (w : Word) : (setReg s r w).tbEvents = s.tbEvents := rfl
@[simp] theorem setReg_draws (s : State) (r : Reg) (w : Word) : (setReg s r w).draws = s.draws := rfl
@[simp] theorem setReg_mode (s : State) (r : Reg) (w : Word) : (setReg s r w).mode = s.mode := rfl

/-! ## The end of an instruction -/

@[simp] theorem finish_cfg (s : State) (pc : Word) : (finish s pc).cfg = s.cfg := rfl
@[simp] theorem finish_psl (s : State) (pc : Word) : (finish s pc).psl = s.psl := rfl
@[simp] theorem finish_isp (s : State) (pc : Word) : (finish s pc).isp = s.isp := rfl
@[simp] theorem finish_spSlot (s : State) (pc : Word) : (finish s pc).spSlot = s.spSlot := rfl
@[simp] theorem finish_map (s : State) (pc : Word) : (finish s pc).map = s.map := rfl
@[simp] theorem finish_vecMap (s : State) (pc : Word) : (finish s pc).vecMap = s.vecMap := rfl
@[simp] theorem finish_pcbb (s : State) (pc : Word) : (finish s pc).pcbb = s.pcbb := rfl
@[simp] theorem finish_scbb (s : State) (pc : Word) : (finish s pc).scbb = s.scbb := rfl
@[simp] theorem finish_astlvl (s : State) (pc : Word) : (finish s pc).astlvl = s.astlvl := rfl
@[simp] theorem finish_pme (s : State) (pc : Word) : (finish s pc).pme = s.pme := rfl
@[simp] theorem finish_asn (s : State) (pc : Word) : (finish s pc).asn = s.asn := rfl
@[simp] theorem finish_cpuid (s : State) (pc : Word) : (finish s pc).cpuid = s.cpuid := rfl
@[simp] theorem finish_vmpsl (s : State) (pc : Word) : (finish s pc).vmpsl = s.vmpsl := rfl
@[simp] theorem finish_v (s : State) (pc : Word) : (finish s pc).v = s.v := rfl
@[simp] theorem finish_vlr (s : State) (pc : Word) : (finish s pc).vlr = s.vlr := rfl
@[simp] theorem finish_vmr (s : State) (pc : Word) : (finish s pc).vmr = s.vmr := rfl
@[simp] theorem finish_vcr (s : State) (pc : Word) : (finish s pc).vcr = s.vcr := rfl
@[simp] theorem finish_vpsr (s : State) (pc : Word) : (finish s pc).vpsr = s.vpsr := rfl
@[simp] theorem finish_vaer (s : State) (pc : Word) : (finish s pc).vaer = s.vaer := rfl
@[simp] theorem finish_vsar (s : State) (pc : Word) : (finish s pc).vsar = s.vsar := rfl
@[simp] theorem finish_astRequest (s : State) (pc : Word) : (finish s pc).astRequest = s.astRequest := rfl
@[simp] theorem finish_inSwitchWindow (s : State) (pc : Word) : (finish s pc).inSwitchWindow = s.inSwitchWindow := rfl
@[simp] theorem finish_afterLdpctx (s : State) (pc : Word) : (finish s pc).afterLdpctx = s.afterLdpctx := rfl
@[simp] theorem finish_loadedPcb (s : State) (pc : Word) : (finish s pc).loadedPcb = s.loadedPcb := rfl
@[simp] theorem finish_written (s : State) (pc : Word) : (finish s pc).written = s.written := rfl
@[simp] theorem finish_mem (s : State) (pc : Word) : (finish s pc).mem = s.mem := rfl
@[simp] theorem finish_tbEvents (s : State) (pc : Word) : (finish s pc).tbEvents = s.tbEvents := rfl
@[simp] theorem finish_mode (s : State) (pc : Word) : (finish s pc).mode = s.mode := rfl

/-! ## The write of a stack pointer's cell -/

@[simp] theorem setStackCell_cfg (s : State) (p w : Word) : (setStackCell s p w).cfg = s.cfg := rfl
@[simp] theorem setStackCell_x (s : State) (p w : Word) : (setStackCell s p w).x = s.x := rfl
@[simp] theorem setStackCell_psl (s : State) (p w : Word) : (setStackCell s p w).psl = s.psl := rfl
@[simp] theorem setStackCell_map (s : State) (p w : Word) : (setStackCell s p w).map = s.map := rfl
@[simp] theorem setStackCell_vecMap (s : State) (p w : Word) : (setStackCell s p w).vecMap = s.vecMap := rfl
@[simp] theorem setStackCell_pcbb (s : State) (p w : Word) : (setStackCell s p w).pcbb = s.pcbb := rfl
@[simp] theorem setStackCell_scbb (s : State) (p w : Word) : (setStackCell s p w).scbb = s.scbb := rfl
@[simp] theorem setStackCell_astlvl (s : State) (p w : Word) : (setStackCell s p w).astlvl = s.astlvl := rfl
@[simp] theorem setStackCell_pme (s : State) (p w : Word) : (setStackCell s p w).pme = s.pme := rfl
@[simp] theorem setStackCell_asn (s : State) (p w : Word) : (setStackCell s p w).asn = s.asn := rfl
@[simp] theorem setStackCell_cpuid (s : State) (p w : Word) : (setStackCell s p w).cpuid = s.cpuid := rfl
@[simp] theorem setStackCell_vmpsl (s : State) (p w : Word) : (setStackCell s p w).vmpsl = s.vmpsl := rfl
@[simp] theorem setStackCell_v (s : State) (p w : Word) : (setStackCell s p w).v = s.v := rfl
@[simp] theorem setStackCell_vlr (s : State) (p w : Word) : (setStackCell s p w).vlr = s.vlr := rfl
@[simp] theorem setStackCell_vmr (s : State) (p w : Word) : (setStackCell s p w).vmr = s.vmr := rfl
@[simp] theorem setStackCell_vcr (s : State) (p w : Word) : (setStackCell s p w).vcr = s.vcr := rfl
@[simp] theorem setStackCell_vpsr (s : State) (p w : Word) : (setStackCell s p w).vpsr = s.vpsr := rfl
@[simp] theorem setStackCell_vaer (s : State) (p w : Word) : (setStackCell s p w).vaer = s.vaer := rfl
@[simp] theorem setStackCell_vsar (s : State) (p w : Word) : (setStackCell s p w).vsar = s.vsar := rfl
@[simp] theorem setStackCell_astRequest (s : State) (p w : Word) : (setStackCell s p w).astRequest = s.astRequest := rfl
@[simp] theorem setStackCell_inSwitchWindow (s : State) (p w : Word) : (setStackCell s p w).inSwitchWindow = s.inSwitchWindow := rfl
@[simp] theorem setStackCell_afterLdpctx (s : State) (p w : Word) : (setStackCell s p w).afterLdpctx = s.afterLdpctx := rfl
@[simp] theorem setStackCell_loadedPcb (s : State) (p w : Word) : (setStackCell s p w).loadedPcb = s.loadedPcb := rfl
@[simp] theorem setStackCell_written (s : State) (p w : Word) : (setStackCell s p w).written = s.written := rfl
@[simp] theorem setStackCell_mem (s : State) (p w : Word) : (setStackCell s p w).mem = s.mem := rfl
@[simp] theorem setStackCell_tbEvents (s : State) (p w : Word) : (setStackCell s p w).tbEvents = s.tbEvents := rfl
@[simp] theorem setStackCell_draws (s : State) (p w : Word) : (setStackCell s p w).draws = s.draws := rfl
@[simp] theorem getReg_setStackCell (s : State) (p w : Word) (q : Reg) : getReg (setStackCell s p w) q = getReg s q := rfl
@[simp] theorem setStackCell_mode (s : State) (p w : Word) : (setStackCell s p w).mode = s.mode := rfl

/-! ## A switch of stack -/

@[simp] theorem switchStack_cfg (s : State) (sp p : Word) : (switchStack s sp p).cfg = s.cfg := rfl
@[simp] theorem switchStack_map (s : State) (sp p : Word) : (switchStack s sp p).map = s.map := rfl
@[simp] theorem switchStack_vecMap (s : State) (sp p : Word) : (switchStack s sp p).vecMap = s.vecMap := rfl
@[simp] theorem switchStack_pcbb (s : State) (sp p : Word) : (switchStack s sp p).pcbb = s.pcbb := rfl
@[simp] theorem switchStack_scbb (s : State) (sp p : Word) : (switchStack s sp p).scbb = s.scbb := rfl
@[simp] theorem switchStack_astlvl (s : State) (sp p : Word) : (switchStack s sp p).astlvl = s.astlvl := rfl
@[simp] theorem switchStack_pme (s : State) (sp p : Word) : (switchStack s sp p).pme = s.pme := rfl
@[simp] theorem switchStack_asn (s : State) (sp p : Word) : (switchStack s sp p).asn = s.asn := rfl
@[simp] theorem switchStack_cpuid (s : State) (sp p : Word) : (switchStack s sp p).cpuid = s.cpuid := rfl
@[simp] theorem switchStack_vmpsl (s : State) (sp p : Word) : (switchStack s sp p).vmpsl = s.vmpsl := rfl
@[simp] theorem switchStack_v (s : State) (sp p : Word) : (switchStack s sp p).v = s.v := rfl
@[simp] theorem switchStack_vlr (s : State) (sp p : Word) : (switchStack s sp p).vlr = s.vlr := rfl
@[simp] theorem switchStack_vmr (s : State) (sp p : Word) : (switchStack s sp p).vmr = s.vmr := rfl
@[simp] theorem switchStack_vcr (s : State) (sp p : Word) : (switchStack s sp p).vcr = s.vcr := rfl
@[simp] theorem switchStack_vpsr (s : State) (sp p : Word) : (switchStack s sp p).vpsr = s.vpsr := rfl
@[simp] theorem switchStack_vaer (s : State) (sp p : Word) : (switchStack s sp p).vaer = s.vaer := rfl
@[simp] theorem switchStack_vsar (s : State) (sp p : Word) : (switchStack s sp p).vsar = s.vsar := rfl
@[simp] theorem switchStack_astRequest (s : State) (sp p : Word) : (switchStack s sp p).astRequest = s.astRequest := rfl
@[simp] theorem switchStack_inSwitchWindow (s : State) (sp p : Word) : (switchStack s sp p).inSwitchWindow = s.inSwitchWindow := rfl
@[simp] theorem switchStack_afterLdpctx (s : State) (sp p : Word) : (switchStack s sp p).afterLdpctx = s.afterLdpctx := rfl
@[simp] theorem switchStack_loadedPcb (s : State) (sp p : Word) : (switchStack s sp p).loadedPcb = s.loadedPcb := rfl
@[simp] theorem switchStack_written (s : State) (sp p : Word) : (switchStack s sp p).written = s.written := rfl
@[simp] theorem switchStack_mem (s : State) (sp p : Word) : (switchStack s sp p).mem = s.mem := rfl
@[simp] theorem switchStack_tbEvents (s : State) (sp p : Word) : (switchStack s sp p).tbEvents = s.tbEvents := rfl
@[simp] theorem switchStack_draws (s : State) (sp p : Word) : (switchStack s sp p).draws = s.draws := rfl

/-! ## A store -/

@[simp] theorem setPhysBytes_cfg (s : State) (pas : List Word) (bs : List Byte) : (setPhysBytes s pas bs).cfg = s.cfg := rfl
@[simp] theorem setPhysBytes_x (s : State) (pas : List Word) (bs : List Byte) : (setPhysBytes s pas bs).x = s.x := rfl
@[simp] theorem setPhysBytes_psl (s : State) (pas : List Word) (bs : List Byte) : (setPhysBytes s pas bs).psl = s.psl := rfl
@[simp] theorem setPhysBytes_isp (s : State) (pas : List Word) (bs : List Byte) : (setPhysBytes s pas bs).isp = s.isp := rfl
@[simp] theorem setPhysBytes_spSlot (s : State) (pas : List Word) (bs : List Byte) : (setPhysBytes s pas bs).spSlot = s.spSlot := rfl
@[simp] theorem setPhysBytes_map (s : State) (pas : List Word) (bs : List Byte) : (setPhysBytes s pas bs).map = s.map := rfl
@[simp] theorem setPhysBytes_vecMap (s : State) (pas : List Word) (bs : List Byte) : (setPhysBytes s pas bs).vecMap = s.vecMap := rfl
@[simp] theorem setPhysBytes_pcbb (s : State) (pas : List Word) (bs : List Byte) : (setPhysBytes s pas bs).pcbb = s.pcbb := rfl
@[simp] theorem setPhysBytes_scbb (s : State) (pas : List Word) (bs : List Byte) : (setPhysBytes s pas bs).scbb = s.scbb := rfl
@[simp] theorem setPhysBytes_astlvl (s : State) (pas : List Word) (bs : List Byte) : (setPhysBytes s pas bs).astlvl = s.astlvl := rfl
@[simp] theorem setPhysBytes_pme (s : State) (pas : List Word) (bs : List Byte) : (setPhysBytes s pas bs).pme = s.pme := rfl
@[simp] theorem setPhysBytes_asn (s : State) (pas : List Word) (bs : List Byte) : (setPhysBytes s pas bs).asn = s.asn := rfl
@[simp] theorem setPhysBytes_cpuid (s : State) (pas : List Word) (bs : List Byte) : (setPhysBytes s pas bs).cpuid = s.cpuid := rfl
@[simp] theorem setPhysBytes_vmpsl (s : State) (pas : List Word) (bs : List Byte) : (setPhysBytes s pas bs).vmpsl = s.vmpsl := rfl
@[simp] theorem setPhysBytes_v (s : State) (pas : List Word) (bs : List Byte) : (setPhysBytes s pas bs).v = s.v := rfl
@[simp] theorem setPhysBytes_vlr (s : State) (pas : List Word) (bs : List Byte) : (setPhysBytes s pas bs).vlr = s.vlr := rfl
@[simp] theorem setPhysBytes_vmr (s : State) (pas : List Word) (bs : List Byte) : (setPhysBytes s pas bs).vmr = s.vmr := rfl
@[simp] theorem setPhysBytes_vcr (s : State) (pas : List Word) (bs : List Byte) : (setPhysBytes s pas bs).vcr = s.vcr := rfl
@[simp] theorem setPhysBytes_vpsr (s : State) (pas : List Word) (bs : List Byte) : (setPhysBytes s pas bs).vpsr = s.vpsr := rfl
@[simp] theorem setPhysBytes_vaer (s : State) (pas : List Word) (bs : List Byte) : (setPhysBytes s pas bs).vaer = s.vaer := rfl
@[simp] theorem setPhysBytes_vsar (s : State) (pas : List Word) (bs : List Byte) : (setPhysBytes s pas bs).vsar = s.vsar := rfl
@[simp] theorem setPhysBytes_astRequest (s : State) (pas : List Word) (bs : List Byte) : (setPhysBytes s pas bs).astRequest = s.astRequest := rfl
@[simp] theorem setPhysBytes_inSwitchWindow (s : State) (pas : List Word) (bs : List Byte) : (setPhysBytes s pas bs).inSwitchWindow = s.inSwitchWindow := rfl
@[simp] theorem setPhysBytes_afterLdpctx (s : State) (pas : List Word) (bs : List Byte) : (setPhysBytes s pas bs).afterLdpctx = s.afterLdpctx := rfl
@[simp] theorem setPhysBytes_loadedPcb (s : State) (pas : List Word) (bs : List Byte) : (setPhysBytes s pas bs).loadedPcb = s.loadedPcb := rfl
@[simp] theorem setPhysBytes_tbEvents (s : State) (pas : List Word) (bs : List Byte) : (setPhysBytes s pas bs).tbEvents = s.tbEvents := rfl
@[simp] theorem setPhysBytes_draws (s : State) (pas : List Word) (bs : List Byte) : (setPhysBytes s pas bs).draws = s.draws := rfl
@[simp] theorem getReg_setPhysBytes (s : State) (pas : List Word) (bs : List Byte) (q : Reg) : getReg (setPhysBytes s pas bs) q = getReg s q := rfl
@[simp] theorem setPhysBytes_mode (s : State) (pas : List Word) (bs : List Byte) : (setPhysBytes s pas bs).mode = s.mode := rfl

/-! ## Stores in the PCB -/

@[simp] theorem pcbWriteAll_cfg (s : State) (l : List (Word × Word)) : (pcbWriteAll s l).cfg = s.cfg := rfl
@[simp] theorem pcbWriteAll_x (s : State) (l : List (Word × Word)) : (pcbWriteAll s l).x = s.x := rfl
@[simp] theorem pcbWriteAll_psl (s : State) (l : List (Word × Word)) : (pcbWriteAll s l).psl = s.psl := rfl
@[simp] theorem pcbWriteAll_isp (s : State) (l : List (Word × Word)) : (pcbWriteAll s l).isp = s.isp := rfl
@[simp] theorem pcbWriteAll_spSlot (s : State) (l : List (Word × Word)) : (pcbWriteAll s l).spSlot = s.spSlot := rfl
@[simp] theorem pcbWriteAll_map (s : State) (l : List (Word × Word)) : (pcbWriteAll s l).map = s.map := rfl
@[simp] theorem pcbWriteAll_vecMap (s : State) (l : List (Word × Word)) : (pcbWriteAll s l).vecMap = s.vecMap := rfl
@[simp] theorem pcbWriteAll_pcbb (s : State) (l : List (Word × Word)) : (pcbWriteAll s l).pcbb = s.pcbb := rfl
@[simp] theorem pcbWriteAll_scbb (s : State) (l : List (Word × Word)) : (pcbWriteAll s l).scbb = s.scbb := rfl
@[simp] theorem pcbWriteAll_astlvl (s : State) (l : List (Word × Word)) : (pcbWriteAll s l).astlvl = s.astlvl := rfl
@[simp] theorem pcbWriteAll_pme (s : State) (l : List (Word × Word)) : (pcbWriteAll s l).pme = s.pme := rfl
@[simp] theorem pcbWriteAll_asn (s : State) (l : List (Word × Word)) : (pcbWriteAll s l).asn = s.asn := rfl
@[simp] theorem pcbWriteAll_cpuid (s : State) (l : List (Word × Word)) : (pcbWriteAll s l).cpuid = s.cpuid := rfl
@[simp] theorem pcbWriteAll_vmpsl (s : State) (l : List (Word × Word)) : (pcbWriteAll s l).vmpsl = s.vmpsl := rfl
@[simp] theorem pcbWriteAll_v (s : State) (l : List (Word × Word)) : (pcbWriteAll s l).v = s.v := rfl
@[simp] theorem pcbWriteAll_vlr (s : State) (l : List (Word × Word)) : (pcbWriteAll s l).vlr = s.vlr := rfl
@[simp] theorem pcbWriteAll_vmr (s : State) (l : List (Word × Word)) : (pcbWriteAll s l).vmr = s.vmr := rfl
@[simp] theorem pcbWriteAll_vcr (s : State) (l : List (Word × Word)) : (pcbWriteAll s l).vcr = s.vcr := rfl
@[simp] theorem pcbWriteAll_vpsr (s : State) (l : List (Word × Word)) : (pcbWriteAll s l).vpsr = s.vpsr := rfl
@[simp] theorem pcbWriteAll_vaer (s : State) (l : List (Word × Word)) : (pcbWriteAll s l).vaer = s.vaer := rfl
@[simp] theorem pcbWriteAll_vsar (s : State) (l : List (Word × Word)) : (pcbWriteAll s l).vsar = s.vsar := rfl
@[simp] theorem pcbWriteAll_astRequest (s : State) (l : List (Word × Word)) : (pcbWriteAll s l).astRequest = s.astRequest := rfl
@[simp] theorem pcbWriteAll_inSwitchWindow (s : State) (l : List (Word × Word)) : (pcbWriteAll s l).inSwitchWindow = s.inSwitchWindow := rfl
@[simp] theorem pcbWriteAll_afterLdpctx (s : State) (l : List (Word × Word)) : (pcbWriteAll s l).afterLdpctx = s.afterLdpctx := rfl
@[simp] theorem pcbWriteAll_loadedPcb (s : State) (l : List (Word × Word)) : (pcbWriteAll s l).loadedPcb = s.loadedPcb := rfl
@[simp] theorem pcbWriteAll_tbEvents (s : State) (l : List (Word × Word)) : (pcbWriteAll s l).tbEvents = s.tbEvents := rfl
@[simp] theorem pcbWriteAll_draws (s : State) (l : List (Word × Word)) : (pcbWriteAll s l).draws = s.draws := rfl
@[simp] theorem getReg_pcbWriteAll (s : State) (l : List (Word × Word)) (q : Reg) : getReg (pcbWriteAll s l) q = getReg s q := rfl
@[simp] theorem pcbWriteAll_mode (s : State) (l : List (Word × Word)) : (pcbWriteAll s l).mode = s.mode := rfl

/-! ## The AST check -/

@[simp] theorem astCheck_cfg (s : State) : (astCheck s).cfg = s.cfg := rfl
@[simp] theorem astCheck_x (s : State) : (astCheck s).x = s.x := rfl
@[simp] theorem astCheck_psl (s : State) : (astCheck s).psl = s.psl := rfl
@[simp] theorem astCheck_isp (s : State) : (astCheck s).isp = s.isp := rfl
@[simp] theorem astCheck_spSlot (s : State) : (astCheck s).spSlot = s.spSlot := rfl
@[simp] theorem astCheck_map (s : State) : (astCheck s).map = s.map := rfl
@[simp] theorem astCheck_vecMap (s : State) : (astCheck s).vecMap = s.vecMap := rfl
@[simp] theorem astCheck_pcbb (s : State) : (astCheck s).pcbb = s.pcbb := rfl
@[simp] theorem astCheck_scbb (s : State) : (astCheck s).scbb = s.scbb := rfl
@[simp] theorem astCheck_astlvl (s : State) : (astCheck s).astlvl = s.astlvl := rfl
@[simp] theorem astCheck_pme (s : State) : (astCheck s).pme = s.pme := rfl
@[simp] theorem astCheck_asn (s : State) : (astCheck s).asn = s.asn := rfl
@[simp] theorem astCheck_cpuid (s : State) : (astCheck s).cpuid = s.cpuid := rfl
@[simp] theorem astCheck_vmpsl (s : State) : (astCheck s).vmpsl = s.vmpsl := rfl
@[simp] theorem astCheck_v (s : State) : (astCheck s).v = s.v := rfl
@[simp] theorem astCheck_vlr (s : State) : (astCheck s).vlr = s.vlr := rfl
@[simp] theorem astCheck_vmr (s : State) : (astCheck s).vmr = s.vmr := rfl
@[simp] theorem astCheck_vcr (s : State) : (astCheck s).vcr = s.vcr := rfl
@[simp] theorem astCheck_vpsr (s : State) : (astCheck s).vpsr = s.vpsr := rfl
@[simp] theorem astCheck_vaer (s : State) : (astCheck s).vaer = s.vaer := rfl
@[simp] theorem astCheck_vsar (s : State) : (astCheck s).vsar = s.vsar := rfl
@[simp] theorem astCheck_inSwitchWindow (s : State) : (astCheck s).inSwitchWindow = s.inSwitchWindow := rfl
@[simp] theorem astCheck_afterLdpctx (s : State) : (astCheck s).afterLdpctx = s.afterLdpctx := rfl
@[simp] theorem astCheck_loadedPcb (s : State) : (astCheck s).loadedPcb = s.loadedPcb := rfl
@[simp] theorem astCheck_written (s : State) : (astCheck s).written = s.written := rfl
@[simp] theorem astCheck_mem (s : State) : (astCheck s).mem = s.mem := rfl
@[simp] theorem astCheck_tbEvents (s : State) : (astCheck s).tbEvents = s.tbEvents := rfl
@[simp] theorem astCheck_draws (s : State) : (astCheck s).draws = s.draws := rfl
@[simp] theorem getReg_astCheck (s : State) (q : Reg) : getReg (astCheck s) q = getReg s q := rfl
@[simp] theorem astCheck_mode (s : State) : (astCheck s).mode = s.mode := rfl

/-! ## The condition codes of MTPR and MFPR -/

@[simp] theorem drawCc_cfg (s : State) : (drawCc s).cfg = s.cfg := rfl
@[simp] theorem drawCc_x (s : State) : (drawCc s).x = s.x := rfl
@[simp] theorem drawCc_isp (s : State) : (drawCc s).isp = s.isp := rfl
@[simp] theorem drawCc_spSlot (s : State) : (drawCc s).spSlot = s.spSlot := rfl
@[simp] theorem drawCc_map (s : State) : (drawCc s).map = s.map := rfl
@[simp] theorem drawCc_vecMap (s : State) : (drawCc s).vecMap = s.vecMap := rfl
@[simp] theorem drawCc_pcbb (s : State) : (drawCc s).pcbb = s.pcbb := rfl
@[simp] theorem drawCc_scbb (s : State) : (drawCc s).scbb = s.scbb := rfl
@[simp] theorem drawCc_astlvl (s : State) : (drawCc s).astlvl = s.astlvl := rfl
@[simp] theorem drawCc_pme (s : State) : (drawCc s).pme = s.pme := rfl
@[simp] theorem drawCc_asn (s : State) : (drawCc s).asn = s.asn := rfl
@[simp] theorem drawCc_cpuid (s : State) : (drawCc s).cpuid = s.cpuid := rfl
@[simp] theorem drawCc_vmpsl (s : State) : (drawCc s).vmpsl = s.vmpsl := rfl
@[simp] theorem drawCc_v (s : State) : (drawCc s).v = s.v := rfl
@[simp] theorem drawCc_vlr (s : State) : (drawCc s).vlr = s.vlr := rfl
@[simp] theorem drawCc_vmr (s : State) : (drawCc s).vmr = s.vmr := rfl
@[simp] theorem drawCc_vcr (s : State) : (drawCc s).vcr = s.vcr := rfl
@[simp] theorem drawCc_vpsr (s : State) : (drawCc s).vpsr = s.vpsr := rfl
@[simp] theorem drawCc_vaer (s : State) : (drawCc s).vaer = s.vaer := rfl
@[simp] theorem drawCc_vsar (s : State) : (drawCc s).vsar = s.vsar := rfl
@[simp] theorem drawCc_astRequest (s : State) : (drawCc s).astRequest = s.astRequest := rfl
@[simp] theorem drawCc_inSwitchWindow (s : State) : (drawCc s).inSwitchWindow = s.inSwitchWindow := rfl
@[simp] theorem drawCc_afterLdpctx (s : State) : (drawCc s).afterLdpctx = s.afterLdpctx := rfl
@[simp] theorem drawCc_loadedPcb (s : State) : (drawCc s).loadedPcb = s.loadedPcb := rfl
@[simp] theorem drawCc_written (s : State) : (drawCc s).written = s.written := rfl
@[simp] theorem drawCc_mem (s : State) : (drawCc s).mem = s.mem := rfl
@[simp] theorem drawCc_tbEvents (s : State) : (drawCc s).tbEvents = s.tbEvents := rfl
@[simp] theorem drawCc_draws (s : State) : (drawCc s).draws = s.draws := rfl
@[simp] theorem getReg_drawCc (s : State) (q : Reg) : getReg (drawCc s) q = getReg s q := rfl

/-! ## The record of a TB event -/

@[simp] theorem tbEvent_cfg (s : State) (e : TbEvent) : (tbEvent s e).cfg = s.cfg := rfl
@[simp] theorem tbEvent_x (s : State) (e : TbEvent) : (tbEvent s e).x = s.x := rfl
@[simp] theorem tbEvent_psl (s : State) (e : TbEvent) : (tbEvent s e).psl = s.psl := rfl
@[simp] theorem tbEvent_isp (s : State) (e : TbEvent) : (tbEvent s e).isp = s.isp := rfl
@[simp] theorem tbEvent_spSlot (s : State) (e : TbEvent) : (tbEvent s e).spSlot = s.spSlot := rfl
@[simp] theorem tbEvent_map (s : State) (e : TbEvent) : (tbEvent s e).map = s.map := rfl
@[simp] theorem tbEvent_vecMap (s : State) (e : TbEvent) : (tbEvent s e).vecMap = s.vecMap := rfl
@[simp] theorem tbEvent_pcbb (s : State) (e : TbEvent) : (tbEvent s e).pcbb = s.pcbb := rfl
@[simp] theorem tbEvent_scbb (s : State) (e : TbEvent) : (tbEvent s e).scbb = s.scbb := rfl
@[simp] theorem tbEvent_astlvl (s : State) (e : TbEvent) : (tbEvent s e).astlvl = s.astlvl := rfl
@[simp] theorem tbEvent_pme (s : State) (e : TbEvent) : (tbEvent s e).pme = s.pme := rfl
@[simp] theorem tbEvent_asn (s : State) (e : TbEvent) : (tbEvent s e).asn = s.asn := rfl
@[simp] theorem tbEvent_cpuid (s : State) (e : TbEvent) : (tbEvent s e).cpuid = s.cpuid := rfl
@[simp] theorem tbEvent_vmpsl (s : State) (e : TbEvent) : (tbEvent s e).vmpsl = s.vmpsl := rfl
@[simp] theorem tbEvent_v (s : State) (e : TbEvent) : (tbEvent s e).v = s.v := rfl
@[simp] theorem tbEvent_vlr (s : State) (e : TbEvent) : (tbEvent s e).vlr = s.vlr := rfl
@[simp] theorem tbEvent_vmr (s : State) (e : TbEvent) : (tbEvent s e).vmr = s.vmr := rfl
@[simp] theorem tbEvent_vcr (s : State) (e : TbEvent) : (tbEvent s e).vcr = s.vcr := rfl
@[simp] theorem tbEvent_vpsr (s : State) (e : TbEvent) : (tbEvent s e).vpsr = s.vpsr := rfl
@[simp] theorem tbEvent_vaer (s : State) (e : TbEvent) : (tbEvent s e).vaer = s.vaer := rfl
@[simp] theorem tbEvent_vsar (s : State) (e : TbEvent) : (tbEvent s e).vsar = s.vsar := rfl
@[simp] theorem tbEvent_astRequest (s : State) (e : TbEvent) : (tbEvent s e).astRequest = s.astRequest := rfl
@[simp] theorem tbEvent_inSwitchWindow (s : State) (e : TbEvent) : (tbEvent s e).inSwitchWindow = s.inSwitchWindow := rfl
@[simp] theorem tbEvent_afterLdpctx (s : State) (e : TbEvent) : (tbEvent s e).afterLdpctx = s.afterLdpctx := rfl
@[simp] theorem tbEvent_loadedPcb (s : State) (e : TbEvent) : (tbEvent s e).loadedPcb = s.loadedPcb := rfl
@[simp] theorem tbEvent_written (s : State) (e : TbEvent) : (tbEvent s e).written = s.written := rfl
@[simp] theorem tbEvent_mem (s : State) (e : TbEvent) : (tbEvent s e).mem = s.mem := rfl
@[simp] theorem tbEvent_draws (s : State) (e : TbEvent) : (tbEvent s e).draws = s.draws := rfl
@[simp] theorem getReg_tbEvent (s : State) (e : TbEvent) (q : Reg) : getReg (tbEvent s e) q = getReg s q := rfl
@[simp] theorem tbEvent_mode (s : State) (e : TbEvent) : (tbEvent s e).mode = s.mode := rfl

/-! ## The write of a stack pointer register's cell -/

@[simp] theorem setSlot_cfg (s : State) (slot : Option (Fin 4)) (w : Word) : (setSlot s slot w).cfg = s.cfg := by cases slot <;> rfl
@[simp] theorem setSlot_x (s : State) (slot : Option (Fin 4)) (w : Word) : (setSlot s slot w).x = s.x := by cases slot <;> rfl
@[simp] theorem setSlot_psl (s : State) (slot : Option (Fin 4)) (w : Word) : (setSlot s slot w).psl = s.psl := by cases slot <;> rfl
@[simp] theorem setSlot_map (s : State) (slot : Option (Fin 4)) (w : Word) : (setSlot s slot w).map = s.map := by cases slot <;> rfl
@[simp] theorem setSlot_vecMap (s : State) (slot : Option (Fin 4)) (w : Word) : (setSlot s slot w).vecMap = s.vecMap := by cases slot <;> rfl
@[simp] theorem setSlot_pcbb (s : State) (slot : Option (Fin 4)) (w : Word) : (setSlot s slot w).pcbb = s.pcbb := by cases slot <;> rfl
@[simp] theorem setSlot_scbb (s : State) (slot : Option (Fin 4)) (w : Word) : (setSlot s slot w).scbb = s.scbb := by cases slot <;> rfl
@[simp] theorem setSlot_astlvl (s : State) (slot : Option (Fin 4)) (w : Word) : (setSlot s slot w).astlvl = s.astlvl := by cases slot <;> rfl
@[simp] theorem setSlot_pme (s : State) (slot : Option (Fin 4)) (w : Word) : (setSlot s slot w).pme = s.pme := by cases slot <;> rfl
@[simp] theorem setSlot_asn (s : State) (slot : Option (Fin 4)) (w : Word) : (setSlot s slot w).asn = s.asn := by cases slot <;> rfl
@[simp] theorem setSlot_cpuid (s : State) (slot : Option (Fin 4)) (w : Word) : (setSlot s slot w).cpuid = s.cpuid := by cases slot <;> rfl
@[simp] theorem setSlot_vmpsl (s : State) (slot : Option (Fin 4)) (w : Word) : (setSlot s slot w).vmpsl = s.vmpsl := by cases slot <;> rfl
@[simp] theorem setSlot_v (s : State) (slot : Option (Fin 4)) (w : Word) : (setSlot s slot w).v = s.v := by cases slot <;> rfl
@[simp] theorem setSlot_vlr (s : State) (slot : Option (Fin 4)) (w : Word) : (setSlot s slot w).vlr = s.vlr := by cases slot <;> rfl
@[simp] theorem setSlot_vmr (s : State) (slot : Option (Fin 4)) (w : Word) : (setSlot s slot w).vmr = s.vmr := by cases slot <;> rfl
@[simp] theorem setSlot_vcr (s : State) (slot : Option (Fin 4)) (w : Word) : (setSlot s slot w).vcr = s.vcr := by cases slot <;> rfl
@[simp] theorem setSlot_vpsr (s : State) (slot : Option (Fin 4)) (w : Word) : (setSlot s slot w).vpsr = s.vpsr := by cases slot <;> rfl
@[simp] theorem setSlot_vaer (s : State) (slot : Option (Fin 4)) (w : Word) : (setSlot s slot w).vaer = s.vaer := by cases slot <;> rfl
@[simp] theorem setSlot_vsar (s : State) (slot : Option (Fin 4)) (w : Word) : (setSlot s slot w).vsar = s.vsar := by cases slot <;> rfl
@[simp] theorem setSlot_astRequest (s : State) (slot : Option (Fin 4)) (w : Word) : (setSlot s slot w).astRequest = s.astRequest := by cases slot <;> rfl
@[simp] theorem setSlot_inSwitchWindow (s : State) (slot : Option (Fin 4)) (w : Word) : (setSlot s slot w).inSwitchWindow = s.inSwitchWindow := by cases slot <;> rfl
@[simp] theorem setSlot_afterLdpctx (s : State) (slot : Option (Fin 4)) (w : Word) : (setSlot s slot w).afterLdpctx = s.afterLdpctx := by cases slot <;> rfl
@[simp] theorem setSlot_loadedPcb (s : State) (slot : Option (Fin 4)) (w : Word) : (setSlot s slot w).loadedPcb = s.loadedPcb := by cases slot <;> rfl
@[simp] theorem setSlot_written (s : State) (slot : Option (Fin 4)) (w : Word) : (setSlot s slot w).written = s.written := by cases slot <;> rfl
@[simp] theorem setSlot_mem (s : State) (slot : Option (Fin 4)) (w : Word) : (setSlot s slot w).mem = s.mem := by cases slot <;> rfl
@[simp] theorem setSlot_tbEvents (s : State) (slot : Option (Fin 4)) (w : Word) : (setSlot s slot w).tbEvents = s.tbEvents := by cases slot <;> rfl
@[simp] theorem setSlot_draws (s : State) (slot : Option (Fin 4)) (w : Word) : (setSlot s slot w).draws = s.draws := by cases slot <;> rfl
@[simp] theorem getReg_setSlot (s : State) (slot : Option (Fin 4)) (w : Word) (q : Reg) : getReg (setSlot s slot w) q = getReg s q := by cases slot <;> rfl
@[simp] theorem setSlot_mode (s : State) (slot : Option (Fin 4)) (w : Word) : (setSlot s slot w).mode = s.mode := by cases slot <;> rfl

/-! ## VPSR<RST> -/

@[simp] theorem vpsrReset_cfg (s : State) : (vpsrReset s).cfg = s.cfg := rfl
@[simp] theorem vpsrReset_x (s : State) : (vpsrReset s).x = s.x := rfl
@[simp] theorem vpsrReset_psl (s : State) : (vpsrReset s).psl = s.psl := rfl
@[simp] theorem vpsrReset_isp (s : State) : (vpsrReset s).isp = s.isp := rfl
@[simp] theorem vpsrReset_spSlot (s : State) : (vpsrReset s).spSlot = s.spSlot := rfl
@[simp] theorem vpsrReset_map (s : State) : (vpsrReset s).map = s.map := rfl
@[simp] theorem vpsrReset_vecMap (s : State) : (vpsrReset s).vecMap = s.vecMap := rfl
@[simp] theorem vpsrReset_pcbb (s : State) : (vpsrReset s).pcbb = s.pcbb := rfl
@[simp] theorem vpsrReset_scbb (s : State) : (vpsrReset s).scbb = s.scbb := rfl
@[simp] theorem vpsrReset_astlvl (s : State) : (vpsrReset s).astlvl = s.astlvl := rfl
@[simp] theorem vpsrReset_pme (s : State) : (vpsrReset s).pme = s.pme := rfl
@[simp] theorem vpsrReset_asn (s : State) : (vpsrReset s).asn = s.asn := rfl
@[simp] theorem vpsrReset_cpuid (s : State) : (vpsrReset s).cpuid = s.cpuid := rfl
@[simp] theorem vpsrReset_vmpsl (s : State) : (vpsrReset s).vmpsl = s.vmpsl := rfl
@[simp] theorem vpsrReset_v (s : State) : (vpsrReset s).v = s.v := rfl
@[simp] theorem vpsrReset_vlr (s : State) : (vpsrReset s).vlr = s.vlr := rfl
@[simp] theorem vpsrReset_vmr (s : State) : (vpsrReset s).vmr = s.vmr := rfl
@[simp] theorem vpsrReset_vcr (s : State) : (vpsrReset s).vcr = s.vcr := rfl
@[simp] theorem vpsrReset_vsar (s : State) : (vpsrReset s).vsar = s.vsar := rfl
@[simp] theorem vpsrReset_astRequest (s : State) : (vpsrReset s).astRequest = s.astRequest := rfl
@[simp] theorem vpsrReset_inSwitchWindow (s : State) : (vpsrReset s).inSwitchWindow = s.inSwitchWindow := rfl
@[simp] theorem vpsrReset_afterLdpctx (s : State) : (vpsrReset s).afterLdpctx = s.afterLdpctx := rfl
@[simp] theorem vpsrReset_loadedPcb (s : State) : (vpsrReset s).loadedPcb = s.loadedPcb := rfl
@[simp] theorem vpsrReset_written (s : State) : (vpsrReset s).written = s.written := rfl
@[simp] theorem vpsrReset_mem (s : State) : (vpsrReset s).mem = s.mem := rfl
@[simp] theorem vpsrReset_tbEvents (s : State) : (vpsrReset s).tbEvents = s.tbEvents := rfl
@[simp] theorem vpsrReset_draws (s : State) : (vpsrReset s).draws = s.draws := rfl
@[simp] theorem getReg_vpsrReset (s : State) (q : Reg) : getReg (vpsrReset s) q = getReg s q := rfl
@[simp] theorem vpsrReset_mode (s : State) : (vpsrReset s).mode = s.mode := rfl

/-! ## The write of VPSR's stored bits -/

@[simp] theorem vpsrBits_cfg (s : State) (w : Word) : (vpsrBits s w).cfg = s.cfg := rfl
@[simp] theorem vpsrBits_x (s : State) (w : Word) : (vpsrBits s w).x = s.x := rfl
@[simp] theorem vpsrBits_psl (s : State) (w : Word) : (vpsrBits s w).psl = s.psl := rfl
@[simp] theorem vpsrBits_isp (s : State) (w : Word) : (vpsrBits s w).isp = s.isp := rfl
@[simp] theorem vpsrBits_spSlot (s : State) (w : Word) : (vpsrBits s w).spSlot = s.spSlot := rfl
@[simp] theorem vpsrBits_map (s : State) (w : Word) : (vpsrBits s w).map = s.map := rfl
@[simp] theorem vpsrBits_vecMap (s : State) (w : Word) : (vpsrBits s w).vecMap = s.vecMap := rfl
@[simp] theorem vpsrBits_pcbb (s : State) (w : Word) : (vpsrBits s w).pcbb = s.pcbb := rfl
@[simp] theorem vpsrBits_scbb (s : State) (w : Word) : (vpsrBits s w).scbb = s.scbb := rfl
@[simp] theorem vpsrBits_astlvl (s : State) (w : Word) : (vpsrBits s w).astlvl = s.astlvl := rfl
@[simp] theorem vpsrBits_pme (s : State) (w : Word) : (vpsrBits s w).pme = s.pme := rfl
@[simp] theorem vpsrBits_asn (s : State) (w : Word) : (vpsrBits s w).asn = s.asn := rfl
@[simp] theorem vpsrBits_cpuid (s : State) (w : Word) : (vpsrBits s w).cpuid = s.cpuid := rfl
@[simp] theorem vpsrBits_vmpsl (s : State) (w : Word) : (vpsrBits s w).vmpsl = s.vmpsl := rfl
@[simp] theorem vpsrBits_v (s : State) (w : Word) : (vpsrBits s w).v = s.v := rfl
@[simp] theorem vpsrBits_vlr (s : State) (w : Word) : (vpsrBits s w).vlr = s.vlr := rfl
@[simp] theorem vpsrBits_vmr (s : State) (w : Word) : (vpsrBits s w).vmr = s.vmr := rfl
@[simp] theorem vpsrBits_vcr (s : State) (w : Word) : (vpsrBits s w).vcr = s.vcr := rfl
@[simp] theorem vpsrBits_vsar (s : State) (w : Word) : (vpsrBits s w).vsar = s.vsar := rfl
@[simp] theorem vpsrBits_astRequest (s : State) (w : Word) : (vpsrBits s w).astRequest = s.astRequest := rfl
@[simp] theorem vpsrBits_inSwitchWindow (s : State) (w : Word) : (vpsrBits s w).inSwitchWindow = s.inSwitchWindow := rfl
@[simp] theorem vpsrBits_afterLdpctx (s : State) (w : Word) : (vpsrBits s w).afterLdpctx = s.afterLdpctx := rfl
@[simp] theorem vpsrBits_loadedPcb (s : State) (w : Word) : (vpsrBits s w).loadedPcb = s.loadedPcb := rfl
@[simp] theorem vpsrBits_written (s : State) (w : Word) : (vpsrBits s w).written = s.written := rfl
@[simp] theorem vpsrBits_mem (s : State) (w : Word) : (vpsrBits s w).mem = s.mem := rfl
@[simp] theorem vpsrBits_tbEvents (s : State) (w : Word) : (vpsrBits s w).tbEvents = s.tbEvents := rfl
@[simp] theorem vpsrBits_draws (s : State) (w : Word) : (vpsrBits s w).draws = s.draws := rfl
@[simp] theorem getReg_vpsrBits (s : State) (w : Word) (q : Reg) : getReg (vpsrBits s w) q = getReg s q := rfl
@[simp] theorem vpsrBits_mode (s : State) (w : Word) : (vpsrBits s w).mode = s.mode := rfl

/-! ## The loads of LDPCTX -/

@[simp] theorem ldpctxLoad_cfg (s : State) : (ldpctxLoad s).cfg = s.cfg := by simp only [ldpctxLoad]
@[simp] theorem ldpctxLoad_psl (s : State) : (ldpctxLoad s).psl = s.psl := by simp only [ldpctxLoad]
@[simp] theorem ldpctxLoad_isp (s : State) : (ldpctxLoad s).isp = s.isp := by simp only [ldpctxLoad]
@[simp] theorem ldpctxLoad_vecMap (s : State) : (ldpctxLoad s).vecMap = s.vecMap := by simp only [ldpctxLoad]
@[simp] theorem ldpctxLoad_pcbb (s : State) : (ldpctxLoad s).pcbb = s.pcbb := by simp only [ldpctxLoad]
@[simp] theorem ldpctxLoad_scbb (s : State) : (ldpctxLoad s).scbb = s.scbb := by simp only [ldpctxLoad]
@[simp] theorem ldpctxLoad_cpuid (s : State) : (ldpctxLoad s).cpuid = s.cpuid := by simp only [ldpctxLoad]
@[simp] theorem ldpctxLoad_vmpsl (s : State) : (ldpctxLoad s).vmpsl = s.vmpsl := by simp only [ldpctxLoad]
@[simp] theorem ldpctxLoad_v (s : State) : (ldpctxLoad s).v = s.v := by simp only [ldpctxLoad]
@[simp] theorem ldpctxLoad_vlr (s : State) : (ldpctxLoad s).vlr = s.vlr := by simp only [ldpctxLoad]
@[simp] theorem ldpctxLoad_vmr (s : State) : (ldpctxLoad s).vmr = s.vmr := by simp only [ldpctxLoad]
@[simp] theorem ldpctxLoad_vcr (s : State) : (ldpctxLoad s).vcr = s.vcr := by simp only [ldpctxLoad]
@[simp] theorem ldpctxLoad_vpsr (s : State) : (ldpctxLoad s).vpsr = s.vpsr := by simp only [ldpctxLoad]
@[simp] theorem ldpctxLoad_vaer (s : State) : (ldpctxLoad s).vaer = s.vaer := by simp only [ldpctxLoad]
@[simp] theorem ldpctxLoad_vsar (s : State) : (ldpctxLoad s).vsar = s.vsar := by simp only [ldpctxLoad]
@[simp] theorem ldpctxLoad_astRequest (s : State) : (ldpctxLoad s).astRequest = s.astRequest := by simp only [ldpctxLoad]
@[simp] theorem ldpctxLoad_inSwitchWindow (s : State) : (ldpctxLoad s).inSwitchWindow = s.inSwitchWindow := by simp only [ldpctxLoad]
@[simp] theorem ldpctxLoad_afterLdpctx (s : State) : (ldpctxLoad s).afterLdpctx = s.afterLdpctx := by simp only [ldpctxLoad]
@[simp] theorem ldpctxLoad_loadedPcb (s : State) : (ldpctxLoad s).loadedPcb = s.loadedPcb := by simp only [ldpctxLoad]
@[simp] theorem ldpctxLoad_written (s : State) : (ldpctxLoad s).written = s.written := by simp only [ldpctxLoad]
@[simp] theorem ldpctxLoad_mem (s : State) : (ldpctxLoad s).mem = s.mem := by simp only [ldpctxLoad]
@[simp] theorem ldpctxLoad_draws (s : State) : (ldpctxLoad s).draws = s.draws := by simp only [ldpctxLoad]
@[simp] theorem ldpctxLoad_mode (s : State) : (ldpctxLoad s).mode = s.mode := by simp only [State.mode, ldpctxLoad_psl]

@[simp] theorem ldpctxLoad_x (s : State) : (ldpctxLoad s).x = pcbGprs s := rfl
@[simp] theorem ldpctxLoad_spSlot (s : State) :
    (ldpctxLoad s).spSlot = s.cfg.pcb.sp.map (pcbRead s) := rfl
@[simp] theorem ldpctxLoad_map (s : State) : (ldpctxLoad s).map = pcbMap s := rfl
@[simp] theorem ldpctxLoad_astlvl (s : State) : (ldpctxLoad s).astlvl = pcbAstlvl s := rfl
@[simp] theorem ldpctxLoad_pme (s : State) : (ldpctxLoad s).pme = pcbPme s := rfl
@[simp] theorem ldpctxLoad_asn (s : State) : (ldpctxLoad s).asn = pcbAsn s := rfl
@[simp] theorem ldpctxLoad_tbEvents (s : State) :
    (ldpctxLoad s).tbEvents = ldpctxFlush s (pcbAsn s) ++ s.tbEvents := rfl

/-! ## SVPCTX's switch of stack -/

@[simp] theorem toInterruptStack_cfg (s : State) : (toInterruptStack s).cfg = s.cfg := by unfold toInterruptStack; split <;> rfl
@[simp] theorem toInterruptStack_map (s : State) : (toInterruptStack s).map = s.map := by unfold toInterruptStack; split <;> rfl
@[simp] theorem toInterruptStack_vecMap (s : State) : (toInterruptStack s).vecMap = s.vecMap := by unfold toInterruptStack; split <;> rfl
@[simp] theorem toInterruptStack_pcbb (s : State) : (toInterruptStack s).pcbb = s.pcbb := by unfold toInterruptStack; split <;> rfl
@[simp] theorem toInterruptStack_scbb (s : State) : (toInterruptStack s).scbb = s.scbb := by unfold toInterruptStack; split <;> rfl
@[simp] theorem toInterruptStack_astlvl (s : State) : (toInterruptStack s).astlvl = s.astlvl := by unfold toInterruptStack; split <;> rfl
@[simp] theorem toInterruptStack_pme (s : State) : (toInterruptStack s).pme = s.pme := by unfold toInterruptStack; split <;> rfl
@[simp] theorem toInterruptStack_asn (s : State) : (toInterruptStack s).asn = s.asn := by unfold toInterruptStack; split <;> rfl
@[simp] theorem toInterruptStack_cpuid (s : State) : (toInterruptStack s).cpuid = s.cpuid := by unfold toInterruptStack; split <;> rfl
@[simp] theorem toInterruptStack_vmpsl (s : State) : (toInterruptStack s).vmpsl = s.vmpsl := by unfold toInterruptStack; split <;> rfl
@[simp] theorem toInterruptStack_v (s : State) : (toInterruptStack s).v = s.v := by unfold toInterruptStack; split <;> rfl
@[simp] theorem toInterruptStack_vlr (s : State) : (toInterruptStack s).vlr = s.vlr := by unfold toInterruptStack; split <;> rfl
@[simp] theorem toInterruptStack_vmr (s : State) : (toInterruptStack s).vmr = s.vmr := by unfold toInterruptStack; split <;> rfl
@[simp] theorem toInterruptStack_vcr (s : State) : (toInterruptStack s).vcr = s.vcr := by unfold toInterruptStack; split <;> rfl
@[simp] theorem toInterruptStack_vpsr (s : State) : (toInterruptStack s).vpsr = s.vpsr := by unfold toInterruptStack; split <;> rfl
@[simp] theorem toInterruptStack_vaer (s : State) : (toInterruptStack s).vaer = s.vaer := by unfold toInterruptStack; split <;> rfl
@[simp] theorem toInterruptStack_vsar (s : State) : (toInterruptStack s).vsar = s.vsar := by unfold toInterruptStack; split <;> rfl
@[simp] theorem toInterruptStack_astRequest (s : State) : (toInterruptStack s).astRequest = s.astRequest := by unfold toInterruptStack; split <;> rfl
@[simp] theorem toInterruptStack_inSwitchWindow (s : State) : (toInterruptStack s).inSwitchWindow = s.inSwitchWindow := by unfold toInterruptStack; split <;> rfl
@[simp] theorem toInterruptStack_afterLdpctx (s : State) : (toInterruptStack s).afterLdpctx = s.afterLdpctx := by unfold toInterruptStack; split <;> rfl
@[simp] theorem toInterruptStack_loadedPcb (s : State) : (toInterruptStack s).loadedPcb = s.loadedPcb := by unfold toInterruptStack; split <;> rfl
@[simp] theorem toInterruptStack_written (s : State) : (toInterruptStack s).written = s.written := by unfold toInterruptStack; split <;> rfl
@[simp] theorem toInterruptStack_mem (s : State) : (toInterruptStack s).mem = s.mem := by unfold toInterruptStack; split <;> rfl
@[simp] theorem toInterruptStack_tbEvents (s : State) : (toInterruptStack s).tbEvents = s.tbEvents := by unfold toInterruptStack; split <;> rfl
@[simp] theorem toInterruptStack_draws (s : State) : (toInterruptStack s).draws = s.draws := by unfold toInterruptStack; split <;> rfl

/-! ## SVPCTX's first stores and switch of stack -/

@[simp] theorem svpctxLeave_cfg (s : State) (a b : Word) : (svpctxLeave s a b).cfg = s.cfg := by simp only [svpctxLeave, toInterruptStack_cfg, setReg_cfg, pcbWriteAll_cfg]
@[simp] theorem svpctxLeave_map (s : State) (a b : Word) : (svpctxLeave s a b).map = s.map := by simp only [svpctxLeave, toInterruptStack_map, setReg_map, pcbWriteAll_map]
@[simp] theorem svpctxLeave_vecMap (s : State) (a b : Word) : (svpctxLeave s a b).vecMap = s.vecMap := by simp only [svpctxLeave, toInterruptStack_vecMap, setReg_vecMap, pcbWriteAll_vecMap]
@[simp] theorem svpctxLeave_pcbb (s : State) (a b : Word) : (svpctxLeave s a b).pcbb = s.pcbb := by simp only [svpctxLeave, toInterruptStack_pcbb, setReg_pcbb, pcbWriteAll_pcbb]
@[simp] theorem svpctxLeave_scbb (s : State) (a b : Word) : (svpctxLeave s a b).scbb = s.scbb := by simp only [svpctxLeave, toInterruptStack_scbb, setReg_scbb, pcbWriteAll_scbb]
@[simp] theorem svpctxLeave_astlvl (s : State) (a b : Word) : (svpctxLeave s a b).astlvl = s.astlvl := by simp only [svpctxLeave, toInterruptStack_astlvl, setReg_astlvl, pcbWriteAll_astlvl]
@[simp] theorem svpctxLeave_pme (s : State) (a b : Word) : (svpctxLeave s a b).pme = s.pme := by simp only [svpctxLeave, toInterruptStack_pme, setReg_pme, pcbWriteAll_pme]
@[simp] theorem svpctxLeave_asn (s : State) (a b : Word) : (svpctxLeave s a b).asn = s.asn := by simp only [svpctxLeave, toInterruptStack_asn, setReg_asn, pcbWriteAll_asn]
@[simp] theorem svpctxLeave_cpuid (s : State) (a b : Word) : (svpctxLeave s a b).cpuid = s.cpuid := by simp only [svpctxLeave, toInterruptStack_cpuid, setReg_cpuid, pcbWriteAll_cpuid]
@[simp] theorem svpctxLeave_vmpsl (s : State) (a b : Word) : (svpctxLeave s a b).vmpsl = s.vmpsl := by simp only [svpctxLeave, toInterruptStack_vmpsl, setReg_vmpsl, pcbWriteAll_vmpsl]
@[simp] theorem svpctxLeave_v (s : State) (a b : Word) : (svpctxLeave s a b).v = s.v := by simp only [svpctxLeave, toInterruptStack_v, setReg_v, pcbWriteAll_v]
@[simp] theorem svpctxLeave_vlr (s : State) (a b : Word) : (svpctxLeave s a b).vlr = s.vlr := by simp only [svpctxLeave, toInterruptStack_vlr, setReg_vlr, pcbWriteAll_vlr]
@[simp] theorem svpctxLeave_vmr (s : State) (a b : Word) : (svpctxLeave s a b).vmr = s.vmr := by simp only [svpctxLeave, toInterruptStack_vmr, setReg_vmr, pcbWriteAll_vmr]
@[simp] theorem svpctxLeave_vcr (s : State) (a b : Word) : (svpctxLeave s a b).vcr = s.vcr := by simp only [svpctxLeave, toInterruptStack_vcr, setReg_vcr, pcbWriteAll_vcr]
@[simp] theorem svpctxLeave_vpsr (s : State) (a b : Word) : (svpctxLeave s a b).vpsr = s.vpsr := by simp only [svpctxLeave, toInterruptStack_vpsr, setReg_vpsr, pcbWriteAll_vpsr]
@[simp] theorem svpctxLeave_vaer (s : State) (a b : Word) : (svpctxLeave s a b).vaer = s.vaer := by simp only [svpctxLeave, toInterruptStack_vaer, setReg_vaer, pcbWriteAll_vaer]
@[simp] theorem svpctxLeave_vsar (s : State) (a b : Word) : (svpctxLeave s a b).vsar = s.vsar := by simp only [svpctxLeave, toInterruptStack_vsar, setReg_vsar, pcbWriteAll_vsar]
@[simp] theorem svpctxLeave_astRequest (s : State) (a b : Word) : (svpctxLeave s a b).astRequest = s.astRequest := by simp only [svpctxLeave, toInterruptStack_astRequest, setReg_astRequest, pcbWriteAll_astRequest]
@[simp] theorem svpctxLeave_inSwitchWindow (s : State) (a b : Word) : (svpctxLeave s a b).inSwitchWindow = s.inSwitchWindow := by simp only [svpctxLeave, toInterruptStack_inSwitchWindow, setReg_inSwitchWindow, pcbWriteAll_inSwitchWindow]
@[simp] theorem svpctxLeave_afterLdpctx (s : State) (a b : Word) : (svpctxLeave s a b).afterLdpctx = s.afterLdpctx := by simp only [svpctxLeave, toInterruptStack_afterLdpctx, setReg_afterLdpctx, pcbWriteAll_afterLdpctx]
@[simp] theorem svpctxLeave_loadedPcb (s : State) (a b : Word) : (svpctxLeave s a b).loadedPcb = s.loadedPcb := by simp only [svpctxLeave, toInterruptStack_loadedPcb, setReg_loadedPcb, pcbWriteAll_loadedPcb]
@[simp] theorem svpctxLeave_tbEvents (s : State) (a b : Word) : (svpctxLeave s a b).tbEvents = s.tbEvents := by simp only [svpctxLeave, toInterruptStack_tbEvents, setReg_tbEvents, pcbWriteAll_tbEvents]
@[simp] theorem svpctxLeave_draws (s : State) (a b : Word) : (svpctxLeave s a b).draws = s.draws := by simp only [svpctxLeave, toInterruptStack_draws, setReg_draws, pcbWriteAll_draws]

theorem svpctxLeave_mem (s : State) (a b : Word) : (svpctxLeave s a b).mem = (pcbWriteAll s (svpctxStores s a b)).mem := by
  simp only [svpctxLeave, toInterruptStack_mem, setReg_mem]

theorem svpctxLeave_written (s : State) (a b : Word) :
    (svpctxLeave s a b).written = (pcbWriteAll s (svpctxStores s a b)).written := by
  simp only [svpctxLeave, toInterruptStack_written, setReg_written]

/-! ## LDPCTX's switch of stack -/

@[simp] theorem toKernelStack_cfg (s : State) : (toKernelStack s).cfg = s.cfg := by unfold toKernelStack; split <;> [rfl; (split <;> rfl)]
@[simp] theorem toKernelStack_map (s : State) : (toKernelStack s).map = s.map := by unfold toKernelStack; split <;> [rfl; (split <;> rfl)]
@[simp] theorem toKernelStack_vecMap (s : State) : (toKernelStack s).vecMap = s.vecMap := by unfold toKernelStack; split <;> [rfl; (split <;> rfl)]
@[simp] theorem toKernelStack_pcbb (s : State) : (toKernelStack s).pcbb = s.pcbb := by unfold toKernelStack; split <;> [rfl; (split <;> rfl)]
@[simp] theorem toKernelStack_scbb (s : State) : (toKernelStack s).scbb = s.scbb := by unfold toKernelStack; split <;> [rfl; (split <;> rfl)]
@[simp] theorem toKernelStack_astlvl (s : State) : (toKernelStack s).astlvl = s.astlvl := by unfold toKernelStack; split <;> [rfl; (split <;> rfl)]
@[simp] theorem toKernelStack_pme (s : State) : (toKernelStack s).pme = s.pme := by unfold toKernelStack; split <;> [rfl; (split <;> rfl)]
@[simp] theorem toKernelStack_asn (s : State) : (toKernelStack s).asn = s.asn := by unfold toKernelStack; split <;> [rfl; (split <;> rfl)]
@[simp] theorem toKernelStack_cpuid (s : State) : (toKernelStack s).cpuid = s.cpuid := by unfold toKernelStack; split <;> [rfl; (split <;> rfl)]
@[simp] theorem toKernelStack_vmpsl (s : State) : (toKernelStack s).vmpsl = s.vmpsl := by unfold toKernelStack; split <;> [rfl; (split <;> rfl)]
@[simp] theorem toKernelStack_v (s : State) : (toKernelStack s).v = s.v := by unfold toKernelStack; split <;> [rfl; (split <;> rfl)]
@[simp] theorem toKernelStack_vlr (s : State) : (toKernelStack s).vlr = s.vlr := by unfold toKernelStack; split <;> [rfl; (split <;> rfl)]
@[simp] theorem toKernelStack_vmr (s : State) : (toKernelStack s).vmr = s.vmr := by unfold toKernelStack; split <;> [rfl; (split <;> rfl)]
@[simp] theorem toKernelStack_vcr (s : State) : (toKernelStack s).vcr = s.vcr := by unfold toKernelStack; split <;> [rfl; (split <;> rfl)]
@[simp] theorem toKernelStack_vpsr (s : State) : (toKernelStack s).vpsr = s.vpsr := by unfold toKernelStack; split <;> [rfl; (split <;> rfl)]
@[simp] theorem toKernelStack_vaer (s : State) : (toKernelStack s).vaer = s.vaer := by unfold toKernelStack; split <;> [rfl; (split <;> rfl)]
@[simp] theorem toKernelStack_vsar (s : State) : (toKernelStack s).vsar = s.vsar := by unfold toKernelStack; split <;> [rfl; (split <;> rfl)]
@[simp] theorem toKernelStack_astRequest (s : State) : (toKernelStack s).astRequest = s.astRequest := by unfold toKernelStack; split <;> [rfl; (split <;> rfl)]
@[simp] theorem toKernelStack_inSwitchWindow (s : State) : (toKernelStack s).inSwitchWindow = s.inSwitchWindow := by unfold toKernelStack; split <;> [rfl; (split <;> rfl)]
@[simp] theorem toKernelStack_afterLdpctx (s : State) : (toKernelStack s).afterLdpctx = s.afterLdpctx := by unfold toKernelStack; split <;> [rfl; (split <;> rfl)]
@[simp] theorem toKernelStack_loadedPcb (s : State) : (toKernelStack s).loadedPcb = s.loadedPcb := by unfold toKernelStack; split <;> [rfl; (split <;> rfl)]
@[simp] theorem toKernelStack_written (s : State) : (toKernelStack s).written = s.written := by unfold toKernelStack; split <;> [rfl; (split <;> rfl)]
@[simp] theorem toKernelStack_mem (s : State) : (toKernelStack s).mem = s.mem := by unfold toKernelStack; split <;> [rfl; (split <;> rfl)]
@[simp] theorem toKernelStack_tbEvents (s : State) : (toKernelStack s).tbEvents = s.tbEvents := by unfold toKernelStack; split <;> [rfl; (split <;> rfl)]
@[simp] theorem toKernelStack_draws (s : State) : (toKernelStack s).draws = s.draws := by unfold toKernelStack; split <;> [rfl; (split <;> rfl)]

/-! ## The mark that an REI is owed -/

@[simp] theorem reiBegun_cfg (s : State) : (reiBegun s).cfg = s.cfg := rfl
@[simp] theorem reiBegun_x (s : State) : (reiBegun s).x = s.x := rfl
@[simp] theorem reiBegun_psl (s : State) : (reiBegun s).psl = s.psl := rfl
@[simp] theorem reiBegun_isp (s : State) : (reiBegun s).isp = s.isp := rfl
@[simp] theorem reiBegun_spSlot (s : State) : (reiBegun s).spSlot = s.spSlot := rfl
@[simp] theorem reiBegun_map (s : State) : (reiBegun s).map = s.map := rfl
@[simp] theorem reiBegun_vecMap (s : State) : (reiBegun s).vecMap = s.vecMap := rfl
@[simp] theorem reiBegun_pcbb (s : State) : (reiBegun s).pcbb = s.pcbb := rfl
@[simp] theorem reiBegun_scbb (s : State) : (reiBegun s).scbb = s.scbb := rfl
@[simp] theorem reiBegun_astlvl (s : State) : (reiBegun s).astlvl = s.astlvl := rfl
@[simp] theorem reiBegun_pme (s : State) : (reiBegun s).pme = s.pme := rfl
@[simp] theorem reiBegun_asn (s : State) : (reiBegun s).asn = s.asn := rfl
@[simp] theorem reiBegun_cpuid (s : State) : (reiBegun s).cpuid = s.cpuid := rfl
@[simp] theorem reiBegun_vmpsl (s : State) : (reiBegun s).vmpsl = s.vmpsl := rfl
@[simp] theorem reiBegun_v (s : State) : (reiBegun s).v = s.v := rfl
@[simp] theorem reiBegun_vlr (s : State) : (reiBegun s).vlr = s.vlr := rfl
@[simp] theorem reiBegun_vmr (s : State) : (reiBegun s).vmr = s.vmr := rfl
@[simp] theorem reiBegun_vcr (s : State) : (reiBegun s).vcr = s.vcr := rfl
@[simp] theorem reiBegun_vpsr (s : State) : (reiBegun s).vpsr = s.vpsr := rfl
@[simp] theorem reiBegun_vaer (s : State) : (reiBegun s).vaer = s.vaer := rfl
@[simp] theorem reiBegun_vsar (s : State) : (reiBegun s).vsar = s.vsar := rfl
@[simp] theorem reiBegun_astRequest (s : State) : (reiBegun s).astRequest = s.astRequest := rfl
@[simp] theorem reiBegun_inSwitchWindow (s : State) : (reiBegun s).inSwitchWindow = s.inSwitchWindow := rfl
@[simp] theorem reiBegun_afterLdpctx (s : State) : (reiBegun s).afterLdpctx = none := rfl
@[simp] theorem reiBegun_loadedPcb (s : State) : (reiBegun s).loadedPcb = s.loadedPcb := rfl
@[simp] theorem reiBegun_written (s : State) : (reiBegun s).written = s.written := rfl
@[simp] theorem reiBegun_mem (s : State) : (reiBegun s).mem = s.mem := rfl
@[simp] theorem reiBegun_tbEvents (s : State) : (reiBegun s).tbEvents = s.tbEvents := rfl
@[simp] theorem reiBegun_draws (s : State) : (reiBegun s).draws = s.draws := rfl
@[simp] theorem reiBegun_getReg (s : State) (q : Reg) : getReg (reiBegun s) q = getReg s q := rfl
@[simp] theorem reiBegun_pc (s : State) : (reiBegun s).pc = s.pc := rfl
@[simp] theorem reiBegun_sp (s : State) : (reiBegun s).sp = s.sp := rfl
@[simp] theorem reiBegun_mode (s : State) : (reiBegun s).mode = s.mode := rfl

@[simp] theorem reiBegun_inVM (s : State) : (reiBegun s).inVM = s.inVM := rfl
@[simp] theorem reiBegun_stackCell (s : State) (p : Word) : stackCell (reiBegun s) p = stackCell s p := rfl
@[simp] theorem reiBegun_translateLong (s : State) (va : Word) (k : AccessKind) :
    translateLong (reiBegun s) va k = translateLong s va k := rfl
@[simp] theorem reiBegun_memRead (s : State) (va : Word) : memRead (reiBegun s) va = memRead s va := rfl

/-! ## The AST's interrupt -/

@[simp] theorem astTaken_cfg (s : State) : (astTaken s).cfg = s.cfg := rfl
@[simp] theorem astTaken_x (s : State) : (astTaken s).x = s.x := rfl
@[simp] theorem astTaken_psl (s : State) : (astTaken s).psl = s.psl := rfl
@[simp] theorem astTaken_isp (s : State) : (astTaken s).isp = s.isp := rfl
@[simp] theorem astTaken_spSlot (s : State) : (astTaken s).spSlot = s.spSlot := rfl
@[simp] theorem astTaken_map (s : State) : (astTaken s).map = s.map := rfl
@[simp] theorem astTaken_vecMap (s : State) : (astTaken s).vecMap = s.vecMap := rfl
@[simp] theorem astTaken_pcbb (s : State) : (astTaken s).pcbb = s.pcbb := rfl
@[simp] theorem astTaken_scbb (s : State) : (astTaken s).scbb = s.scbb := rfl
@[simp] theorem astTaken_astlvl (s : State) : (astTaken s).astlvl = s.astlvl := rfl
@[simp] theorem astTaken_pme (s : State) : (astTaken s).pme = s.pme := rfl
@[simp] theorem astTaken_asn (s : State) : (astTaken s).asn = s.asn := rfl
@[simp] theorem astTaken_cpuid (s : State) : (astTaken s).cpuid = s.cpuid := rfl
@[simp] theorem astTaken_vmpsl (s : State) : (astTaken s).vmpsl = s.vmpsl := rfl
@[simp] theorem astTaken_v (s : State) : (astTaken s).v = s.v := rfl
@[simp] theorem astTaken_vlr (s : State) : (astTaken s).vlr = s.vlr := rfl
@[simp] theorem astTaken_vmr (s : State) : (astTaken s).vmr = s.vmr := rfl
@[simp] theorem astTaken_vcr (s : State) : (astTaken s).vcr = s.vcr := rfl
@[simp] theorem astTaken_vpsr (s : State) : (astTaken s).vpsr = s.vpsr := rfl
@[simp] theorem astTaken_vaer (s : State) : (astTaken s).vaer = s.vaer := rfl
@[simp] theorem astTaken_vsar (s : State) : (astTaken s).vsar = s.vsar := rfl
@[simp] theorem astTaken_astRequest (s : State) : (astTaken s).astRequest = false := rfl
@[simp] theorem astTaken_inSwitchWindow (s : State) : (astTaken s).inSwitchWindow = s.inSwitchWindow := rfl
@[simp] theorem astTaken_afterLdpctx (s : State) : (astTaken s).afterLdpctx = s.afterLdpctx := rfl
@[simp] theorem astTaken_loadedPcb (s : State) : (astTaken s).loadedPcb = s.loadedPcb := rfl
@[simp] theorem astTaken_written (s : State) : (astTaken s).written = s.written := rfl
@[simp] theorem astTaken_mem (s : State) : (astTaken s).mem = s.mem := rfl
@[simp] theorem astTaken_tbEvents (s : State) : (astTaken s).tbEvents = s.tbEvents := rfl
@[simp] theorem astTaken_draws (s : State) : (astTaken s).draws = s.draws := rfl
@[simp] theorem astTaken_getReg (s : State) (q : Reg) : getReg (astTaken s) q = getReg s q := rfl
@[simp] theorem astTaken_pc (s : State) : (astTaken s).pc = s.pc := rfl
@[simp] theorem astTaken_sp (s : State) : (astTaken s).sp = s.sp := rfl
@[simp] theorem astTaken_mode (s : State) : (astTaken s).mode = s.mode := rfl

/-! ## The synchronised instruction stream -/

@[simp] theorem iStreamSync_cfg (s : State) : (iStreamSync s).cfg = s.cfg := rfl
@[simp] theorem iStreamSync_x (s : State) : (iStreamSync s).x = s.x := rfl
@[simp] theorem iStreamSync_psl (s : State) : (iStreamSync s).psl = s.psl := rfl
@[simp] theorem iStreamSync_isp (s : State) : (iStreamSync s).isp = s.isp := rfl
@[simp] theorem iStreamSync_spSlot (s : State) : (iStreamSync s).spSlot = s.spSlot := rfl
@[simp] theorem iStreamSync_map (s : State) : (iStreamSync s).map = s.map := rfl
@[simp] theorem iStreamSync_vecMap (s : State) : (iStreamSync s).vecMap = s.vecMap := rfl
@[simp] theorem iStreamSync_pcbb (s : State) : (iStreamSync s).pcbb = s.pcbb := rfl
@[simp] theorem iStreamSync_scbb (s : State) : (iStreamSync s).scbb = s.scbb := rfl
@[simp] theorem iStreamSync_astlvl (s : State) : (iStreamSync s).astlvl = s.astlvl := rfl
@[simp] theorem iStreamSync_pme (s : State) : (iStreamSync s).pme = s.pme := rfl
@[simp] theorem iStreamSync_asn (s : State) : (iStreamSync s).asn = s.asn := rfl
@[simp] theorem iStreamSync_cpuid (s : State) : (iStreamSync s).cpuid = s.cpuid := rfl
@[simp] theorem iStreamSync_vmpsl (s : State) : (iStreamSync s).vmpsl = s.vmpsl := rfl
@[simp] theorem iStreamSync_v (s : State) : (iStreamSync s).v = s.v := rfl
@[simp] theorem iStreamSync_vlr (s : State) : (iStreamSync s).vlr = s.vlr := rfl
@[simp] theorem iStreamSync_vmr (s : State) : (iStreamSync s).vmr = s.vmr := rfl
@[simp] theorem iStreamSync_vcr (s : State) : (iStreamSync s).vcr = s.vcr := rfl
@[simp] theorem iStreamSync_vpsr (s : State) : (iStreamSync s).vpsr = s.vpsr := rfl
@[simp] theorem iStreamSync_vaer (s : State) : (iStreamSync s).vaer = s.vaer := rfl
@[simp] theorem iStreamSync_vsar (s : State) : (iStreamSync s).vsar = s.vsar := rfl
@[simp] theorem iStreamSync_astRequest (s : State) : (iStreamSync s).astRequest = s.astRequest := rfl
@[simp] theorem iStreamSync_inSwitchWindow (s : State) : (iStreamSync s).inSwitchWindow = s.inSwitchWindow := rfl
@[simp] theorem iStreamSync_afterLdpctx (s : State) : (iStreamSync s).afterLdpctx = s.afterLdpctx := rfl
@[simp] theorem iStreamSync_loadedPcb (s : State) : (iStreamSync s).loadedPcb = s.loadedPcb := rfl
@[simp] theorem iStreamSync_written (s : State) : (iStreamSync s).written = [] := rfl
@[simp] theorem iStreamSync_mem (s : State) : (iStreamSync s).mem = s.mem := rfl
@[simp] theorem iStreamSync_tbEvents (s : State) : (iStreamSync s).tbEvents = s.tbEvents := rfl
@[simp] theorem iStreamSync_draws (s : State) : (iStreamSync s).draws = s.draws := rfl
@[simp] theorem iStreamSync_getReg (s : State) (q : Reg) : getReg (iStreamSync s) q = getReg s q := rfl
@[simp] theorem iStreamSync_pc (s : State) : (iStreamSync s).pc = s.pc := rfl
@[simp] theorem iStreamSync_sp (s : State) : (iStreamSync s).sp = s.sp := rfl
@[simp] theorem iStreamSync_mode (s : State) : (iStreamSync s).mode = s.mode := rfl

/-! ## LDPCTX's marks -/

@[simp] theorem ldpctxDone_cfg (s : State) (pcb next : Word) : (ldpctxDone s pcb next).cfg = s.cfg := rfl
@[simp] theorem ldpctxDone_x (s : State) (pcb next : Word) : (ldpctxDone s pcb next).x = s.x := rfl
@[simp] theorem ldpctxDone_psl (s : State) (pcb next : Word) : (ldpctxDone s pcb next).psl = s.psl := rfl
@[simp] theorem ldpctxDone_isp (s : State) (pcb next : Word) : (ldpctxDone s pcb next).isp = s.isp := rfl
@[simp] theorem ldpctxDone_spSlot (s : State) (pcb next : Word) : (ldpctxDone s pcb next).spSlot = s.spSlot := rfl
@[simp] theorem ldpctxDone_map (s : State) (pcb next : Word) : (ldpctxDone s pcb next).map = s.map := rfl
@[simp] theorem ldpctxDone_vecMap (s : State) (pcb next : Word) : (ldpctxDone s pcb next).vecMap = s.vecMap := rfl
@[simp] theorem ldpctxDone_pcbb (s : State) (pcb next : Word) : (ldpctxDone s pcb next).pcbb = s.pcbb := rfl
@[simp] theorem ldpctxDone_scbb (s : State) (pcb next : Word) : (ldpctxDone s pcb next).scbb = s.scbb := rfl
@[simp] theorem ldpctxDone_astlvl (s : State) (pcb next : Word) : (ldpctxDone s pcb next).astlvl = s.astlvl := rfl
@[simp] theorem ldpctxDone_pme (s : State) (pcb next : Word) : (ldpctxDone s pcb next).pme = s.pme := rfl
@[simp] theorem ldpctxDone_asn (s : State) (pcb next : Word) : (ldpctxDone s pcb next).asn = s.asn := rfl
@[simp] theorem ldpctxDone_cpuid (s : State) (pcb next : Word) : (ldpctxDone s pcb next).cpuid = s.cpuid := rfl
@[simp] theorem ldpctxDone_vmpsl (s : State) (pcb next : Word) : (ldpctxDone s pcb next).vmpsl = s.vmpsl := rfl
@[simp] theorem ldpctxDone_v (s : State) (pcb next : Word) : (ldpctxDone s pcb next).v = s.v := rfl
@[simp] theorem ldpctxDone_vlr (s : State) (pcb next : Word) : (ldpctxDone s pcb next).vlr = s.vlr := rfl
@[simp] theorem ldpctxDone_vmr (s : State) (pcb next : Word) : (ldpctxDone s pcb next).vmr = s.vmr := rfl
@[simp] theorem ldpctxDone_vcr (s : State) (pcb next : Word) : (ldpctxDone s pcb next).vcr = s.vcr := rfl
@[simp] theorem ldpctxDone_vpsr (s : State) (pcb next : Word) : (ldpctxDone s pcb next).vpsr = s.vpsr := rfl
@[simp] theorem ldpctxDone_vaer (s : State) (pcb next : Word) : (ldpctxDone s pcb next).vaer = s.vaer := rfl
@[simp] theorem ldpctxDone_vsar (s : State) (pcb next : Word) : (ldpctxDone s pcb next).vsar = s.vsar := rfl
@[simp] theorem ldpctxDone_astRequest (s : State) (pcb next : Word) : (ldpctxDone s pcb next).astRequest = s.astRequest := rfl
@[simp] theorem ldpctxDone_inSwitchWindow (s : State) (pcb next : Word) : (ldpctxDone s pcb next).inSwitchWindow = false := rfl
@[simp] theorem ldpctxDone_afterLdpctx (s : State) (pcb next : Word) : (ldpctxDone s pcb next).afterLdpctx = some next := rfl
@[simp] theorem ldpctxDone_loadedPcb (s : State) (pcb next : Word) : (ldpctxDone s pcb next).loadedPcb = some pcb := rfl
@[simp] theorem ldpctxDone_written (s : State) (pcb next : Word) : (ldpctxDone s pcb next).written = s.written := rfl
@[simp] theorem ldpctxDone_mem (s : State) (pcb next : Word) : (ldpctxDone s pcb next).mem = s.mem := rfl
@[simp] theorem ldpctxDone_tbEvents (s : State) (pcb next : Word) : (ldpctxDone s pcb next).tbEvents = s.tbEvents := rfl
@[simp] theorem ldpctxDone_draws (s : State) (pcb next : Word) : (ldpctxDone s pcb next).draws = s.draws := rfl
@[simp] theorem ldpctxDone_getReg (s : State) (pcb next : Word) (q : Reg) : getReg (ldpctxDone s pcb next) q = getReg s q := rfl
@[simp] theorem ldpctxDone_pc (s : State) (pcb next : Word) : (ldpctxDone s pcb next).pc = s.pc := rfl
@[simp] theorem ldpctxDone_sp (s : State) (pcb next : Word) : (ldpctxDone s pcb next).sp = s.sp := rfl
@[simp] theorem ldpctxDone_mode (s : State) (pcb next : Word) : (ldpctxDone s pcb next).mode = s.mode := rfl

/-! ## SVPCTX's marks -/

@[simp] theorem svpctxDone_cfg (s : State) : (svpctxDone s).cfg = s.cfg := rfl
@[simp] theorem svpctxDone_x (s : State) : (svpctxDone s).x = s.x := rfl
@[simp] theorem svpctxDone_psl (s : State) : (svpctxDone s).psl = s.psl := rfl
@[simp] theorem svpctxDone_isp (s : State) : (svpctxDone s).isp = s.isp := rfl
@[simp] theorem svpctxDone_spSlot (s : State) : (svpctxDone s).spSlot = s.spSlot := rfl
@[simp] theorem svpctxDone_map (s : State) : (svpctxDone s).map = s.map := rfl
@[simp] theorem svpctxDone_vecMap (s : State) : (svpctxDone s).vecMap = s.vecMap := rfl
@[simp] theorem svpctxDone_pcbb (s : State) : (svpctxDone s).pcbb = s.pcbb := rfl
@[simp] theorem svpctxDone_scbb (s : State) : (svpctxDone s).scbb = s.scbb := rfl
@[simp] theorem svpctxDone_astlvl (s : State) : (svpctxDone s).astlvl = s.astlvl := rfl
@[simp] theorem svpctxDone_pme (s : State) : (svpctxDone s).pme = s.pme := rfl
@[simp] theorem svpctxDone_asn (s : State) : (svpctxDone s).asn = s.asn := rfl
@[simp] theorem svpctxDone_cpuid (s : State) : (svpctxDone s).cpuid = s.cpuid := rfl
@[simp] theorem svpctxDone_vmpsl (s : State) : (svpctxDone s).vmpsl = s.vmpsl := rfl
@[simp] theorem svpctxDone_v (s : State) : (svpctxDone s).v = s.v := rfl
@[simp] theorem svpctxDone_vlr (s : State) : (svpctxDone s).vlr = s.vlr := rfl
@[simp] theorem svpctxDone_vmr (s : State) : (svpctxDone s).vmr = s.vmr := rfl
@[simp] theorem svpctxDone_vcr (s : State) : (svpctxDone s).vcr = s.vcr := rfl
@[simp] theorem svpctxDone_vpsr (s : State) : (svpctxDone s).vpsr = s.vpsr := rfl
@[simp] theorem svpctxDone_vaer (s : State) : (svpctxDone s).vaer = s.vaer := rfl
@[simp] theorem svpctxDone_vsar (s : State) : (svpctxDone s).vsar = s.vsar := rfl
@[simp] theorem svpctxDone_astRequest (s : State) : (svpctxDone s).astRequest = s.astRequest := rfl
@[simp] theorem svpctxDone_inSwitchWindow (s : State) : (svpctxDone s).inSwitchWindow = true := rfl
@[simp] theorem svpctxDone_afterLdpctx (s : State) : (svpctxDone s).afterLdpctx = s.afterLdpctx := rfl
@[simp] theorem svpctxDone_loadedPcb (s : State) : (svpctxDone s).loadedPcb = none := rfl
@[simp] theorem svpctxDone_written (s : State) : (svpctxDone s).written = s.written := rfl
@[simp] theorem svpctxDone_mem (s : State) : (svpctxDone s).mem = s.mem := rfl
@[simp] theorem svpctxDone_tbEvents (s : State) : (svpctxDone s).tbEvents = s.tbEvents := rfl
@[simp] theorem svpctxDone_draws (s : State) : (svpctxDone s).draws = s.draws := rfl
@[simp] theorem svpctxDone_getReg (s : State) (q : Reg) : getReg (svpctxDone s) q = getReg s q := rfl
@[simp] theorem svpctxDone_pc (s : State) : (svpctxDone s).pc = s.pc := rfl
@[simp] theorem svpctxDone_sp (s : State) : (svpctxDone s).sp = s.sp := rfl
@[simp] theorem svpctxDone_mode (s : State) : (svpctxDone s).mode = s.mode := rfl

theorem svpctxSave_mem (s : State) (a b : Word) :
    (svpctxSave s a b).mem = (pcbWriteAll (svpctxLeave s a b) (svpctxSlots (svpctxLeave s a b))).mem := by
  simp only [svpctxSave, finish_mem, svpctxDone_mem]

theorem svpctxSave_written (s : State) (a b : Word) :
    (svpctxSave s a b).written = (pcbWriteAll (svpctxLeave s a b) (svpctxSlots (svpctxLeave s a b))).written := by
  simp only [svpctxSave, finish_written, svpctxDone_written]

/-! ## What the updates write -/

@[simp] theorem getReg_setReg_same (s : State) (r : Reg) (w : Word) : getReg (setReg s r w) r = w := by
  simp [getReg, setReg]

@[simp] theorem getReg_setReg_ne (s : State) {r q : Reg} (w : Word) (h : q ≠ r) :
    getReg (setReg s r w) q = getReg s q := by
  have : r.val ≠ q.val := fun e => h (Fin.ext e.symm)
  simp [getReg, setReg, Vector.getElem_set_ne, this]

theorem getReg_setReg (s : State) (r q : Reg) (w : Word) :
    getReg (setReg s r w) q = if q = r then w else getReg s q := by
  split
  · rename_i h; subst h; simp
  · rename_i h; simp [h]

@[simp] theorem setReg_sp_same (s : State) (w : Word) : (setReg s regSP w).sp = w := getReg_setReg_same ..

theorem getReg_finish (s : State) (pc : Word) (q : Reg) :
    getReg (finish s pc) q = if q = regPC then pc else getReg s q := getReg_setReg ..

@[simp] theorem finish_pc (s : State) (pc : Word) : (finish s pc).pc = pc := getReg_setReg_same ..

@[simp] theorem finish_draws (s : State) (pc : Word) : (finish s pc).draws = s.draws + 1 := rfl

@[simp] theorem finish_sp (s : State) (pc : Word) : (finish s pc).sp = s.sp :=
  getReg_setReg_ne _ _ (by decide)

theorem getReg_switchStack_ne (s : State) (sp p : Word) {q : Reg} (h : q ≠ regSP) :
    getReg (switchStack s sp p) q = getReg s q := getReg_setReg_ne _ _ h

@[simp] theorem switchStack_psl (s : State) (sp p : Word) : (switchStack s sp p).psl = p := rfl

@[simp] theorem drawCc_psl (s : State) : (drawCc s).psl = pslWithCc s.psl (Config.freeFlags s.draws) := rfl

@[simp] theorem setPhysBytes_mem (s : State) (pas : List Word) (bs : List Byte) :
    (setPhysBytes s pas bs).mem = Memory.writeAll s.mem pas bs := rfl

@[simp] theorem setPhysBytes_written (s : State) (pas : List Word) (bs : List Byte) :
    (setPhysBytes s pas bs).written = insertAddrs pas s.written := rfl

/-- VCR holds the length it receives, which is at most 64 (R204). -/
@[simp] theorem iotaCount_vcr_toNat (s : State) (length : Fin 65) : (iotaCount s length).vcr.toNat = length.val := by
  simp only [iotaCount, BitVec.toNat_ofNat]
  omega

end Sys2Proof.Machine
end

