-- ==== Sys2Proof/Laws/Ops.lean ====
section
/-!
SUPPORT. For each shared operation over memory, stacks and exceptions, one lemma that says what it can do.
-/

namespace Sys2Proof.Machine

/-! ## Results -/

@[simp] theorem res_ok_bind {α β : Type} (a : α) (f : α → Res β) : ((.ok a : Res α) >>= f) = f a := rfl

@[simp] theorem res_error_bind {α β : Type} (e : Stop) (f : α → Res β) : ((.error e : Res α) >>= f) = .error e := rfl

@[simp] theorem settle_ok (s t : State) : settle s (.ok t) = .next t := rfl

@[simp] theorem settle_exc (s : State) (e : Exc) : settle s (.error (.exc e)) = raise s e := rfl

@[simp] theorem settle_fault (s : State) (f : Fault) : settle s (.error (.fault f)) = .fault f := rfl

@[simp] theorem settle_refuse (s : State) (r : Refusal) : settle s (.error (.refuse r)) = .refused r := rfl

theorem res_bind_ok {α β : Type} {x : Res α} {f : α → Res β} {b : β} (h : (x >>= f) = .ok b) :
    ∃ a, x = .ok a ∧ f a = .ok b := by
  cases x with
  | error e => cases h
  | ok a => exact ⟨a, rfl, h⟩

theorem res_map_ok {α β : Type} {x : Res α} {f : α → β} {b : β} (h : x.map f = .ok b) :
    ∃ a, x = .ok a ∧ f a = b := by
  cases x with
  | error e => cases h
  | ok a => exact ⟨a, rfl, by simpa [Except.map] using h⟩

/-- An instruction answers a next state by completing, or by taking an exception in the state it began in. -/
theorem settle_next {s t : State} {r : Res State} (h : settle s r = .next t) :
    r = .ok t ∨ ∃ e, r = .error (.exc e) ∧ raise s e = .next t := by
  rcases r with (e | f | r) | u
  · exact .inr ⟨e, rfl, h⟩
  · cases h
  · cases h
  · exact .inl (by simpa [settle] using h)

/-! ## Fields of a PSL -/

theorem extractLsb'_or_bit30 (w : Word) (i n : Nat) (h : i + n ≤ 30) :
    (w ||| 0x40000000#32).extractLsb' i n = w.extractLsb' i n := by
  have e : 0x40000000#32 = BitVec.twoPow 32 30 := by decide
  apply BitVec.eq_of_getLsbD_eq
  intro j hj
  rw [e, BitVec.getLsbD_extractLsb', BitVec.getLsbD_extractLsb', BitVec.getLsbD_or, BitVec.getLsbD_twoPow]
  have : 30 ≠ i + j := by omega
  simp [this]

/-- A pending trace carried over by REI changes no field but TP (R128). -/
theorem reiPsl_fields (cur new : Word) :
    pslCurMod (reiPsl cur new) = pslCurMod new ∧ pslIs (reiPsl cur new) = pslIs new ∧
      pslCc (reiPsl cur new) = pslCc new ∧ pslIpl (reiPsl cur new) = pslIpl new := by
  unfold reiPsl
  split
  · exact ⟨extractLsb'_or_bit30 _ _ _ (by decide), by simp [pslIs, pslWithTp],
      extractLsb'_or_bit30 _ _ _ (by decide), extractLsb'_or_bit30 _ _ _ (by decide)⟩
  · exact ⟨rfl, rfl, rfl, rfl⟩

/-! ## Longwords -/

/-- Little-endian both ways (R64). -/
@[simp] theorem longOfBytes_bytesOfLong (w : Word) : longOfBytes (bytesOfLong w) = w := by
  apply BitVec.eq_of_getLsbD_eq
  intro i hi
  simp only [bytesOfLong, longOfBytes, BitVec.getLsbD_or, BitVec.getLsbD_shiftLeft, BitVec.getLsbD_setWidth,
    BitVec.getLsbD_extractLsb']
  by_cases h8 : i < 8
  · simp [hi, h8]
  · by_cases h16 : i < 16
    · simp [hi, h8, show i - 8 < 8 by omega, show 8 + (i - 8) = i by omega]
      omega
    · by_cases h24 : i < 24
      · simp [hi, h8, show ¬ i - 8 < 8 by omega, show i - 8 - 8 < 8 by omega, show i - 8 - 8 < 32 by omega,
          show 16 + (i - 8 - 8) = i by omega, show i - 8 < 32 by omega]
      · simp [hi, h8, show ¬ i - 8 < 8 by omega, show ¬ i - 8 - 8 < 8 by omega, show i - 8 < 32 by omega,
          show i - 8 - 8 < 32 by omega, show i - 8 - 8 - 8 < 32 by omega, show i - 8 - 8 - 8 < 8 by omega,
          show 24 + (i - 8 - 8 - 8) = i by omega]

@[simp] theorem longAddrs_length (a : Word) : (longAddrs a).length = 4 := rfl

@[simp] theorem bytesOfLong_length (w : Word) : (bytesOfLong w).length = 4 := rfl

/-- An address is one of a longword's if it is less than four bytes on, modulo 2^32. -/
theorem mem_longAddrs (a x : Word) : x ∈ longAddrs a ↔ (x - a).toNat < 4 := by
  simp only [longAddrs, List.mem_cons, List.not_mem_nil, or_false]
  constructor
  · rintro (rfl | rfl | rfl | rfl) <;> bv_omega
  · intro h
    have : x = a ∨ x = a + 1 ∨ x = a + 2 ∨ x = a + 3 := by bv_omega
    exact this

theorem longAddrs_nodup (a : Word) : (longAddrs a).Nodup := by
  simp only [longAddrs, List.nodup_cons, List.mem_cons, List.not_mem_nil, not_or, not_false_eq_true,
    List.nodup_nil, and_true]
  refine ⟨⟨?_, ?_, ?_⟩, ⟨?_, ?_⟩, ?_⟩ <;> bv_omega

/-! ## Translation -/

theorem addressesIn_length_of_noFault {l : List (Except Exc Word)} (h : faultsIn l = []) :
    (addressesIn l).length = l.length := by
  induction l with
  | nil => rfl
  | cons r l ih =>
    cases r with
    | error e => cases h
    | ok a => simpa [addressesIn] using ih h

theorem chooseFault_none {d : Nat} {va : Word} {l : List Exc} (h : chooseFault d va l = none) : l = [] := by
  cases l with
  | nil => rfl
  | cons e l =>
    simp only [chooseFault] at h
    split at h
    · cases h
    · split at h <;> cases h

/-- The fault a reference reports is that of one of its bytes. -/
theorem chooseFault_mem {d : Nat} {va : Word} {l : List Exc} {e : Exc} (h : chooseFault d va l = some e) : e ∈ l := by
  cases l with
  | nil => cases h
  | cons e' l =>
    simp only [chooseFault] at h
    split at h
    · exact (Option.some.inj h) ▸ .head _
    · rename_i ho
      split at h
      · exact (Option.some.inj h) ▸ .head _
      · exact (Option.some.inj h) ▸ .tail _ (List.mem_of_find?_eq_some ho)

theorem requirePhys_ok {cfg : Params} {pas : List Word} {u : Unit} (h : requirePhys cfg pas = .ok u) :
    ∀ pa ∈ pas, physExists cfg pa = true := by
  unfold requirePhys at h
  split at h
  · cases h
  · rename_i hf
    simpa using List.find?_eq_none.1 hf

/-- A translated longword has four physical addresses, and each holds memory. -/
theorem translateLong_ok {s : State} {va : Word} {kind : AccessKind} {pas : List Word}
    (h : translateLong s va kind = .ok pas) :
    pas.length = 4 ∧ ∀ pa ∈ pas, physExists s.cfg pa = true := by
  simp only [translateLong] at h
  split at h
  · cases h
  · rename_i hc
    split at h
    · cases h
    · rename_i hp
      obtain rfl : addressesIn _ = pas := by simpa using h
      exact ⟨by rw [addressesIn_length_of_noFault (chooseFault_none hc)]; rfl, requirePhys_ok hp⟩

theorem physExists_of_wide {cfg : Params} (h : 32 ≤ cfg.physAddrWidth) (pa : Word) : physExists cfg pa = true := by
  simp only [physExists, decide_eq_true_eq]
  exact lt_of_lt_of_le pa.isLt (Nat.pow_le_pow_right (by decide) h)

theorem requirePhys_of_wide {cfg : Params} (h : 32 ≤ cfg.physAddrWidth) (pas : List Word) :
    requirePhys cfg pas = .ok () := by
  have : pas.find? (fun pa => !physExists cfg pa) = none := by
    simp [List.find?_eq_none, physExists_of_wide h]
  simp [requirePhys, this]

theorem translate_identity {s : State} (h : s.cfg.translation = []) (va : Word) (m : BitVec 2) (k : AccessKind) :
    translate s va m k = .ok va := by
  simp [translate, h]

/-- Without a translation table, and with memory everywhere, a virtual longword is the physical one (R63). -/
theorem translateLong_identity {s : State} (h : s.cfg.translation = []) (hw : 32 ≤ s.cfg.physAddrWidth) (va : Word)
    (k : AccessKind) : translateLong s va k = .ok (longAddrs va) := by
  simp [translateLong, longAddrs, translate_identity h, faultsIn, addressesIn, chooseFault, requirePhys_of_wide hw]

/-- The byte at a physical address depends on the configuration, memory, the PCB loaded and the draw counter alone. -/
theorem physByte_congr {s t : State} (hc : t.cfg = s.cfg) (hm : t.mem = s.mem) (hl : t.loadedPcb = s.loadedPcb)
    (hd : t.draws = s.draws) : physByte t = physByte s := by
  funext pa
  have : unreliable t pa = unreliable s pa := by simp only [unreliable, hc, hl]
  simp only [physByte, this, hm, hd]

/-- Two states in which translation has the same to go by (R63, R73). -/
structure SameTranslation (s t : State) : Prop where
  cfg   : t.cfg = s.cfg
  map   : t.map = s.map
  asn   : t.asn = s.asn
  psl   : t.psl = s.psl
  mem   : t.mem = s.mem
  pcb   : t.loadedPcb = s.loadedPcb
  draws : t.draws = s.draws

theorem SameTranslation.translate {s t : State} (h : SameTranslation s t) (va : Word) (m : BitVec 2) (k : AccessKind) :
    translate t va m k = translate s va m k := by
  simp only [Machine.translate, entryMatches, physLong, physByte_congr h.cfg h.mem h.pcb h.draws]
  rw [h.cfg, h.map, h.asn]

theorem SameTranslation.translateLong {s t : State} (h : SameTranslation s t) (va : Word) (k : AccessKind) :
    translateLong t va k = translateLong s va k := by
  simp only [Machine.translateLong, h.translate, State.mode]
  rw [h.psl, h.draws, h.cfg]

/-! ## Loads, stores and pushes -/

/-- A load reads four physical bytes. -/
theorem memRead_ok {s : State} {va v : Word} (h : memRead s va = .ok v) :
    ∃ pas, translateLong s va .read = .ok pas ∧ v = longOfBytes (pas.map (physByte s)) := by
  obtain ⟨pas, h1, h2⟩ := res_map_ok h
  exact ⟨pas, h1, h2.symm⟩

/-- A store writes four physical bytes and nothing else. -/
theorem memWrite_ok {s t : State} {va v : Word} (h : memWrite s va v = .ok t) :
    ∃ pas, translateLong s va .write = .ok pas ∧ t = setPhysBytes s pas (bytesOfLong v) := by
  obtain ⟨pas, h1, h2⟩ := res_map_ok h
  exact ⟨pas, h1, h2.symm⟩

theorem memWrite_of {s : State} {va v : Word} {pas : List Word} (h : translateLong s va .write = .ok pas) :
    memWrite s va v = .ok (setPhysBytes s pas (bytesOfLong v)) := by
  simp [memWrite, h, Except.map]

/-- A push stores a longword below SP and moves SP to it (R65). -/
theorem push_ok {s t : State} {v : Word} (h : push s v = .ok t) :
    ∃ pas, translateLong s (s.sp - 4) .write = .ok pas ∧
      t = setReg (setPhysBytes s pas (bytesOfLong v)) regSP (s.sp - 4) := by
  obtain ⟨u, h1, h2⟩ := res_map_ok h
  obtain ⟨pas, h3, rfl⟩ := memWrite_ok h1
  exact ⟨pas, h3, h2.symm⟩

theorem push_of {s : State} {v : Word} {pas : List Word} (h : translateLong s (s.sp - 4) .write = .ok pas) :
    push s v = .ok (setReg (setPhysBytes s pas (bytesOfLong v)) regSP (s.sp - 4)) := by
  simp only [push, memWrite_of h, Except.map]

/-- What pushes leave alone: everything but SP, memory and the record of stores. -/
theorem pushAll_ok {s t : State} {vs : List Word} (h : pushAll s vs = .ok t) :
    t = { s with x := t.x, mem := t.mem, written := t.written } ∧ (∀ q, q ≠ regSP → getReg t q = getReg s q) ∧
      t.sp = s.sp - BitVec.ofNat 32 (4 * vs.length) := by
  induction vs generalizing s with
  | nil => cases h; exact ⟨rfl, fun _ _ => rfl, by simp⟩
  | cons v vs ih =>
    unfold pushAll at h
    split at h
    · cases h
    · rename_i u hu
      obtain ⟨pas, -, rfl⟩ := push_ok hu
      obtain ⟨h1, h2, h3⟩ := ih h
      refine ⟨by rw [h1]; rfl, fun q hq => by rw [h2 q hq, getReg_setReg_ne _ _ hq]; rfl, ?_⟩
      rw [h3]
      simp only [State.sp, getReg_setReg_same, List.length_cons]
      have : BitVec.ofNat 32 (4 * (vs.length + 1)) = BitVec.ofNat 32 (4 * vs.length) + 4#32 := by
        rw [Nat.mul_add, BitVec.ofNat_add]
      rw [this]
      generalize BitVec.ofNat 32 (4 * vs.length) = k
      generalize getReg s regSP = a
      bv_omega

/-- Without a translation table, and with memory everywhere, pushes always succeed. -/
theorem pushAll_identity {s : State} (h : s.cfg.translation = []) (hw : 32 ≤ s.cfg.physAddrWidth) (vs : List Word) :
    ∃ t, pushAll s vs = .ok t := by
  induction vs generalizing s with
  | nil => exact ⟨s, rfl⟩
  | cons v vs ih =>
    obtain ⟨t, ht⟩ := ih (s := setReg (setPhysBytes s (longAddrs (s.sp - 4)) (bytesOfLong v)) regSP (s.sp - 4)) h hw
    exact ⟨t, by simp only [pushAll, push_of (translateLong_identity h hw _ _), ht]⟩

/-- Stores keep the canonical forms. -/
theorem pushAll_wf {s t : State} {vs : List Word} (h : pushAll s vs = .ok t) (hm : Memory.wf s.mem = true)
    (hw : risingAbove none s.written = true) : Memory.wf t.mem = true ∧ risingAbove none t.written = true := by
  induction vs generalizing s with
  | nil => cases h; exact ⟨hm, hw⟩
  | cons v vs ih =>
    unfold pushAll at h
    split at h
    · cases h
    · rename_i u hu
      obtain ⟨pas, -, rfl⟩ := push_ok hu
      exact ih h (Memory.wf_writeAll hm) (risingAbove_insertAddrs hw)

/-! ## Privilege -/

/-- The check passes in kernel mode, unless the virtual machine is in kernel mode too. -/
theorem privilegeCheck_ok {s : State} {u : Unit} (h : privilegeCheck s = .ok u) : s.mode = 0 := by
  unfold privilegeCheck at h
  split at h
  · cases h
  · split at h
    · assumption
    · cases h

/-- In kernel mode, with no virtual machine in kernel mode, the check passes (R132). -/
theorem privilegeCheck_kernel {s : State} (hv : (s.inVM && pslCurMod s.vmpsl == 0) = false) (hm : s.mode = 0) :
    privilegeCheck s = .ok () := by
  simp only [privilegeCheck, hv, Bool.false_eq_true, if_false, hm, if_true]

/-- Outside kernel mode it is the privileged-instruction fault (R132). -/
theorem privilegeCheck_denied {s : State} (hv : (s.inVM && pslCurMod s.vmpsl == 0) = false) (hm : s.mode ≠ 0) :
    privilegeCheck s = .error (.exc (.reservedInstruction .privileged)) := by
  simp only [privilegeCheck, hv, Bool.false_eq_true, if_false, hm]

/-- In a virtual machine's kernel mode it is the VM-emulation trap (R132). -/
theorem privilegeCheck_virtual {s : State} (hv : (s.inVM && pslCurMod s.vmpsl == 0) = true) :
    privilegeCheck s = .error (.exc .vmEmulationTrap) := by
  simp only [privilegeCheck, hv, if_true]

/-! ## Exceptions -/

/-- Entry to a handler: pushes on the chosen stack, in the handler's PSL, then the jump (R221). -/
theorem enterHandler_ok {s t : State} {off : Word} {level : Option (BitVec 5)} {pc : Word} {params : List Word}
    (h : enterHandler s off level pc params = .ok t) :
    ∃ u, pushAll (switchStack s s.sp
          (handlerPsl s.psl (pslIs s.psl || (physLong s (s.scbb + off)).extractLsb' 0 2 == 1) level))
        (pslToLong s.cfg s.psl :: pc :: params) = .ok u ∧
      t = finish u (physLong s (s.scbb + off) &&& 0xFFFFFFFC#32) := by
  simp only [enterHandler] at h
  split at h
  · cases h
  · split at h
    · split at h
      · cases h
      · rename_i u hu
        exact ⟨u, hu, by simpa using h.symm⟩
    · cases h

/-- An exception that answers a next state has entered its handler. -/
theorem raise_next {s t : State} {e : Exc} (h : raise s e = .next t) :
    s.cfg.handlerEntry = true ∧ ∃ off, scbOffset s.cfg e = some off ∧
      enterHandler s off none (savedPc s e) (excParams s e) = .ok t := by
  unfold raise at h
  split at h
  · cases h
  · rename_i off ho
    split at h
    · rename_i u hu
      have hut : u = t := by simpa using h
      split at ho
      · rename_i he
        exact ⟨he, off, ho, hut ▸ hu⟩
      · cases ho
    · cases h

end Sys2Proof.Machine
end

