-- ==== Sys2Proof/Laws/Encoding.lean ====
section
/-!
SUPPORT. Operand specifiers and their bytes (30_encoding R93, R94): a specifier is read back from its own bytes, whatever
follows, and from no fewer.
-/

namespace Sys2Proof

theorem toNat_specByte {m : Nat} (h : m < 16) (r : Reg) : (specByte m r).toNat = 16 * m + r.val := by
  have := r.isLt
  rw [specByte, BitVec.toNat_ofNat, Nat.mod_eq_of_lt (by omega)]

theorem specMode_specByte {m : Nat} (h : m < 16) (r : Reg) : specMode (specByte m r) = m := by
  have := r.isLt
  rw [specMode, toNat_specByte h]
  omega

theorem specReg_specByte {m : Nat} (h : m < 16) (r : Reg) : specReg (specByte m r) = r := by
  have := r.isLt
  apply Fin.ext
  simp only [specReg, toNat_specByte h]
  omega

theorem literal_byte (n : BitVec 6) : specMode (n.setWidth 8) < 4 ∧ (n.setWidth 8).extractLsb' 0 6 = n := by
  revert n
  decide

/-! ## Extensions -/

theorem longOfBytes_bytesOfShort (w : BitVec 16) : (longOfBytes (bytesOfShort w)).setWidth 16 = w := by
  apply BitVec.eq_of_getLsbD_eq
  intro i hi
  simp only [bytesOfShort, longOfBytes, BitVec.getLsbD_setWidth, BitVec.getLsbD_or, BitVec.getLsbD_shiftLeft,
    BitVec.getLsbD_extractLsb']
  by_cases h8 : i < 8
  · simp [hi, h8, show i < 32 by omega]
  · simp [hi, h8, show i - 8 < 8 by omega, show 8 + (i - 8) = i by omega, show i < 32 by omega]
    omega

theorem takeShort_append (d : BitVec 16) (rest : List Byte) : takeShort (bytesOfShort d ++ rest) = .ok (d, rest) := by
  show Except.ok ((longOfBytes (bytesOfShort d)).setWidth 16, rest) = _
  rw [longOfBytes_bytesOfShort]

theorem takeLong_append (d : BitVec 32) (rest : List Byte) : takeLong (bytesOfLong d ++ rest) = .ok (d, rest) := by
  show Except.ok (longOfBytes (bytesOfLong d), rest) = _
  rw [Machine.longOfBytes_bytesOfLong]

theorem takeByte_short {l : List Byte} (h : l.length < 1) : takeByte l = .error .truncated := by
  match l, h with
  | [], _ => rfl

theorem takeShort_short {l : List Byte} (h : l.length < 2) : takeShort l = .error .truncated := by
  match l, h with
  | [], _ => rfl
  | [_], _ => rfl

theorem takeLong_short {l : List Byte} (h : l.length < 4) : takeLong l = .error .truncated := by
  match l, h with
  | [], _ => rfl
  | [_], _ => rfl
  | [_, _], _ => rfl
  | [_, _, _], _ => rfl

/-! ## Specifiers -/

/-- The header byte of a specifier without index is no index byte; with the bytes of its extension it decodes to the
specifier, and with fewer it does not decode (R94). -/
theorem decodeBase_encodeBase {b : Base} (h : b.encodable = true) :
    ∃ c ext, encodeBase b = c :: ext ∧ specMode c ≠ 4 ∧ (∀ rest, decodeBase c (ext ++ rest) = .ok (b, rest)) ∧
      ∀ l : List Byte, l.length < ext.length → decodeBase c l = .error .truncated := by
  cases b with
  | literal n =>
    obtain ⟨h1, h2⟩ := literal_byte n
    refine ⟨_, [], rfl, by omega, fun rest => ?_, fun l hl => absurd hl (by simp)⟩
    obtain h | h | h | h : specMode (n.setWidth 8) = 0 ∨ specMode (n.setWidth 8) = 1 ∨ specMode (n.setWidth 8) = 2 ∨
      specMode (n.setWidth 8) = 3 := by omega
    all_goals simp [decodeBase, h, h2]
  | reg r | regDeferred r | autoDec r =>
    refine ⟨_, [], rfl, by simp [specMode_specByte], fun rest => ?_, fun l hl => absurd hl (by simp)⟩
    simp [decodeBase, specMode_specByte, specReg_specByte]
  | autoInc r | autoIncDeferred r =>
    refine ⟨_, [], rfl, by simp [specMode_specByte], fun rest => ?_, fun l hl => absurd hl (by simp)⟩
    have : r ≠ regPC := by simpa [Base.encodable] using h
    simp [decodeBase, specMode_specByte, specReg_specByte, this]
  | immediate v | absolute v =>
    refine ⟨_, bytesOfLong v, rfl, by simp [specMode_specByte], fun rest => ?_, fun l hl => ?_⟩
    · simp [decodeBase, specMode_specByte, specReg_specByte, takeLong_append, Except.map]
    · simp [decodeBase, specMode_specByte, specReg_specByte, takeLong_short hl, Except.map]
  | byteDisp r d | byteDispDeferred r d =>
    refine ⟨_, [d], rfl, by simp [specMode_specByte], fun rest => ?_, fun l hl => ?_⟩
    · simp [decodeBase, specMode_specByte, specReg_specByte, takeByte, Except.map]
    · simp [decodeBase, specMode_specByte, takeByte_short hl, Except.map]
  | wordDisp r d | wordDispDeferred r d =>
    refine ⟨_, bytesOfShort d, rfl, by simp [specMode_specByte], fun rest => ?_, fun l hl => ?_⟩
    · simp [decodeBase, specMode_specByte, specReg_specByte, takeShort_append, Except.map]
    · simp [decodeBase, specMode_specByte, takeShort_short hl, Except.map]
  | longDisp r d | longDispDeferred r d =>
    refine ⟨_, bytesOfLong d, rfl, by simp [specMode_specByte], fun rest => ?_, fun l hl => ?_⟩
    · simp [decodeBase, specMode_specByte, specReg_specByte, takeLong_append, Except.map]
    · simp [decodeBase, specMode_specByte, takeLong_short hl, Except.map]

/-- A specifier is read back from its bytes, whatever follows (R93, R94). -/
theorem decodeSpecifier_append {sp : Specifier} (h : sp.encodable = true) (rest : List Byte) :
    decodeSpecifier (encodeSpecifier sp ++ rest) = .ok (sp, rest) := by
  cases sp with
  | plain b =>
    obtain ⟨c, ext, he, hc, h1, -⟩ := decodeBase_encodeBase h
    simp only [encodeSpecifier, he, List.cons_append, decodeSpecifier, if_neg hc, h1]
    rfl
  | indexed x b =>
    obtain ⟨c, ext, he, -, h1, -⟩ := decodeBase_encodeBase h
    simp only [encodeSpecifier, he, List.cons_append, decodeSpecifier, specMode_specByte (show 4 < 16 by decide),
      specReg_specByte (show 4 < 16 by decide), if_true, h1]
    rfl

/-- Fewer than a specifier's bytes do not decode, for want of the next (R94, R216). -/
theorem decodeSpecifier_take {sp : Specifier} (h : sp.encodable = true) {k : Nat} (hk : k < specLength sp) :
    decodeSpecifier ((encodeSpecifier sp).take k) = .error .truncated := by
  cases k with
  | zero => rfl
  | succ k =>
    cases sp with
    | plain b =>
      obtain ⟨c, ext, he, hc, -, h2⟩ := decodeBase_encodeBase h
      have : k < ext.length := by simpa [specLength, encodeSpecifier, he] using hk
      simp only [encodeSpecifier, he, List.take_succ_cons, decodeSpecifier, if_neg hc,
        h2 (ext.take k) (by simp [this])]
      rfl
    | indexed x b =>
      obtain ⟨c, ext, he, -, -, h2⟩ := decodeBase_encodeBase h
      cases k with
      | zero =>
        simp only [encodeSpecifier, List.take_succ_cons, List.take_zero, decodeSpecifier,
          specMode_specByte (show 4 < 16 by decide), if_true]
      | succ k =>
        have : k < ext.length := by simpa [specLength, encodeSpecifier, he] using hk
        simp only [encodeSpecifier, he, List.take_succ_cons, decodeSpecifier,
          specMode_specByte (show 4 < 16 by decide), if_true, h2 (ext.take k) (by simp [this])]
        rfl

end Sys2Proof
end

