-- ==== Sys2Proof/Laws/Instr.lean ====
section
/-!
SUPPORT. What operand evaluation and the processor registers can do, and each instruction's completion taken apart.
-/

namespace Sys2Proof.Machine

/-! ## Stacks -/

theorem sameStack_refl (p : Word) : sameStack p p = true := by
  cases h : pslIs p <;> simp [sameStack, h]

theorem sameStack_congr {a p q : Word} (hm : pslCurMod p = pslCurMod q) (hi : pslIs p = pslIs q) :
    sameStack a p = sameStack a q := by
  simp only [sameStack, hm, hi]

theorem stackCell_congr (s : State) {p q : Word} (hm : pslCurMod p = pslCurMod q) (hi : pslIs p = pslIs q) :
    stackCell s p = stackCell s q := by
  simp only [stackCell, hm, hi]

/-- A stack pointer's cell is written, and no other (R21). -/
theorem stackCell_setStackCell (s : State) (p q w : Word) :
    stackCell (setStackCell s p w) q = if sameStack p q then w else stackCell s q := by
  have hv : ∀ (v : Vector Word 4) (a b : BitVec 2),
      (v.set a.toNat w a.isLt)[b.toNat]'b.isLt = if a = b then w else v[b.toNat]'b.isLt := by
    intro v a b
    rw [Vector.getElem_set]
    by_cases h : a = b
    · rw [if_pos h, if_pos (congrArg BitVec.toNat h)]
    · rw [if_neg h, if_neg (fun e => h (BitVec.eq_of_toNat_eq e))]
  unfold stackCell setStackCell sameStack
  by_cases hp : pslIs p = true <;> by_cases hq : pslIs q = true
  · rw [if_pos hq, if_pos hp, hp, hq]; rfl
  · rw [if_neg hq, if_neg hq]
    simp only [hp, hq, if_true, Bool.and_false, Bool.not_true, Bool.false_and, Bool.or_self, Bool.false_eq_true,
      if_false]
  · rw [if_pos hq, if_pos hq]
    simp only [hp, hq, if_false, Bool.false_eq_true, Bool.false_and, Bool.not_true, Bool.and_false, Bool.or_self]
  · rw [if_neg hq, if_neg hq]
    simp only [hp, hq, if_false, Bool.false_eq_true, Bool.false_and, Bool.false_or, Bool.not_false, Bool.true_and,
      beq_iff_eq, hv]

/-- A switch of stack leaves the outgoing stack pointer in the old stack's cell, and writes no other (R126). -/
theorem stackCell_switchStack (s : State) (sp p q : Word) :
    stackCell (switchStack s sp p) q = if sameStack s.psl q then sp else stackCell s q := by
  rw [← stackCell_setStackCell]
  rfl

/-- A switch of stack loads SP from the new stack's cell; between the same stack and itself, from the outgoing SP
(R126). -/
theorem switchStack_sp (s : State) (sp p : Word) :
    (switchStack s sp p).sp = if sameStack s.psl p then sp else stackCell s p := by
  rw [← stackCell_setStackCell]
  exact getReg_setReg_same ..

/-! ## Operands -/

/-- Two states that differ in general registers alone, and in none but those listed. -/
def onlyRegs (s t : State) (l : List Reg) : Prop :=
  t = { s with x := t.x } ∧ ∀ q, q ∉ l → getReg t q = getReg s q

theorem onlyRegs_refl (s : State) (l : List Reg) : onlyRegs s s l := ⟨rfl, fun _ _ => rfl⟩

theorem onlyRegs_setReg (s : State) (r : Reg) (w : Word) : onlyRegs s (setReg s r w) [r] :=
  ⟨rfl, fun q hq => getReg_setReg_ne _ _ (by simpa using hq)⟩

theorem onlyRegs_trans {s t u : State} {l m : List Reg} (h : onlyRegs s t l) (h' : onlyRegs t u m) :
    onlyRegs s u (l ++ m) := by
  refine ⟨?_, fun q hq => ?_⟩
  · rw [h'.1, h.1]
  · simp only [List.mem_append, not_or] at hq
    rw [h'.2 q hq.2, h.2 q hq.1]

theorem refusePc_ok {r : Reg} {u : Unit} (h : refusePc r = .ok u) : r ≠ regPC := by
  unfold refusePc at h
  split at h
  · cases h
  · assumption

/-- Evaluating a specifier changes the register its mode updates, and nothing else (R94). -/
theorem evalBase_ok {s : State} {b : Base} {pc : Word} {r : Loc × State} (h : evalBase s b pc = .ok r) :
    onlyRegs s r.2 (baseUpdates b) := by
  cases b <;> simp only [evalBase] at h
  case autoDec q =>
    obtain ⟨_, -, h⟩ := res_bind_ok h
    cases h
    exact onlyRegs_setReg ..
  case autoInc q =>
    obtain ⟨_, -, h⟩ := res_bind_ok h
    cases h
    exact onlyRegs_setReg ..
  case autoIncDeferred q =>
    obtain ⟨_, -, h⟩ := res_bind_ok h
    obtain ⟨_, -, h⟩ := res_bind_ok h
    cases h
    exact onlyRegs_setReg ..
  case regDeferred q =>
    obtain ⟨_, -, h⟩ := res_bind_ok h
    cases h
    exact onlyRegs_refl ..
  case byteDispDeferred q d =>
    obtain ⟨_, -, h⟩ := res_bind_ok h
    cases h
    exact onlyRegs_refl ..
  case wordDispDeferred q d =>
    obtain ⟨_, -, h⟩ := res_bind_ok h
    cases h
    exact onlyRegs_refl ..
  case longDispDeferred q d =>
    obtain ⟨_, -, h⟩ := res_bind_ok h
    cases h
    exact onlyRegs_refl ..
  all_goals (cases h; exact onlyRegs_refl ..)

theorem evalSpecifier_ok {s : State} {sp : Specifier} {pc : Word} {k : Nat} {r : Loc × State}
    (h : evalSpecifier s sp pc k = .ok r) : onlyRegs s r.2 (specUpdates sp) := by
  cases sp with
  | plain b => exact evalBase_ok h
  | indexed x b =>
    simp only [evalSpecifier] at h
    split at h
    · cases h
    · obtain ⟨a, ha, h⟩ := res_bind_ok h
      have hf := evalBase_ok ha
      split at h
      · cases h
        exact hf
      · cases h

/-- Reading an operand changes the register its mode updates, and nothing else. -/
theorem readOperand_ok {s : State} {sp : Specifier} {pc : Word} {k : Nat} {r : Word × State}
    (h : readOperand s sp pc k = .ok r) : onlyRegs s r.2 (specUpdates sp) := by
  simp only [readOperand] at h
  obtain ⟨a, ha, h⟩ := res_bind_ok h
  have hf := evalSpecifier_ok ha
  split at h
  · cases h; exact hf
  · cases h; exact hf
  · obtain ⟨v, -, h⟩ := res_bind_ok h
    cases h
    exact hf

/-- Resolving a destination changes the register its mode updates, and nothing else; a memory destination can be
written. -/
theorem resolveDestination_ok {s : State} {sp : Specifier} {pc : Word} {k : Nat} {r : Loc × State}
    (h : resolveDestination s sp pc k = .ok r) :
    onlyRegs s r.2 (specUpdates sp) ∧
      ((∃ q, r.1 = .reg q ∧ q ≠ regPC) ∨ ∃ a pas, r.1 = .mem a ∧ translateLong r.2 a .write = .ok pas) := by
  simp only [resolveDestination] at h
  obtain ⟨a, ha, h⟩ := res_bind_ok h
  have hf := evalSpecifier_ok ha
  split at h
  · cases h
  · rename_i q hq
    obtain ⟨u, hu, h⟩ := res_bind_ok h
    cases h
    exact ⟨hf, .inl ⟨q, hq, refusePc_ok hu⟩⟩
  · rename_i w hw
    obtain ⟨pas, hp, h⟩ := res_bind_ok h
    cases h
    exact ⟨hf, .inr ⟨w, pas, hw, hp⟩⟩

/-! ## Processor registers -/

theorem stackWrite_ok {s t : State} {slot : Option (Fin 4)} {w : Word} (h : stackWrite s slot w = .ok t) :
    s.inSwitchWindow = false ∧ (t = setSlot s slot w ∨
      (stackActive s slot = true ∧ Config.freeActiveSpWrite s.draws = true ∧ t = setReg (setSlot s slot w) regSP w)) := by
  unfold stackWrite at h
  split at h
  · cases h
  · rename_i hw
    refine ⟨by simpa using hw, ?_⟩
    split at h
    · rename_i ha
      split at h
      · exact .inr ⟨ha, ‹_›, by simpa using h.symm⟩
      · exact .inl (by simpa using h.symm)
    · exact .inl (by simpa using h.symm)

theorem mapWrite_ok {s t : State} {valid : Bool} {f : MapRegs → MapRegs} (h : mapWrite s valid f = .ok t) :
    valid = true ∧ t = tbEvent { s with map := f s.map, vecMap := if s.cfg.hasVector then f s.vecMap else s.vecMap }
      (.flushProcess (currentProcess s)) := by
  unfold mapWrite at h
  split at h
  · exact ⟨by assumption, by simpa using h.symm⟩
  · cases h

theorem vpsrWrite_ok {s t : State} {w : Word} (h : vpsrWrite s w = .ok t) :
    mtprAccepts s .vpsr w = true ∧ t = vpsrBits (if w.getLsbD 1 then vpsrReset s else s) w := by
  unfold vpsrWrite at h
  split at h
  · cases h
  · split at h
    · cases h
    · split at h
      · cases h
      · split at h
        · cases h
        · rename_i h1 h2 h3 h4
          refine ⟨?_, by simpa using h.symm⟩
          simp only [mtprAccepts, Bool.and_eq_true, beq_iff_eq, decide_eq_true_eq, Bool.not_eq_true',
            ← Bool.not_eq_true, Bool.or_eq_true]
          exact ⟨⟨⟨not_not.1 h1, not_not.1 h2⟩, h3⟩, h4⟩

/-- What a write of a processor register leaves alone: the general registers (but the live SP, if the register is that
of the stack in use), the PSL, memory, the marks, and every other processor register. -/
theorem iprWrite_ok {s t : State} {r : Ipr} {w : Word} (h : iprWrite s r w = .ok t) :
    mtprAccepts s r w = true ∧ sameIprsBut r s t ∧
      t.cfg = s.cfg ∧ t.psl = s.psl ∧ t.mem = s.mem ∧ t.written = s.written ∧ t.draws = s.draws ∧
      t.astRequest = s.astRequest ∧ t.inSwitchWindow = s.inSwitchWindow ∧ t.afterLdpctx = s.afterLdpctx ∧
      t.loadedPcb = s.loadedPcb ∧
      ∀ q, (q ≠ regSP ∨ activeStackIpr s r = false) → getReg t q = getReg s q := by
  cases r <;> simp only [iprWrite] at h
  case ksp | esp | ssp | usp | isp =>
    obtain ⟨hw, rfl | ⟨ha, -, rfl⟩⟩ := stackWrite_ok h
    · refine ⟨by simp [mtprAccepts, hw], by simp [sameIprsBut, setSlot], rfl, rfl, rfl, rfl, rfl, rfl, rfl, rfl, rfl,
        fun q _ => by simp⟩
    · refine ⟨by simp [mtprAccepts, hw], by simp [sameIprsBut, setSlot], rfl, rfl, rfl, rfl, rfl, rfl, rfl, rfl, rfl,
        fun q hq => ?_⟩
      rcases hq with hq | hq
      · rw [getReg_setReg_ne _ _ hq]; simp
      · simp [activeStackIpr, ha] at hq
  case p0br | p0lr | p1br | p1lr =>
    obtain ⟨hv, rfl⟩ := mapWrite_ok h
    refine ⟨hv, ?_, rfl, rfl, rfl, rfl, rfl, rfl, rfl, rfl, rfl, fun q _ => rfl⟩
    simp only [sameIprsBut]
    split <;> simp
  case astlvl =>
    unfold astlvlWrite at h
    split at h
    · cases h
      exact ⟨by simpa [mtprAccepts], by simp [sameIprsBut], rfl, rfl, rfl, rfl, rfl, rfl, rfl, rfl, rfl, fun q _ => rfl⟩
    · cases h
  case vpsr =>
    obtain ⟨hv, rfl⟩ := vpsrWrite_ok h
    refine ⟨hv, ?_⟩
    split <;> exact ⟨by simp [sameIprsBut], rfl, rfl, rfl, rfl, rfl, rfl, rfl, rfl, rfl, fun q _ => rfl⟩
  case vaer | vmac => cases h
  all_goals
    cases h
    exact ⟨rfl, by simp [sameIprsBut], rfl, rfl, rfl, rfl, rfl, rfl, rfl, rfl, rfl, fun q _ => rfl⟩

/-! ## Completions -/

/-- REI completes: the two longwords were read and the checks passed (R120). -/
theorem reiBody_ok {s t : State} (h : reiBody s = .ok t) :
    ∃ newPc long, memRead s s.sp = .ok newPc ∧ memRead s (s.sp + 4) = .ok long ∧
      reiCheck s (pslOfLong s.cfg long) = .ok () ∧ t = reiResume s newPc (pslOfLong s.cfg long) := by
  unfold reiBody at h
  obtain ⟨newPc, h1, h⟩ := res_bind_ok h
  obtain ⟨long, h2, h⟩ := res_bind_ok h
  obtain ⟨u, h3, h⟩ := res_bind_ok h
  exact ⟨newPc, long, h1, h2, h3, by cases h; rfl⟩

theorem reiCheck_ok {s : State} {newPsl : Word} {u : Unit} (h : reiCheck s newPsl = .ok u) :
    s.inVM = false ∧ reiAllowed s.cfg s.psl newPsl = true ∧ ¬(s.mode ≠ 0 ∧ pslVm s.cfg newPsl = true) := by
  unfold reiCheck at h
  split at h
  · split at h <;> cases h
  · rename_i hv
    split at h
    · cases h
    · rename_i ha
      split at h
      · cases h
      · rename_i hm
        exact ⟨by simpa using hv, by simpa using ha, hm⟩

theorem ldpctxPush_ok {pc : Word} {s t : State} {v : Word} (h : ldpctxPush pc s v = .ok t) : push s v = .ok t := by
  unfold ldpctxPush at h
  split at h
  · rename_i hp
    rw [hp]
    simpa using h
  · cases h
  · cases h

theorem ldpctxPush_of {pc : Word} {s t : State} {v : Word} (h : push s v = .ok t) : ldpctxPush pc s v = .ok t := by
  simp only [ldpctxPush, h]

theorem ldpctxPush_exc {pc : Word} {s : State} {v : Word} {e : Exc} (h : push s v = .error (.exc e)) :
    ldpctxPush pc s v = .error (.fault (pushFault s.cfg e pc)) := by
  simp only [ldpctxPush, h]

/-- LDPCTX completes: the checks passed, the context is loaded, and PSL and PC are pushed on the kernel stack
(R131). -/
theorem ldpctxBody_ok {s t : State} (h : ldpctxBody s = .ok t) :
    s.mode = 0 ∧ pcbValid s = true ∧ ∃ s2 s3, push (toKernelStack (ldpctxLoad s))
        (pcbRead (toKernelStack (ldpctxLoad s)) s.cfg.pcb.psl) = .ok s2 ∧
      push s2 (pcbRead s2 s.cfg.pcb.pc) = .ok s3 ∧
      t = finish (ldpctxDone s3 s.pcbb (s.pc + 1)) (s.pc + 1) := by
  unfold ldpctxBody at h
  obtain ⟨_, h1, h⟩ := res_bind_ok h
  obtain ⟨_, -, h⟩ := res_bind_ok h
  obtain ⟨_, -, h⟩ := res_bind_ok h
  split at h
  · rename_i hv
    obtain ⟨s2, h2, h⟩ := res_bind_ok h
    obtain ⟨s3, h3, h⟩ := res_bind_ok h
    have e1 := ldpctxPush_ok h2
    have e2 := ldpctxPush_ok h3
    obtain ⟨_, -, e⟩ := push_ok e1
    have c : s2.cfg = s.cfg := by rw [e]; simp
    rw [toKernelStack_cfg, ldpctxLoad_cfg] at e1
    rw [c] at e2
    exact ⟨privilegeCheck_ok h1, hv, s2, s3, e1, e2, by cases h; rfl⟩
  · cases h

/-- SVPCTX completes: the checks passed and the two longwords were read (R140). -/
theorem svpctxBody_ok {s t : State} (h : svpctxBody s = .ok t) :
    s.mode = 0 ∧ ∃ a b, memRead s s.sp = .ok a ∧ memRead s (s.sp + 4) = .ok b ∧ t = svpctxSave s a b := by
  unfold svpctxBody at h
  obtain ⟨_, h1, h⟩ := res_bind_ok h
  obtain ⟨_, -, h⟩ := res_bind_ok h
  obtain ⟨a, h2, h⟩ := res_bind_ok h
  obtain ⟨b, h3, h⟩ := res_bind_ok h
  obtain ⟨_, -, h⟩ := res_bind_ok h
  exact ⟨privilegeCheck_ok h1, a, b, h2, h3, by cases h; rfl⟩

/-- MTPR completes: the operands were read, the register may be written, and was (R145). -/
theorem mtprBody_ok {src procreg : Specifier} {s t : State} (h : mtprBody src procreg s = .ok t) :
    s.mode = 0 ∧ ∃ a n r u, readOperand s src (pcAfter1 s src) 0 = .ok a ∧
      readOperand a.2 procreg (pcAfter2 s src procreg) 1 = .ok n ∧ writableIpr s.cfg n.1 = .ok r ∧
      iprWrite n.2 r a.1 = .ok u ∧ t = finish (drawCc u) (pcAfter2 s src procreg) := by
  unfold mtprBody at h
  obtain ⟨_, h1, h⟩ := res_bind_ok h
  obtain ⟨a, h2, h⟩ := res_bind_ok h
  obtain ⟨n, h3, h⟩ := res_bind_ok h
  obtain ⟨r, h4, h⟩ := res_bind_ok h
  obtain ⟨u, h5, h⟩ := res_bind_ok h
  exact ⟨privilegeCheck_ok h1, a, n, r, u, h2, h3, h4, h5, by cases h; rfl⟩

/-- MFPR completes: the register may be read, and its value was written to the destination (R152). -/
theorem mfprBody_ok {procreg dst : Specifier} {s t : State} (h : mfprBody procreg dst s = .ok t) :
    s.mode = 0 ∧ ∃ n d r v u, readOperand s procreg (pcAfter1 s procreg) 0 = .ok n ∧
      resolveDestination n.2 dst (pcAfter2 s procreg dst) 1 = .ok d ∧ readableIpr s.cfg n.1 = .ok r ∧
      iprRead d.2 r = .ok v ∧ writeOperand d.2 d.1 v = .ok u ∧
      t = finish (drawCc u) (pcAfter2 s procreg dst) := by
  unfold mfprBody at h
  obtain ⟨_, h1, h⟩ := res_bind_ok h
  obtain ⟨n, h2, h⟩ := res_bind_ok h
  obtain ⟨d, h3, h⟩ := res_bind_ok h
  obtain ⟨r, h4, h⟩ := res_bind_ok h
  obtain ⟨v, h5, h⟩ := res_bind_ok h
  obtain ⟨u, h6, h⟩ := res_bind_ok h
  exact ⟨privilegeCheck_ok h1, n, d, r, v, u, h2, h3, h4, h5, h6, by cases h; rfl⟩

end Sys2Proof.Machine
end

