-- ==== Sys2Proof/Laws/Step.lean ====
section
/-!
SUPPORT. What a step can do, said once: it enters a handler, or one of the five instructions that complete has
completed.
-/

namespace Sys2Proof.Machine

/-- What entry to a handler leaves alone: everything but SP, PC, the PSL, the stack pointers' cells, memory and the
record of stores. -/
theorem enterHandler_frame {s t : State} {off : Word} {level : Option (BitVec 5)} {pc : Word} {params : List Word}
    (h : enterHandler s off level pc params = .ok t) :
    t = { s with x := t.x, psl := t.psl, isp := t.isp, spSlot := t.spSlot, mem := t.mem, written := t.written,
                 draws := t.draws } ∧
      t.psl = handlerPsl s.psl (onInterruptStack s off) level ∧
      ∀ q, q ≠ regSP → q ≠ regPC → getReg t q = getReg s q := by
  obtain ⟨u, hu, rfl⟩ := enterHandler_ok h
  obtain ⟨h1, h2, -⟩ := pushAll_ok hu
  refine ⟨?_, ?_, fun q hq hq' => ?_⟩
  · rw [h1]; rfl
  · rw [h1]; rfl
  · rw [getReg_finish, if_neg hq', h2 q hq, getReg_switchStack_ne _ _ _ hq]

/-- Each instruction answers a next state by taking an exception or by completing. -/
theorem exec_rei_next {s t : State} (h : exec .rei s = .next t) :
    (∃ e, raise (reiBegun s) e = .next t) ∨ reiBody (reiBegun s) = .ok t := by
  rcases settle_next h with h | ⟨e, -, h⟩
  · exact .inr h
  · exact .inl ⟨e, h⟩

theorem exec_ldpctx_next {s t : State} (h : exec .ldpctx s = .next t) :
    (∃ e, raise s e = .next t) ∨ ldpctxBody s = .ok t := by
  rcases settle_next h with h | ⟨e, -, h⟩
  · exact .inr h
  · exact .inl ⟨e, h⟩

theorem exec_svpctx_next {s t : State} (h : exec .svpctx s = .next t) :
    (∃ e, raise s e = .next t) ∨ svpctxBody s = .ok t := by
  rcases settle_next h with h | ⟨e, -, h⟩
  · exact .inr h
  · exact .inl ⟨e, h⟩

theorem exec_mtpr_next {src procreg : Specifier} {s t : State} (h : exec (.mtpr src procreg) s = .next t) :
    (∃ e, raise s e = .next t) ∨ mtprBody src procreg s = .ok t := by
  rcases settle_next h with h | ⟨e, -, h⟩
  · exact .inr h
  · exact .inl ⟨e, h⟩

theorem exec_mfpr_next {procreg dst : Specifier} {s t : State} (h : exec (.mfpr procreg dst) s = .next t) :
    (∃ e, raise s e = .next t) ∨ mfprBody procreg dst s = .ok t := by
  rcases settle_next h with h | ⟨e, -, h⟩
  · exact .inr h
  · exact .inl ⟨e, h⟩

/-- An instruction answers a next state by taking an exception or by completing. -/
theorem exec_next {i : Instr} {s t : State} (h : exec i s = .next t) :
    (∃ e, raise s e = .next t) ∨
      (i = .rei ∧ ((∃ e, raise (reiBegun s) e = .next t) ∨
        reiBody (reiBegun s) = .ok t)) ∨
      (i = .ldpctx ∧ ldpctxBody s = .ok t) ∨ (i = .svpctx ∧ svpctxBody s = .ok t) ∨
      (∃ a b, i = .mtpr a b ∧ mtprBody a b s = .ok t) ∨ (∃ a b, i = .mfpr a b ∧ mfprBody a b s = .ok t) := by
  cases i with
  | rei => exact .inr (.inl ⟨rfl, exec_rei_next h⟩)
  | ldpctx => exact (exec_ldpctx_next h).imp id fun h => .inr (.inl ⟨rfl, h⟩)
  | svpctx => exact (exec_svpctx_next h).imp id fun h => .inr (.inr (.inl ⟨rfl, h⟩))
  | mtpr a b => exact (exec_mtpr_next h).imp id fun h => .inr (.inr (.inr (.inl ⟨a, b, rfl, h⟩)))
  | mfpr a b => exact (exec_mfpr_next h).imp id fun h => .inr (.inr (.inr (.inr ⟨a, b, rfl, h⟩)))
  | bugw m => exact .inl ⟨_, h⟩
  | bugl m => exact .inl ⟨_, h⟩

/-! ## Fetching -/

/-- When nothing stands before it, a step runs the instruction at PC. -/
theorem step_undisturbed {s : State} (h : s.undisturbed) : step s = fetchAndRun s := by
  obtain ⟨h1, h2⟩ := h
  have hb : ¬ (s.cfg.hasVector = true ∧ s.vpsr.bsy = true) := by simpa using h1
  have hd : deliverAst s = none := by
    unfold deliverAst
    cases ha : s.astRequest
    · rfl
    · rw [ha] at h2
      simp only [Bool.true_and, Bool.or_eq_false_iff, Bool.not_eq_false', decide_eq_false_iff_not] at h2
      simp [h2.1, h2.2]
  simp only [step, stepOnce, if_neg hb, hd]

/-- The bytes fetched up to the first that cannot be (R216). -/
theorem fetchBytes_prefix {s : State} {e : Stop} {bs : List Byte} {k n : Nat} {va : Word} (hn : k < n)
    (hb : k ≤ bs.length)
    (hj : ∀ j, j < k → ∃ b, bs[j]? = some b ∧ fetchByte s (va + BitVec.ofNat 32 j) = .ok b)
    (he : fetchByte s (va + BitVec.ofNat 32 k) = .error e) : fetchBytes s n va = (bs.take k, some e) := by
  induction k generalizing bs n va with
  | zero =>
    obtain ⟨n, rfl⟩ : ∃ m, n = m + 1 := ⟨n - 1, by omega⟩
    simp only [BitVec.add_zero] at he
    simp only [fetchBytes, he, List.take_zero]
  | succ k ih =>
    obtain ⟨n, rfl⟩ : ∃ m, n = m + 1 := ⟨n - 1, by omega⟩
    cases bs with
    | nil => simp at hb
    | cons b bs =>
      obtain ⟨c, h1, h2⟩ := hj 0 (by omega)
      simp only [List.getElem?_cons_zero, Option.some.injEq, BitVec.add_zero] at h1 h2
      subst h1
      have hs : ∀ j : Nat, va + BitVec.ofNat 32 (j + 1) = va + 1 + BitVec.ofNat 32 j := by
        intro j
        rw [BitVec.ofNat_add]
        generalize BitVec.ofNat 32 j = q
        bv_omega
      have := ih (bs := bs) (n := n) (va := va + 1) (by omega) (by simpa using hb) (fun j hjk => by
        obtain ⟨c, h3, h4⟩ := hj (j + 1) (by omega)
        exact ⟨c, by simpa using h3, by rw [← hs]; exact h4⟩) (by rw [← hs]; exact he)
      simp only [fetchBytes, h2, this, List.take_succ_cons]

/-- The first of the bytes fetched (R216). -/
theorem fetchBytes_head {s : State} {b : Byte} {n : Nat} {va : Word} (hn : 0 < n) (h : fetchByte s va = .ok b) :
    (fetchBytes s n va).1 = b :: (fetchBytes s (n - 1) (va + 1)).1 := by
  obtain ⟨n, rfl⟩ : ∃ m, n = m + 1 := ⟨n - 1, by omega⟩
  simp only [fetchBytes, h, Nat.add_sub_cancel]

/-- Operands never decode to an instruction without any. -/
theorem decodeOperands_ne_rei {make : Specifier → Specifier → Instr} (hm : ∀ a b, make a b ≠ .rei) {bs rest : List Byte} :
    decodeOperands make bs ≠ .ok (.rei, rest) := by
  intro h
  unfold decodeOperands at h
  split at h
  · cases h
  · split at h
    · cases h
    · exact hm _ _ (Prod.mk.inj (Except.ok.inj h)).1

/-- Only the byte 02 decodes to REI (R91). -/
theorem decode_rei_head {bs rest : List Byte} (h : decode bs = .ok (.rei, rest)) : bs.head? = some 0x02 := by
  cases bs with
  | nil => cases h
  | cons op bs =>
    simp only [decode] at h
    split at h
    · rename_i ho
      exact congrArg some (BitVec.eq_of_toNat_eq ho)
    all_goals first | cases h | exact absurd h (decodeOperands_ne_rei (fun _ _ => by simp)) | skip
    split at h
    · cases h
    · split at h <;> cases h

/-- What may come next is not turned away (R255). -/
theorem wrongSuccessor_of_decode {s : State} {i : Instr} {bs rest : List Byte} (hl : s.maySucceed i)
    (hd : decode bs = .ok (i, rest)) : wrongSuccessor s bs = false := by
  unfold wrongSuccessor
  rcases hl with h | ⟨h, rfl⟩
  · rw [h]
  · simp [h, decode_rei_head hd]

/-- An instruction that does not decode never completes. -/
theorem undecoded_not_ok (s : State) (why : Option Stop) (e : DecodeError) (t : State) :
    undecoded s why e ≠ .ok t := by
  intro h
  cases e with
  | outOfScope => cases h
  | truncatedOpcode => cases h
  | operand1 e =>
    obtain ⟨_, -, h⟩ := res_bind_ok h
    cases h
  | operand2 f e =>
    obtain ⟨_, -, h⟩ := res_bind_ok h
    obtain ⟨_, -, h⟩ := res_bind_ok h
    cases h

/-- What the decoder does not refuse: every form where all are admitted, and those of R95's subset (R95). -/
theorem formRefused_of_admits {cfg : Params} {admitted : Bool} (h : cfg.allOperandForms = true ∨ admitted = true) :
    formRefused cfg admitted = false := by
  rcases h with h | h <;> simp [formRefused, h]

/-- An instruction that may come next and whose forms are admitted is run (R95, R255). -/
theorem runBytes_exec {s : State} {i : Instr} {bs rest : List Byte} {why : Option Stop} (hl : s.maySucceed i)
    (hd : decode bs = .ok (i, rest)) (ha : s.admits i) : runBytes s bs why = exec i s := by
  simp [runBytes, wrongSuccessor_of_decode hl hd, hd, formRefused_of_admits ha]

/-- Where R95's subset alone is admitted, an instruction with another form is refused (R95). -/
theorem runBytes_refused {s : State} {bs : List Byte} {why : Option Stop} (hl : s.afterLdpctx = none)
    (hc : s.cfg.allOperandForms = false)
    (hd : (∃ i rest, decode bs = .ok (i, rest) ∧ i.admitted = false) ∨ ∃ e, decode bs = .error e ∧ e.admitted = false) :
    runBytes s bs why = .refused .operandNotAdmitted := by
  have hw : wrongSuccessor s bs = false := by simp [wrongSuccessor, hl]
  rcases hd with ⟨i, rest, hd, ha⟩ | ⟨e, hd, ha⟩ <;> simp [runBytes, hw, hd, formRefused, hc, ha]

/-- The instruction at PC answers a next state by taking an exception or by being run. -/
theorem runBytes_next {s t : State} {bs : List Byte} {why : Option Stop} (h : runBytes s bs why = .next t) :
    (∃ e, raise s e = .next t) ∨ ∃ i, exec i s = .next t := by
  simp only [runBytes] at h
  split at h
  · cases h
  · split at h <;> split at h
    · cases h
    · exact .inr ⟨_, h⟩
    · cases h
    · rcases settle_next h with h | ⟨e, -, h⟩
      · exact absurd h (undecoded_not_ok _ _ _ _)
      · exact .inl ⟨e, h⟩

/-- A step answers a next state by delivering an AST, by taking an exception, or by running an instruction. -/
theorem step_next {s t : State} (h : step s = .next t) :
    enterHandler (astTaken s) s.cfg.scbAst (some astLevel) s.pc [] = .ok t ∨
      (∃ e, raise s e = .next t) ∨ ∃ i, exec i s = .next t := by
  simp only [step, stepOnce] at h
  split at h
  · cases h
  · split at h
    · rename_i o ho
      subst h
      unfold deliverAst at ho
      split at ho
      · split at ho
        · split at ho
          · split at ho
            · rename_i u hu
              have : u = t := by simpa using ho
              exact .inl (this ▸ hu)
            · cases ho
          · cases ho
        · cases ho
      · cases ho
    · exact .inr (runBytes_next h)

end Sys2Proof.Machine
end

