-- ==== Sys2Proof/Laws/Exceptions.lean ====
section
/-!
SUPPORT. What pushes store, and what entry to a handler leaves (60_exceptions R221).
-/

namespace Sys2Proof.Machine

/-! ## Stored longwords -/

theorem sameMemoryOutside_weaken {s t : State} {l m : List Word} (h : sameMemoryOutside s t l)
    (hs : ∀ a ∈ l, a ∈ m) : sameMemoryOutside s t m := fun a ha => h a fun hl => ha (hs a hl)

/-- A longword none of whose bytes is stored to is unchanged. -/
theorem storedLong_congr {m m' : List Host.Cell} {a : Word}
    (h : ∀ b ∈ longAddrs a, Memory.read m' b.toNat = Memory.read m b.toNat) : storedLong m' a = storedLong m a := by
  unfold storedLong
  rw [List.map_congr_left h]

/-- A store changes its own bytes alone. -/
theorem sameMemoryOutside_setPhysBytes (s : State) (pas : List Word) (bs : List Byte) :
    sameMemoryOutside s (setPhysBytes s pas bs) pas := fun a ha =>
  Memory.read_writeAll_of_notMem (fun b hb e => by
    obtain rfl := BitVec.eq_of_toNat_eq e
    exact ha hb) s.mem

/-- A longword stored at its four addresses is there (R64). -/
theorem storedLong_writeAll {m : List Host.Cell} (h : Memory.wf m = true) (a v : Word) :
    storedLong (Memory.writeAll m (longAddrs a) (bytesOfLong v)) a = v := by
  unfold storedLong
  rw [Memory.map_read_writeAll rfl (longAddrs_nodup a) h]
  exact longOfBytes_bytesOfLong v

/-- Two longwords at least four bytes apart, both ways round the address space, share no byte. -/
theorem longAddrs_apart {a b x : Word} (h1 : 4 ≤ (a - b).toNat) (h2 : 4 ≤ (b - a).toNat) (hx : x ∈ longAddrs a) :
    x ∉ longAddrs b := by
  rw [mem_longAddrs] at *
  bv_omega

/-! ## Pushes -/

theorem pushTargets_cons {s : State} {v : Word} {vs : List Word} {pas : List Word}
    (h : translateLong s (s.sp - 4) .write = .ok pas) :
    pushTargets s (v :: vs) =
      pas ++ pushTargets (setReg (setPhysBytes s pas (bytesOfLong v)) regSP (s.sp - 4)) vs := by
  rw [pushTargets, h]

/-- Pushes change the bytes of the longwords below SP alone. -/
theorem pushAll_mem {s t : State} {vs : List Word} (h : pushAll s vs = .ok t) :
    sameMemoryOutside s t (pushTargets s vs) := by
  induction vs generalizing s with
  | nil => cases h; exact fun _ _ => rfl
  | cons v vs ih =>
    unfold pushAll at h
    split at h
    · cases h
    · rename_i u hu
      obtain ⟨pas, hp, rfl⟩ := push_ok hu
      intro a ha
      rw [pushTargets_cons hp, List.mem_append, not_or] at ha
      rw [ih h a ha.2]
      exact sameMemoryOutside_setPhysBytes s pas _ a ha.1

/-- Pushes store to the same places from states that translate alike and have the same SP. -/
theorem pushTargets_congr {s t : State} (h : SameTranslation s t) (hsp : t.sp = s.sp) (vs : List Word) :
    pushTargets t vs = pushTargets s vs := by
  induction vs generalizing s t with
  | nil => rfl
  | cons v vs ih =>
    simp only [pushTargets, h.translateLong, hsp]
    cases translateLong s (s.sp - 4) .write with
    | error e => rfl
    | ok pas =>
      refine congrArg (pas ++ ·) (ih ⟨h.cfg, h.map, h.asn, h.psl, ?_, h.pcb, h.draws⟩ ?_)
      · simp only [setReg_mem, setPhysBytes, h.mem]
      · simp only [setReg_sp_same]

/-- Pushes mark the bytes they store to, and no mark is lost (R72). -/
theorem pushAll_written {s t : State} {vs : List Word} (h : pushAll s vs = .ok t) (a : Nat) :
    a ∈ t.written ↔ (∃ pa ∈ pushTargets s vs, a = pa.toNat) ∨ a ∈ s.written := by
  induction vs generalizing s with
  | nil => cases h; simp [pushTargets]
  | cons v vs ih =>
    unfold pushAll at h
    split at h
    · cases h
    · rename_i u hu
      obtain ⟨pas, hp, rfl⟩ := push_ok hu
      rw [ih h, pushTargets_cons hp, setReg_written]
      simp only [setPhysBytes, mem_insertAddrs, List.mem_append, or_and_right, exists_or]
      rw [or_assoc, or_left_comm]

theorem below_below (a : Word) (k : Nat) :
    a - BitVec.ofNat 32 (4 * (k + 1 + 1)) = a - 4 - BitVec.ofNat 32 (4 * (k + 1)) := by
  rw [show 4 * (k + 1 + 1) = 4 * (k + 1) + 4 from by omega, BitVec.ofNat_add]
  generalize BitVec.ofNat 32 (4 * (k + 1)) = q
  bv_omega

/-- Without a translation table, and with memory everywhere, pushes store to the longwords below SP. -/
theorem pushTargets_identity {s : State} (h : s.plainMemory) {vs : List Word} {a : Word} :
    a ∈ pushTargets s vs ↔ ∃ k, k < vs.length ∧ a ∈ longAddrs (s.sp - BitVec.ofNat 32 (4 * (k + 1))) := by
  induction vs generalizing s with
  | nil => simp [pushTargets]
  | cons v vs ih =>
    rw [pushTargets_cons (translateLong_identity h.1 h.2 _ _), List.mem_append, ih (by exact h), setReg_sp_same]
    constructor
    · rintro (ha | ⟨k, hk, ha⟩)
      · exact ⟨0, by simp, by simpa using ha⟩
      · exact ⟨k + 1, by simpa using hk, by rw [below_below]; exact ha⟩
    · rintro ⟨k, hk, ha⟩
      cases k with
      | zero => exact .inl (by simpa using ha)
      | succ k => exact .inr ⟨k, by simpa using hk, by rw [← below_below]; exact ha⟩

/-- Without a translation table, and with memory everywhere, what is pushed is found where it was pushed. -/
theorem pushAll_stored {s t : State} {vs : List Word} (h : pushAll s vs = .ok t) (hp : s.plainMemory)
    (hm : Memory.wf s.mem = true) (hl : vs.length < 2 ^ 29) (k : Nat) (hk : k < vs.length) :
    storedLong t.mem (s.sp - BitVec.ofNat 32 (4 * (k + 1))) = vs[k] := by
  induction vs generalizing s k with
  | nil => cases hk
  | cons v vs ih =>
    unfold pushAll at h
    split at h
    · cases h
    · rename_i u hu
      obtain ⟨pas, htr, rfl⟩ := push_ok hu
      rw [translateLong_identity hp.1 hp.2] at htr
      cases htr
      cases k with
      | zero =>
        have := pushAll_mem h
        rw [storedLong_congr (m := Memory.writeAll s.mem (longAddrs (s.sp - 4)) (bytesOfLong v))]
        · exact storedLong_writeAll hm _ _
        · intro b hb
          refine this b fun hin => ?_
          obtain ⟨j, hj, hin⟩ := (pushTargets_identity (s := setReg (setPhysBytes s (longAddrs (s.sp - 4))
            (bytesOfLong v)) regSP (s.sp - 4)) hp).1 hin
          refine longAddrs_apart ?_ ?_ hb hin
          · simp only [setReg_sp_same]
            simp only [List.length_cons] at hl
            generalize s.sp = q
            bv_omega
          · simp only [setReg_sp_same]
            simp only [List.length_cons] at hl
            generalize s.sp = q
            bv_omega
      | succ k =>
        have := ih h hp (Memory.wf_writeAll hm) (by simp only [List.length_cons] at hl; omega) k
          (by simpa using hk)
        rw [List.getElem_cons_succ, ← this, setReg_sp_same, below_below]

/-! ## Entry -/

/-- The fields of a handler's PSL (R221). -/
theorem handlerPsl_fields (old : Word) (onIs : Bool) (level : Option (BitVec 5)) :
    pslCurMod (handlerPsl old onIs level) = 0 ∧ pslIs (handlerPsl old onIs level) = onIs := by
  have key : ∀ (m : BitVec 2) (i : BitVec 5) (b : Bool),
      pslCurMod (pslWithIpl (pslWithIs (m.setWidth 32 <<< 22) b) i) = 0 ∧
        pslIs (pslWithIpl (pslWithIs (m.setWidth 32 <<< 22) b) i) = b := by
    decide +kernel
  cases level with
  | none => exact key (pslCurMod old) (if onIs then 31 else pslIpl old) onIs
  | some l => exact key 0 l onIs

theorem stackCell_interrupt (s : State) {p : Word} (h : pslIs p = true) : stackCell s p = s.isp := if_pos h

theorem stackCell_kernel (s : State) {p : Word} (h : pslIs p = false) (hm : pslCurMod p = 0) :
    stackCell s p = s.spSlot[0] := by
  have hn : (pslCurMod p).toNat = 0 := by rw [hm]; rfl
  unfold stackCell
  rw [if_neg (by simp [h])]
  simp only [hn]

/-- Where a handler's pushes begin (R221). -/
theorem entryStart_sp (s : State) (off : Word) (level : Option (BitVec 5)) :
    (entryStart s off level).sp = entrySp s off := by
  obtain ⟨hm, hi⟩ := handlerPsl_fields s.psl (onInterruptStack s off) level
  rw [entryStart, switchStack_sp, entrySp]
  by_cases h : onInterruptStack s off = true
  · rw [if_pos h, stackCell_interrupt _ (hi.trans h)]
    have hi' := hi.trans h
    simp only [sameStack, hi', Bool.and_true, Bool.not_true, Bool.and_false, Bool.false_and, Bool.or_false]
  · have h' : onInterruptStack s off = false := by simpa using h
    have hs : pslIs s.psl = false := by
      simp only [onInterruptStack, Bool.or_eq_false_iff] at h'
      exact h'.1
    rw [if_neg h, stackCell_kernel _ (hi.trans h') hm]
    have hi' := hi.trans h'
    simp only [sameStack, hi', hs, hm, Bool.not_false, Bool.and_self, Bool.true_and, Bool.false_or, beq_iff_eq,
      State.mode]
    by_cases hk : pslCurMod s.psl = 0
    · exact (if_pos hk).trans (if_pos hk).symm
    · exact (if_neg hk).trans (if_neg hk).symm

/-- The places in a handler's frame of the saved PC and PSL, above `n` parameters. -/
theorem pc_slot (sp : Word) (n : Nat) :
    sp - BitVec.ofNat 32 (4 * (1 + 1)) = sp - BitVec.ofNat 32 (4 * (n + 2)) + BitVec.ofNat 32 (4 * n) := by
  rw [show 4 * (n + 2) = 4 * n + 8 from by omega, BitVec.ofNat_add]
  generalize BitVec.ofNat 32 (4 * n) = q
  bv_omega

theorem psl_slot (sp : Word) (n : Nat) :
    sp - BitVec.ofNat 32 (4 * (0 + 1)) = sp - BitVec.ofNat 32 (4 * (n + 2)) + BitVec.ofNat 32 (4 * n) + 4 := by
  rw [show 4 * (n + 2) = 4 * n + 8 from by omega, BitVec.ofNat_add]
  generalize BitVec.ofNat 32 (4 * n) = q
  bv_omega

theorem param_slot (sp : Word) {n k : Nat} (h : k < n) :
    sp - BitVec.ofNat 32 (4 * (k + 2 + 1)) = sp - BitVec.ofNat 32 (4 * (n + 2)) + BitVec.ofNat 32 (4 * (n - 1 - k)) := by
  rw [show 4 * (n + 2) = 4 * (k + 2 + 1) + 4 * (n - 1 - k) from by omega, BitVec.ofNat_add]
  generalize BitVec.ofNat 32 (4 * (k + 2 + 1)) = p
  generalize BitVec.ofNat 32 (4 * (n - 1 - k)) = q
  bv_omega

/-- Without a translation table, and with memory everywhere, a handler whose vector can be followed is entered
(R221). -/
theorem enterHandler_entered {s : State} {off : Word} {level : Option (BitVec 5)} {pc : Word} {params : List Word}
    (hp : s.plainMemory) (hm : Memory.wf s.mem = true) (hv : vectorUsable s off) (hl : params.length < 100) :
    ∃ t, enterHandler s off level pc params = .ok t ∧ handlerEntered s t off level pc params := by
  have hpush : ∃ u, pushAll (entryStart s off level) (entryFrame s pc params) = .ok u :=
    pushAll_identity (s := entryStart s off level) hp.1 hp.2 _
  obtain ⟨u, hu⟩ := hpush
  have he : enterHandler s off level pc params = .ok (finish u (vectorOf s off &&& 0xFFFFFFFC#32)) := by
    unfold enterHandler
    rw [requirePhys_of_wide hp.2]
    have hv' : (physLong s (s.scbb + off)).extractLsb' 0 2 = 0 ∨ (physLong s (s.scbb + off)).extractLsb' 0 2 = 1 := hv
    have hu' : pushAll (switchStack s s.sp (handlerPsl s.psl
        (pslIs s.psl || (physLong s (s.scbb + off)).extractLsb' 0 2 == 1) level)) (entryFrame s pc params) = .ok u := hu
    simp only [if_pos hv']
    rw [show pushAll (switchStack _ _ _) (pslToLong s.cfg s.psl :: pc :: params) = .ok u from hu']
    rfl
  refine ⟨_, he, ?_⟩
  obtain ⟨-, h1, h2⟩ := enterHandler_frame he
  obtain ⟨-, -, h3⟩ := pushAll_ok hu
  have hsp := entryStart_sp s off level
  have hst := pushAll_stored (s := entryStart s off level) hu hp hm (by simp only [entryFrame, List.length_cons]; omega)
  have hbase : u.sp = entrySp s off - BitVec.ofNat 32 (4 * (params.length + 2)) := by rw [h3, hsp]; rfl
  refine ⟨finish_pc _ _, h1, by rw [finish_sp, hbase], ?_, ?_, fun k hk => ?_, h2⟩
  · have := hst 1 (by simp [entryFrame])
    rw [hsp] at this
    rw [finish_sp, finish_mem, hbase, ← pc_slot, this]
    rfl
  · have := hst 0 (by simp [entryFrame])
    rw [hsp] at this
    rw [finish_sp, finish_mem, hbase, ← psl_slot, this]
    rfl
  · have := hst (k + 2) (by simpa [entryFrame] using hk)
    rw [hsp] at this
    rw [finish_sp, finish_mem, hbase, ← param_slot _ hk, this]
    rfl

/-- What entry to a handler leaves alone, and where it stores (R212, R221). -/
theorem enterHandler_keeps {s t : State} {off : Word} {level : Option (BitVec 5)} {pc : Word} {params : List Word}
    (h : enterHandler s off level pc params = .ok t) :
    entryKeeps s t off level (entryFrame s pc params) ∧ t.astRequest = s.astRequest := by
  obtain ⟨hf, -, hr⟩ := enterHandler_frame h
  obtain ⟨u, hu, rfl⟩ := enterHandler_ok h
  have hc : ∀ p, stackCell (finish u (physLong s (s.scbb + off) &&& 0xFFFFFFFC#32)) p =
      stackCell (entryStart s off level) p := by
    intro p
    show stackCell u p = _
    rw [(pushAll_ok hu).1]
    rfl
  have hm : sameMemoryOutside (entryStart s off level) u (pushTargets (entryStart s off level) (entryFrame s pc params)) :=
    pushAll_mem hu
  rw [hf]
  refine ⟨⟨rfl, by rw [← hf]; exact hr, ⟨rfl, rfl, rfl, rfl, rfl, rfl, rfl, rfl, rfl⟩,
    ⟨rfl, rfl, rfl, rfl, rfl, rfl, rfl⟩, rfl, rfl, rfl, rfl, fun p hp => ?_, ?_, hm⟩, rfl⟩
  · rw [← hf, hc, entryStart, stackCell_switchStack, hp]
    rfl
  · rw [← hf, hc, entryStart, stackCell_switchStack, sameStack_refl]
    rfl

/-- That the AST is no longer requested changes nothing of what entry to its handler keeps (R224). -/
theorem entryKeeps_astTaken {s t : State} {off : Word} {level : Option (BitVec 5)} {frame : List Word}
    (h : entryKeeps (astTaken s) t off level frame) : entryKeeps s t off level frame := by
  obtain ⟨h1, h2, h3, h4, h5, h6, h7, h8, h9, h10, h11⟩ := h
  refine ⟨h1, h2, h3, h4, h5, h6, h7, h8, h9, h10, ?_⟩
  rw [pushTargets_congr (s := entryStart s off level) (t := entryStart (astTaken s) off level)
    ⟨rfl, rfl, rfl, rfl, rfl, rfl, rfl⟩ rfl] at h11
  exact h11

/-- When handlers are entered, an exception with a vector is that entry (R221). -/
theorem raise_enter {s : State} {e : Exc} {off : Word} (h : s.cfg.handlerEntry = true)
    (ho : scbOffset s.cfg e = some off) :
    raise s e = match enterHandler s off none (savedPc s e) (excParams s e) with
      | .ok s' => .next s'
      | .error f => .fault f := by
  cases he : enterHandler s off none (savedPc s e) (excParams s e) <;> simp only [raise, h, ho, he, if_true]

/-- The VM-emulation trap ends the run (R217). -/
theorem raise_vmEmulationTrap (s : State) : raise s .vmEmulationTrap = .fault (.exception .vmEmulationTrap s.pc) := by
  unfold raise
  cases s.cfg.handlerEntry <;> rfl

/-- Taking an exception or an AST's interrupt leaves the handler's PSL (R221). -/
theorem raise_psl {s t : State} {e : Exc} (h : raise s e = .next t) :
    ∃ off, scbOffset s.cfg e = some off ∧ t.psl = handlerPsl s.psl (onInterruptStack s off) none := by
  obtain ⟨-, off, ho, h⟩ := raise_next h
  exact ⟨off, ho, (enterHandler_frame h).2.1⟩

end Sys2Proof.Machine
end

