-- ==== Sys2Proof/Laws/Frames.lean ====
section
/-!
SUPPORT. What each instruction that completes, and each exception taken, leaves unchanged.
-/

namespace Sys2Proof.Machine

/-- Taking an exception changes SP, PC, the PSL, the stack pointers' cells, memory and the record of stores alone. -/
theorem raise_frame {s t : State} {e : Exc} (h : raise s e = .next t) :
    t = { s with x := t.x, psl := t.psl, isp := t.isp, spSlot := t.spSlot, mem := t.mem, written := t.written,
                 draws := t.draws } := by
  obtain ⟨-, off, -, h⟩ := raise_next h
  exact (enterHandler_frame h).1

/-! ## Switches of stack -/

theorem toKernelStack_psl (s : State) :
    (toKernelStack s).psl = if pslIs s.psl then pslWithIs s.psl false else s.psl := by
  unfold toKernelStack
  by_cases h : pslIs s.psl = true
  · rw [if_pos h, if_pos h]; rfl
  · rw [if_neg h, if_neg h]; split <;> rfl

theorem toInterruptStack_psl (s : State) :
    (toInterruptStack s).psl = if pslIs s.psl then s.psl else svpctxPsl s.psl := by
  unfold toInterruptStack
  by_cases h : pslIs s.psl = true
  · rw [if_pos h, if_pos h]
  · rw [if_neg h, if_neg h]; rfl

@[simp] theorem toInterruptStack_isp (s : State) : (toInterruptStack s).isp = s.isp := by
  unfold toInterruptStack
  by_cases h : pslIs s.psl = true
  · rw [if_pos h]
  · rw [if_neg h]; exact if_neg h

/-! ## The process control block -/

/-- The first longword of a list stored in the PCB, and then the others. -/
theorem pcbWriteAll_cons_mem (s : State) (p : Word × Word) (l : List (Word × Word)) :
    (pcbWriteAll s (p :: l)).mem =
      (pcbWriteAll { s with mem := Memory.writeAll s.mem (longAddrs (s.pcbb + p.1)) (bytesOfLong p.2) } l).mem :=
  Memory.writeAll_append (by rfl) s.mem

/-- Stores in the PCB keep the canonical form. -/
theorem pcbWriteAll_wf {s : State} (l : List (Word × Word)) (h : Memory.wf s.mem = true) :
    Memory.wf (pcbWriteAll s l).mem = true := by
  simp only [pcbWriteAll, setPhysBytes_mem]
  exact Memory.wf_writeAll h

/-- A longword of the PCB apart from those stored is unchanged. -/
theorem pcbWriteAll_apart (s : State) {l : List (Word × Word)} {off : Word}
    (h : ∀ p ∈ l, 4 ≤ (off - p.1).toNat ∧ 4 ≤ (p.1 - off).toNat) :
    storedLong (pcbWriteAll s l).mem (s.pcbb + off) = storedLong s.mem (s.pcbb + off) := by
  refine storedLong_congr fun b hb => ?_
  refine sameMemoryOutside_setPhysBytes s _ _ b fun hin => ?_
  obtain ⟨p, hp, hin⟩ := List.mem_flatMap.1 hin
  obtain ⟨h1, h2⟩ := h p hp
  refine longAddrs_apart ?_ ?_ hb hin
  · rwa [show s.pcbb + off - (s.pcbb + p.1) = off - p.1 by bv_omega]
  · rwa [show s.pcbb + p.1 - (s.pcbb + off) = p.1 - off by bv_omega]

/-- Longwords stored in the PCB at offsets that lie apart are all there. -/
theorem pcbWriteAll_stored {l : List (Word × Word)} (h : offsetsApart (l.map Prod.fst)) :
    ∀ {s : State}, Memory.wf s.mem = true → ∀ p ∈ l, storedLong (pcbWriteAll s l).mem (s.pcbb + p.1) = p.2 := by
  induction l with
  | nil => simp
  | cons q l ih =>
    intro s hm p hp
    rw [offsetsApart, List.map_cons, List.pairwise_cons] at h
    rw [pcbWriteAll_cons_mem]
    rcases List.mem_cons.1 hp with rfl | hp
    · have := pcbWriteAll_apart
        { s with mem := Memory.writeAll s.mem (longAddrs (s.pcbb + p.1)) (bytesOfLong p.2) } (l := l) (off := p.1)
        (fun r hr => h.1 r.1 (List.mem_map_of_mem hr))
      exact this.trans (storedLong_writeAll hm _ _)
    · exact ih h.2 (Memory.wf_writeAll hm) p hp

/-- The offsets of SVPCTX's first stores (R142). -/
theorem svpctxStores_offsets (s : State) (a b : Word) :
    (svpctxStores s a b).map Prod.fst =
      s.cfg.pcb.gpr.toList ++ [s.cfg.pcb.pc, s.cfg.pcb.psl] ++ (if s.cfg.hasASN then [s.cfg.pcb.prvcpu] else []) := by
  have : ((List.finRange 14).map (fun i => (s.cfg.pcb.gpr[i], getReg s (i.castLE (by decide))))).map Prod.fst =
      s.cfg.pcb.gpr.toList := by
    apply List.ext_getElem
    · simp
    · intro i h1 h2
      simp
  simp only [svpctxStores, List.map_append, this]
  split <;> simp

/-- The offsets of the stack pointers' stores (R142). -/
theorem svpctxSlots_offsets (s : State) : (svpctxSlots s).map Prod.fst = s.cfg.pcb.sp.toList := by
  apply List.ext_getElem
  · simp [svpctxSlots]
  · intro i h1 h2
    simp [svpctxSlots]

/-- SVPCTX's stores lie in the fields it saves (R142). -/
theorem svpctxStores_saved {s : State} {a b : Word} {p : Word × Word} (h : p ∈ svpctxStores s a b) :
    p.1 ∈ pcbSavedOffsets s.cfg := by
  have := List.mem_map_of_mem (f := Prod.fst) h
  rw [svpctxStores_offsets] at this
  simp only [pcbSavedOffsets, List.append_assoc, List.mem_append] at *
  exact .inr this

theorem svpctxSlots_saved {s : State} {p : Word × Word} (h : p ∈ svpctxSlots s) : p.1 ∈ pcbSavedOffsets s.cfg := by
  have := List.mem_map_of_mem (f := Prod.fst) h
  rw [svpctxSlots_offsets] at this
  simp only [pcbSavedOffsets, List.append_assoc, List.mem_append]
  exact .inl this

/-- Where the fields lie apart, what SVPCTX stores is there when it is done (R142). -/
theorem svpctxSave_stored {s : State} {a b : Word} (hm : Memory.wf s.mem = true)
    (h : offsetsApart (pcbSavedOffsets s.cfg)) :
    (∀ p ∈ svpctxStores s a b, storedLong (svpctxSave s a b).mem (s.pcbb + p.1) = p.2) ∧
      ∀ p ∈ svpctxSlots (svpctxLeave s a b), storedLong (svpctxSave s a b).mem (s.pcbb + p.1) = p.2 := by
  have h' : offsetsApart ((svpctxSlots (svpctxLeave s a b)).map Prod.fst ++ (svpctxStores s a b).map Prod.fst) := by
    rw [svpctxSlots_offsets, svpctxStores_offsets, svpctxLeave_cfg]
    simpa [pcbSavedOffsets] using h
  rw [offsetsApart, List.pairwise_append] at h'
  obtain ⟨h1, h2, h3⟩ := h'
  have hw : Memory.wf (svpctxLeave s a b).mem = true := by
    rw [svpctxLeave_mem]
    exact pcbWriteAll_wf _ hm
  rw [svpctxSave_mem]
  refine ⟨fun p hp => ?_, fun p hp => ?_⟩
  · have := pcbWriteAll_apart (svpctxLeave s a b) (l := svpctxSlots (svpctxLeave s a b)) (off := p.1)
      (fun r hr => (h3 _ (List.mem_map_of_mem hr) _ (List.mem_map_of_mem hp)).symm)
    rw [svpctxLeave_pcbb] at this
    rw [this, svpctxLeave_mem]
    exact pcbWriteAll_stored h2 hm p hp
  · have := pcbWriteAll_stored (s := svpctxLeave s a b) h1 hw p hp
    rwa [svpctxLeave_pcbb] at this

/-! ## Completions -/

/-- LDPCTX (R131, R137). -/
theorem ldpctxBody_frame {s t : State} (h : ldpctxBody s = .ok t) :
    t.cfg = s.cfg ∧ t.psl = (if pslIs s.psl then pslWithIs s.psl false else s.psl) ∧ sameVectorState s t ∧
      t.vecMap = s.vecMap ∧ t.pcbb = s.pcbb ∧ t.scbb = s.scbb ∧ t.cpuid = s.cpuid ∧ t.vmpsl = s.vmpsl ∧
      t.astRequest = s.astRequest ∧ t.astlvl = pcbAstlvl s := by
  obtain ⟨-, -, s2, s3, h2, h3, rfl⟩ := ldpctxBody_ok h
  obtain ⟨p2, -, rfl⟩ := push_ok h2
  obtain ⟨p3, -, rfl⟩ := push_ok h3
  exact ⟨by simp, toKernelStack_psl _, by simp [sameVectorState], by simp, by simp, by simp, by simp, by simp, by simp,
    by simp⟩

/-- SVPCTX (R140, R142, R144). -/
theorem svpctxBody_frame {s t : State} (h : svpctxBody s = .ok t) :
    t.cfg = s.cfg ∧ t.psl = (if pslIs s.psl then s.psl else svpctxPsl s.psl) ∧ sameVectorState s t ∧
      sameProcessorRegisters s t ∧ t.astRequest = s.astRequest ∧ t.afterLdpctx = s.afterLdpctx ∧
      t.tbEvents = s.tbEvents ∧ t.isp = s.isp := by
  obtain ⟨-, a, b, -, -, rfl⟩ := svpctxBody_ok h
  refine ⟨by simp [svpctxSave], ?_, by simp [svpctxSave, sameVectorState], by simp [svpctxSave, sameProcessorRegisters],
    by simp [svpctxSave], by simp [svpctxSave], by simp [svpctxSave], by simp [svpctxSave, svpctxLeave]⟩
  simp only [svpctxSave, svpctxLeave, finish_psl, svpctxDone_psl, pcbWriteAll_psl, toInterruptStack_psl, setReg_psl]
  rfl

/-- MTPR (R145, R147). -/
theorem mtprBody_frame {s t : State} {src procreg : Specifier} (h : mtprBody src procreg s = .ok t) :
    ∃ v s1 n s2 r, readOperand s src (pcAfter1 s src) 0 = .ok (v, s1) ∧
      readOperand s1 procreg (pcAfter2 s src procreg) 1 = .ok (n, s2) ∧ iprMap s.cfg n = some r ∧
      mtprAccepts s r v = true ∧ t.cfg = s.cfg ∧ sameIprsBut r s t ∧
      t.psl = pslWithCc s.psl (Config.freeFlags s.draws) ∧ t.astRequest = s.astRequest ∧
      t.inSwitchWindow = s.inSwitchWindow ∧ t.afterLdpctx = s.afterLdpctx ∧ t.loadedPcb = s.loadedPcb ∧
      t.mem = s.mem ∧ t.written = s.written ∧
      ∀ q, q ∉ specUpdates src → q ∉ specUpdates procreg → q ≠ regPC →
        (q ≠ regSP ∨ activeStackIpr s r = false) → getReg t q = getReg s q := by
  obtain ⟨-, ⟨v, s1⟩, ⟨n, s2⟩, r, u, h1, h2, h3, h4, rfl⟩ := mtprBody_ok h
  obtain ⟨o1, o2⟩ := readOperand_ok h1
  obtain ⟨o3, o4⟩ := readOperand_ok h2
  dsimp only at o1 o2 o3 o4 h3 h4
  have es2 : s2 = { s with x := s2.x } := by rw [o3, o1]
  obtain ⟨i1, i2, i3, i4, i5, i6, i7, i8, i9, i10, i11, i12⟩ := iprWrite_ok h4
  have hr : iprMap s.cfg n = some r := by
    unfold writableIpr at h3
    split at h3
    · cases h3
    · split at h3
      · cases h3
      · rename_i hr _
        cases h3
        exact hr
  refine ⟨v, s1, n, s2, r, h1, h2, hr, ?_⟩
  rw [es2] at i1 i2 i3 i4 i5 i6 i7 i8 i9 i10 i11
  refine ⟨by cases r <;> exact i1, i3, i2, ?_, i8, i9, i10, i11, i5, i6, fun q q1 q2 q3 q4 => ?_⟩
  · simp only [finish_psl, drawCc_psl]
    rw [i4, i7]
  · rw [getReg_finish, if_neg q3]
    show getReg u q = _
    rw [i12 q ?_, o4 q q2, o2 q q1]
    refine q4.imp id fun q4 => ?_
    rw [es2]
    cases r <;> exact q4

/-- ASTLVL stays at most 4 (R33, R149). -/
theorem mtprBody_astlvl {s t : State} {src procreg : Specifier} (h : mtprBody src procreg s = .ok t)
    (hs : s.astlvl.toNat ≤ 4) : t.astlvl.toNat ≤ 4 := by
  obtain ⟨-, ⟨v, s1⟩, ⟨n, s2⟩, r, u, h1, h2, -, h4, rfl⟩ := mtprBody_ok h
  obtain ⟨o1, -⟩ := readOperand_ok h1
  obtain ⟨o3, -⟩ := readOperand_ok h2
  dsimp only at o1 o3 h4
  have e : s2.astlvl = s.astlvl := by rw [o3, o1]
  by_cases hr : r = .astlvl
  · subst hr
    simp only [iprWrite, astlvlWrite] at h4
    split at h4
    · rename_i hv
      cases h4
      show (v.extractLsb' 0 3).toNat ≤ 4
      rw [BitVec.extractLsb'_toNat]
      simp only [Nat.shiftRight_zero]
      exact le_trans (Nat.mod_le _ _) hv
    · cases h4
  · have hf := (iprWrite_ok h4).2.1
    unfold sameIprsBut at hf
    have := hf.2.2.2.2.2.2.2.2.2.2.2.1 hr
    show u.astlvl.toNat ≤ 4
    rw [this, e]
    exact hs

/-- What a destination receives. -/
theorem writeOperand_ok {s t : State} {d : Loc} {v : Word} (h : writeOperand s d v = .ok t) :
    (∃ r, d = .reg r ∧ t = setReg s r v) ∨
      ∃ a pas, d = .mem a ∧ translateLong s a .write = .ok pas ∧ t = setPhysBytes s pas (bytesOfLong v) := by
  cases d with
  | value _ => cases h
  | reg r => cases h; exact .inl ⟨r, rfl, rfl⟩
  | mem a =>
    obtain ⟨p, h1, h2⟩ := memWrite_ok h
    exact .inr ⟨a, p, rfl, h1, h2⟩

/-- MFPR (R152). -/
theorem mfprBody_frame {s t : State} {procreg dst : Specifier} (h : mfprBody procreg dst s = .ok t) :
    t = { s with x := t.x, mem := t.mem, written := t.written, psl := pslWithCc s.psl (Config.freeFlags s.draws),
                 draws := s.draws + 1 } ∧
      (t.mem = s.mem ∧ t.written = s.written ∨
        ∃ pas v, t.mem = Memory.writeAll s.mem pas (bytesOfLong v) ∧ t.written = insertAddrs pas s.written) := by
  obtain ⟨-, ⟨n, s1⟩, ⟨d, s2⟩, r, v, u, h1, h2, h3, h4, h5, rfl⟩ := mfprBody_ok h
  obtain ⟨o1, -⟩ := readOperand_ok h1
  obtain ⟨⟨o3, -⟩, -⟩ := resolveDestination_ok h2
  dsimp only at o1 o3 h5
  have es2 : s2 = { s with x := s2.x } := by rw [o3, o1]
  rcases writeOperand_ok h5 with ⟨r, rfl, rfl⟩ | ⟨a, pas, rfl, -, rfl⟩
  · rw [es2]; exact ⟨rfl, .inl ⟨rfl, rfl⟩⟩
  · rw [es2]; exact ⟨rfl, .inr ⟨pas, v, rfl, rfl⟩⟩

/-! ## LDPCTX once its PCB is known to be in memory -/

/-- Loading the context and switching to the kernel stack change no byte of the PCB. -/
theorem pcbRead_loaded (s : State) (off : Word) : pcbRead (toKernelStack (ldpctxLoad s)) off = pcbRead s off := by
  have : physByte (toKernelStack (ldpctxLoad s)) = physByte s := by apply physByte_congr <;> simp
  simp only [pcbRead, physLong, this, toKernelStack_pcbb, ldpctxLoad_pcbb]

/-- LDPCTX in kernel mode (R131). -/
theorem exec_ldpctx_eq {s : State} (hp : s.privileged) (ha : s.pcbb.extractLsb' 0 2 = 0)
    (hq : requirePhys s.cfg (pcbAddrs s) = .ok ()) :
    exec .ldpctx s = settle s (if pcbValid s then
      ldpctxPush s.pc (toKernelStack (ldpctxLoad s)) (pcbRead s s.cfg.pcb.psl) >>= fun s2 =>
        ldpctxPush s.pc s2 (pcbRead s2 s2.cfg.pcb.pc) >>= fun s3 =>
          .ok (finish (ldpctxDone s3 s.pcbb (s.pc + 1)) (s.pc + 1))
      else .error (.exc .reservedOperandAbort)) := by
  show settle s (ldpctxBody s) = _
  have h1 : requirePcbbAligned s = .ok () := if_pos ha
  have h2 : requirePcb s = .ok () := by simp only [requirePcb, hq]
  simp only [ldpctxBody, privilegeCheck_kernel hp.2 hp.1, h1, h2, res_ok_bind]
  split
  · simp only [toKernelStack_cfg, ldpctxLoad_cfg, pcbRead_loaded]; rfl
  · rfl

/-! ## MTPR and MFPR on operands that have been read -/

/-- MTPR in kernel mode, once its operands are read (R145). -/
theorem exec_mtpr_eq {s s1 s2 : State} {src procreg : Specifier} {v n : Word} (hp : s.privileged)
    (h1 : readOperand s src (pcAfter1 s src) 0 = .ok (v, s1))
    (h2 : readOperand s1 procreg (pcAfter2 s src procreg) 1 = .ok (n, s2)) :
    exec (.mtpr src procreg) s = settle s (writableIpr s.cfg n >>= fun r => iprWrite s2 r v >>= fun u =>
      .ok (finish (drawCc u) (pcAfter2 s src procreg))) := by
  show settle s (mtprBody src procreg s) = _
  rw [mtprBody, privilegeCheck_kernel hp.2 hp.1, res_ok_bind, h1, res_ok_bind, h2, res_ok_bind]
  rfl

/-- MFPR in kernel mode, once its operands are evaluated (R152). -/
theorem exec_mfpr_eq {s s1 s2 : State} {procreg dst : Specifier} {n : Word} {d : Loc} (hp : s.privileged)
    (h1 : readOperand s procreg (pcAfter1 s procreg) 0 = .ok (n, s1))
    (h2 : resolveDestination s1 dst (pcAfter2 s procreg dst) 1 = .ok (d, s2)) :
    exec (.mfpr procreg dst) s = settle s (readableIpr s.cfg n >>= fun r => iprRead s2 r >>= fun v =>
      writeOperand s2 d v >>= fun u => .ok (finish (drawCc u) (pcAfter2 s procreg dst))) := by
  show settle s (mfprBody procreg dst s) = _
  rw [mfprBody, privilegeCheck_kernel hp.2 hp.1, res_ok_bind, h1, res_ok_bind, h2, res_ok_bind]
  rfl

/-- Two operands read change general registers alone. -/
theorem readOperands_state {s s1 s2 : State} {a b : Specifier} {v n pa pb : Word}
    (h1 : readOperand s a pa 0 = .ok (v, s1)) (h2 : readOperand s1 b pb 1 = .ok (n, s2)) :
    s2 = { s with x := s2.x } := by
  have e1 := (readOperand_ok h1).1
  have e2 := (readOperand_ok h2).1
  dsimp only at e1 e2
  rw [e2, e1]

/-- The address after the second specifier is that of the next instruction (R98). -/
theorem pcAfter2_eq (s : State) (a b : Specifier) :
    pcAfter2 s a b = s.pc + BitVec.ofNat 32 (instrLength (.mtpr a b)) := by
  simp only [pcAfter2, pcAfter1, instrLength, encode, specLength, List.length_cons, List.length_append]
  rw [BitVec.ofNat_add, BitVec.ofNat_add]
  generalize BitVec.ofNat 32 _ = p
  generalize BitVec.ofNat 32 _ = q
  generalize s.pc = r
  bv_omega

theorem writableIpr_of {cfg : Params} {n : Word} {r : Ipr} (h : iprMap cfg n = some r)
    (hc : iprClass cfg n ≠ some .readOnly) : writableIpr cfg n = .ok r := by
  unfold writableIpr
  rw [h]
  exact if_neg hc

theorem readableIpr_of {cfg : Params} {n : Word} {r : Ipr} (h : iprMap cfg n = some r)
    (hc : iprClass cfg n ≠ some .writeOnly) : readableIpr cfg n = .ok r := by
  unfold readableIpr
  rw [h]
  exact if_neg hc

/-- A value that MTPR accepts is written (R149). -/
theorem iprWrite_of {s : State} {r : Ipr} {w : Word} (h : mtprAccepts s r w = true) : ∃ u, iprWrite s r w = .ok u := by
  cases r <;> simp only [mtprAccepts, iprWrite] at *
  case ksp | esp | ssp | usp | isp =>
    have : ¬ s.inSwitchWindow = true := by simpa using h
    unfold stackWrite
    rw [if_neg this]
    split <;> exact ⟨_, rfl⟩
  case p0br | p0lr | p1br | p1lr =>
    unfold mapWrite
    rw [if_pos h]
    exact ⟨_, rfl⟩
  case astlvl =>
    unfold astlvlWrite
    rw [if_pos (by simpa using h)]
    exact ⟨_, rfl⟩
  case vaer | vmac => cases h
  case vpsr =>
    simp only [Bool.and_eq_true, beq_iff_eq, decide_eq_true_eq, Bool.not_eq_true', ← Bool.not_eq_true,
      Bool.or_eq_true] at h
    obtain ⟨⟨⟨a, b⟩, c⟩, d⟩ := h
    unfold vpsrWrite
    rw [if_neg (by simpa using a), if_neg (by simpa using b), if_neg c, if_neg d]
    exact ⟨_, rfl⟩
  all_goals exact ⟨_, rfl⟩

end Sys2Proof.Machine
end

