-- ==== Sys2Proof/Laws/PerInstr.lean ====
section
/-!
SUPPORT. A law of every instruction as syntax, one lemma per constructor: its length is at least one byte and at most
`maxLength`, so that the bytes a step may fetch hold it.
-/

namespace Sys2Proof.Laws.LengthBound

/-- R98: the length of an instruction lies between one byte and the longest. -/
def Statement (i : Instr) : Prop := 1 ≤ instrLength i ∧ instrLength i ≤ maxLength

theorem encodeBase_length (b : Base) : 1 ≤ (encodeBase b).length ∧ (encodeBase b).length ≤ 5 := by
  cases b <;> simp [encodeBase, bytesOfLong, bytesOfShort]

theorem encodeSpecifier_length (sp : Specifier) :
    1 ≤ (encodeSpecifier sp).length ∧ (encodeSpecifier sp).length ≤ 6 := by
  cases sp with
  | plain b =>
    have := encodeBase_length b
    simp only [encodeSpecifier]
    omega
  | indexed x b =>
    have := encodeBase_length b
    simp only [encodeSpecifier, List.length_cons]
    omega

theorem rei : Statement .rei := by simp [Statement, instrLength, encode, maxLength]

theorem ldpctx : Statement .ldpctx := by simp [Statement, instrLength, encode, maxLength]

theorem svpctx : Statement .svpctx := by simp [Statement, instrLength, encode, maxLength]

theorem mtpr (src procreg : Specifier) : Statement (.mtpr src procreg) := by
  have h1 := encodeSpecifier_length src
  have h2 := encodeSpecifier_length procreg
  simp only [Statement, instrLength, encode, maxLength, List.length_cons, List.length_append]
  omega

theorem mfpr (procreg dst : Specifier) : Statement (.mfpr procreg dst) := by
  have h1 := encodeSpecifier_length procreg
  have h2 := encodeSpecifier_length dst
  simp only [Statement, instrLength, encode, maxLength, List.length_cons, List.length_append]
  omega

theorem bugw (message : BitVec 16) : Statement (.bugw message) := by
  simp [Statement, instrLength, encode, maxLength, bytesOfShort]

theorem bugl (message : BitVec 32) : Statement (.bugl message) := by
  simp [Statement, instrLength, encode, maxLength, bytesOfLong]

end Sys2Proof.Laws.LengthBound
end

