-- ==== Sys2Proof/Laws/Psl.lean ====
section
/-!
SUPPORT. The fields of a PSL under each of its updates (10_state R26), and which updates keep a PSL consistent
(40_privileged R123).
-/

namespace Sys2Proof.Machine

/-- A field is unchanged by an `or` with a constant that is zero there. -/
theorem extractLsb'_or_of_zero {w c : Word} {i n : Nat} (h : c.extractLsb' i n = 0) :
    (w ||| c).extractLsb' i n = w.extractLsb' i n := by
  rw [BitVec.extractLsb'_or, h]
  simp

/-- A field is unchanged by an `and` with a constant that is all ones there. -/
theorem extractLsb'_and_of_ones {w c : Word} {i n : Nat} (h : c.extractLsb' i n = BitVec.allOnes n) :
    (w &&& c).extractLsb' i n = w.extractLsb' i n := by
  rw [BitVec.extractLsb'_and, h]
  simp

/-! ## IS -/

@[simp] theorem pslIs_pslWithIs (p : Word) (b : Bool) : pslIs (pslWithIs p b) = b := by
  cases b <;> simp [pslIs, pslWithIs]

theorem pslWithIs_field (p : Word) (b : Bool) {i n : Nat} (h : (0x04000000#32).extractLsb' i n = 0)
    (h' : (0xFBFFFFFF#32).extractLsb' i n = BitVec.allOnes n) :
    (pslWithIs p b).extractLsb' i n = p.extractLsb' i n := by
  cases b
  · exact extractLsb'_and_of_ones h'
  · exact extractLsb'_or_of_zero h

@[simp] theorem pslCurMod_pslWithIs (p : Word) (b : Bool) : pslCurMod (pslWithIs p b) = pslCurMod p :=
  pslWithIs_field p b (by decide) (by decide)

@[simp] theorem pslPrvMod_pslWithIs (p : Word) (b : Bool) : pslPrvMod (pslWithIs p b) = pslPrvMod p :=
  pslWithIs_field p b (by decide) (by decide)

@[simp] theorem pslIpl_pslWithIs (p : Word) (b : Bool) : pslIpl (pslWithIs p b) = pslIpl p :=
  pslWithIs_field p b (by decide) (by decide)

@[simp] theorem pslCc_pslWithIs (p : Word) (b : Bool) : pslCc (pslWithIs p b) = pslCc p :=
  pslWithIs_field p b (by decide) (by decide)

@[simp] theorem pslTrapEnables_pslWithIs (p : Word) (b : Bool) : pslTrapEnables (pslWithIs p b) = pslTrapEnables p :=
  pslWithIs_field p b (by decide) (by decide)

@[simp] theorem pslCm_pslWithIs (p : Word) (b : Bool) : pslCm (pslWithIs p b) = pslCm p := by
  cases b <;> simp [pslCm, pslWithIs]

@[simp] theorem pslFpd_pslWithIs (p : Word) (b : Bool) : pslFpd (pslWithIs p b) = pslFpd p := by
  cases b <;> simp [pslFpd, pslWithIs]

/-! ## IPL -/

@[simp] theorem pslIpl_pslWithIpl (p : Word) (l : BitVec 5) : pslIpl (pslWithIpl p l) = l := by
  apply BitVec.eq_of_getLsbD_eq
  intro i hi
  interval_cases i <;> simp [pslIpl, pslWithIpl]

theorem pslWithIpl_getLsbD (p : Word) (l : BitVec 5) {i : Nat} (hi : i < 16 ∨ 21 ≤ i) :
    (pslWithIpl p l).getLsbD i = p.getLsbD i := by
  by_cases h32 : i < 32
  · simp only [pslWithIpl, BitVec.getLsbD_or, BitVec.getLsbD_and, BitVec.getLsbD_shiftLeft, BitVec.getLsbD_setWidth]
    have hm : (0xFFE0FFFF#32).getLsbD i = true := by
      rcases hi with hi | hi <;> interval_cases i <;> decide
    rw [hm]
    simp only [Bool.and_true]
    by_cases h16 : i < 16
    · simp [h16]
    · rw [BitVec.getLsbD_of_ge l (i - 16) (by omega)]
      simp
  · rw [BitVec.getLsbD_of_ge _ _ (by omega), BitVec.getLsbD_of_ge _ _ (by omega)]

theorem pslWithIpl_field (p : Word) (l : BitVec 5) {i n : Nat} (h : i + n ≤ 16 ∨ 21 ≤ i) :
    (pslWithIpl p l).extractLsb' i n = p.extractLsb' i n := by
  apply BitVec.eq_of_getLsbD_eq
  intro j hj
  rw [BitVec.getLsbD_extractLsb', BitVec.getLsbD_extractLsb', pslWithIpl_getLsbD]
  omega

@[simp] theorem pslCurMod_pslWithIpl (p : Word) (l : BitVec 5) : pslCurMod (pslWithIpl p l) = pslCurMod p :=
  pslWithIpl_field p l (by decide)

@[simp] theorem pslPrvMod_pslWithIpl (p : Word) (l : BitVec 5) : pslPrvMod (pslWithIpl p l) = pslPrvMod p :=
  pslWithIpl_field p l (by decide)

@[simp] theorem pslCc_pslWithIpl (p : Word) (l : BitVec 5) : pslCc (pslWithIpl p l) = pslCc p :=
  pslWithIpl_field p l (by decide)

@[simp] theorem pslTrapEnables_pslWithIpl (p : Word) (l : BitVec 5) :
    pslTrapEnables (pslWithIpl p l) = pslTrapEnables p := pslWithIpl_field p l (by decide)

@[simp] theorem pslIs_pslWithIpl (p : Word) (l : BitVec 5) : pslIs (pslWithIpl p l) = pslIs p :=
  pslWithIpl_getLsbD p l (by decide)

@[simp] theorem pslCm_pslWithIpl (p : Word) (l : BitVec 5) : pslCm (pslWithIpl p l) = pslCm p :=
  pslWithIpl_getLsbD p l (by decide)

@[simp] theorem pslFpd_pslWithIpl (p : Word) (l : BitVec 5) : pslFpd (pslWithIpl p l) = pslFpd p :=
  pslWithIpl_getLsbD p l (by decide)

/-! ## N, Z, V, C -/

theorem pslWithCc_getLsbD (p : Word) (c : BitVec 4) {i : Nat} (hi : 4 ≤ i) :
    (pslWithCc p c).getLsbD i = p.getLsbD i := by
  by_cases h32 : i < 32
  · have hm : (0xFFFFFFF0#32).getLsbD i = true := by interval_cases i <;> decide
    simp only [pslWithCc, BitVec.getLsbD_or, BitVec.getLsbD_and, BitVec.getLsbD_setWidth, hm,
      BitVec.getLsbD_of_ge c i hi]
    simp
  · rw [BitVec.getLsbD_of_ge _ _ (by omega), BitVec.getLsbD_of_ge _ _ (by omega)]

theorem pslWithCc_field (p : Word) (c : BitVec 4) {i n : Nat} (h : 4 ≤ i) :
    (pslWithCc p c).extractLsb' i n = p.extractLsb' i n := by
  apply BitVec.eq_of_getLsbD_eq
  intro j hj
  rw [BitVec.getLsbD_extractLsb', BitVec.getLsbD_extractLsb', pslWithCc_getLsbD]
  omega

@[simp] theorem pslCc_pslWithCc (p : Word) (c : BitVec 4) : pslCc (pslWithCc p c) = c := by
  apply BitVec.eq_of_getLsbD_eq
  intro i hi
  interval_cases i <;> simp [pslCc, pslWithCc]

@[simp] theorem pslCurMod_pslWithCc (p : Word) (c : BitVec 4) : pslCurMod (pslWithCc p c) = pslCurMod p :=
  pslWithCc_field p c (by decide)

@[simp] theorem pslPrvMod_pslWithCc (p : Word) (c : BitVec 4) : pslPrvMod (pslWithCc p c) = pslPrvMod p :=
  pslWithCc_field p c (by decide)

@[simp] theorem pslIpl_pslWithCc (p : Word) (c : BitVec 4) : pslIpl (pslWithCc p c) = pslIpl p :=
  pslWithCc_field p c (by decide)

@[simp] theorem pslTrapEnables_pslWithCc (p : Word) (c : BitVec 4) :
    pslTrapEnables (pslWithCc p c) = pslTrapEnables p := pslWithCc_field p c (by decide)

@[simp] theorem pslIs_pslWithCc (p : Word) (c : BitVec 4) : pslIs (pslWithCc p c) = pslIs p :=
  pslWithCc_getLsbD p c (by decide)

@[simp] theorem pslCm_pslWithCc (p : Word) (c : BitVec 4) : pslCm (pslWithCc p c) = pslCm p :=
  pslWithCc_getLsbD p c (by decide)

@[simp] theorem pslFpd_pslWithCc (p : Word) (c : BitVec 4) : pslFpd (pslWithCc p c) = pslFpd p :=
  pslWithCc_getLsbD p c (by decide)

/-- Everything but N, Z, V, C is unchanged. -/
theorem pslWithCc_rest (p : Word) (c : BitVec 4) : pslWithCc p c &&& 0xFFFFFFF0#32 = p &&& 0xFFFFFFF0#32 := by
  apply BitVec.eq_of_getLsbD_eq
  intro i hi
  by_cases h : 4 ≤ i
  · rw [BitVec.getLsbD_and, BitVec.getLsbD_and, pslWithCc_getLsbD p c h]
  · have : (0xFFFFFFF0#32).getLsbD i = false := by interval_cases i <;> decide
    simp [this]

/-! ## Consistency -/

/-- The must-be-zero bits of two PSLs that agree on bits 29, 28, 21 and 15:8. -/
theorem mustBeZero_congr (cfg : Params) {p q : Word} (h : p &&& 0x3020FF00#32 = q &&& 0x3020FF00#32) :
    p &&& pslMustBeZero cfg = q &&& pslMustBeZero cfg := by
  unfold pslMustBeZero
  split
  · rw [show 0x2020FF00#32 = 0x3020FF00#32 &&& 0x2020FF00#32 from by decide, ← BitVec.and_assoc, ← BitVec.and_assoc, h]
  · exact h

/-- What `pslConsistent` says, condition by condition (R123: 3, 4, 5, 6, 8, 9). -/
theorem pslConsistent_iff (cfg : Params) (p : Word) :
    pslConsistent cfg p = true ↔
      (pslIs p = true → pslCurMod p = 0) ∧ (pslIs p = true → pslIpl p ≠ 0) ∧ (pslIpl p ≠ 0 → pslCurMod p = 0) ∧
        (pslCurMod p).toNat ≤ (pslPrvMod p).toNat ∧ p &&& pslMustBeZero cfg = 0 ∧
        (pslCm p = true →
          pslFpd p = false ∧ pslIs p = false ∧ pslTrapEnables p = 0 ∧ pslCurMod p = 3) := by
  simp only [pslConsistent]
  generalize p &&& pslMustBeZero cfg = z
  cases h1 : pslIs p <;> cases h2 : pslCm p <;> simp <;> tauto

/-- A PSL whose fields but IS and IPL are another's, in kernel mode. -/
theorem pslConsistent_kernel {cfg : Params} {p q : Word} (h : pslConsistent cfg p = true) (hm : pslCurMod p = 0)
    (hq : pslCurMod q = 0) (hz : q &&& 0x3020FF00#32 = p &&& 0x3020FF00#32) (hc : pslCm q = pslCm p)
    (hi : pslIs q = true → pslIpl q ≠ 0) : pslConsistent cfg q = true := by
  rw [pslConsistent_iff] at *
  obtain ⟨-, -, -, -, h5, h6⟩ := h
  refine ⟨fun _ => hq, hi, fun _ => hq, by rw [hq]; exact Nat.zero_le _, by rw [mustBeZero_congr cfg hz, h5], fun h => ?_⟩
  rw [hc] at h
  have := (h6 h).2.2.2
  rw [hm] at this
  cases this

theorem and_mask_congr {p q c : Word} (h : ∀ i, c.getLsbD i = true → p.getLsbD i = q.getLsbD i) :
    p &&& c = q &&& c := by
  apply BitVec.eq_of_getLsbD_eq
  intro i hi
  rw [BitVec.getLsbD_and, BitVec.getLsbD_and]
  by_cases hc : c.getLsbD i = true
  · rw [h i hc]
  · simp [hc]

theorem pslConsistent_pslWithCc {cfg : Params} {p : Word} (c : BitVec 4) (h : pslConsistent cfg p = true) :
    pslConsistent cfg (pslWithCc p c) = true := by
  rw [pslConsistent_iff] at *
  have : pslWithCc p c &&& pslMustBeZero cfg = p &&& pslMustBeZero cfg := by
    refine mustBeZero_congr cfg (and_mask_congr fun i hi => pslWithCc_getLsbD p c ?_)
    by_contra hlt
    have : i < 4 := by omega
    interval_cases i <;> revert hi <;> decide
  simpa [this] using h

theorem pslConsistent_reiPsl {cfg : Params} (cur : Word) {p : Word} (h : pslConsistent cfg p = true) :
    pslConsistent cfg (reiPsl cur p) = true := by
  unfold reiPsl
  split
  · rw [pslConsistent_iff] at *
    have f : ∀ i n, i + n ≤ 30 → (pslWithTp p).extractLsb' i n = p.extractLsb' i n := extractLsb'_or_bit30 p
    have g : ∀ i, i ≠ 30 → (pslWithTp p).getLsbD i = p.getLsbD i := by
      intro i hi
      have e : 0x40000000#32 = BitVec.twoPow 32 30 := by decide
      rw [pslWithTp, e, BitVec.getLsbD_or, BitVec.getLsbD_twoPow]
      simp [hi.symm]
    have z : pslWithTp p &&& pslMustBeZero cfg = p &&& pslMustBeZero cfg := by
      refine mustBeZero_congr cfg (and_mask_congr fun i hi => g i ?_)
      rintro rfl
      revert hi
      decide
    have e1 : pslIs (pslWithTp p) = pslIs p := g _ (by decide)
    have e2 : pslCm (pslWithTp p) = pslCm p := g _ (by decide)
    have e3 : pslFpd (pslWithTp p) = pslFpd p := g _ (by decide)
    have e4 : pslCurMod (pslWithTp p) = pslCurMod p := f _ _ (by decide)
    have e5 : pslPrvMod (pslWithTp p) = pslPrvMod p := f _ _ (by decide)
    have e6 : pslIpl (pslWithTp p) = pslIpl p := f _ _ (by decide)
    have e7 : pslTrapEnables (pslWithTp p) = pslTrapEnables p := f _ _ (by decide)
    rw [z, e1, e2, e3, e4, e5, e6, e7]
    exact h
  · exact h

theorem pslConsistent_leaveInterruptStack {cfg : Params} {p : Word} (hm : pslCurMod p = 0)
    (h : pslConsistent cfg p = true) : pslConsistent cfg (pslWithIs p false) = true := by
  refine pslConsistent_kernel h hm (by simpa using hm) ?_ (by simp) (by simp)
  simp only [pslWithIs, Bool.false_eq_true, if_false, BitVec.and_assoc]
  rfl

theorem pslConsistent_svpctxPsl {cfg : Params} {p : Word} (hm : pslCurMod p = 0)
    (h : pslConsistent cfg p = true) : pslConsistent cfg (svpctxPsl p) = true := by
  unfold svpctxPsl
  refine pslConsistent_kernel h hm (by simpa using hm) (and_mask_congr fun i hi => ?_) (by simp) (fun _ => ?_)
  · have h1 : i < 16 ∨ 21 ≤ i := by
      by_contra hn
      have : 16 ≤ i ∧ i < 21 := by omega
      obtain ⟨ha, hb⟩ := this
      interval_cases i <;> revert hi <;> decide
    have h2 : (0x04000000#32).getLsbD i = false := by
      by_cases h32 : i < 32
      · interval_cases i <;> revert hi <;> decide
      · exact BitVec.getLsbD_of_ge _ _ (by omega)
    rw [pslWithIpl_getLsbD _ _ h1]
    simp [pslWithIs, h2]
  · rw [pslIpl_pslWithIpl]
    split
    · decide
    · assumption

/-- A handler's PSL is zero outside IPL, PRV_MOD, CUR_MOD and IS (R221). -/
theorem handlerPsl_zeros (old : Word) (onIs : Bool) (level : Option (BitVec 5)) :
    handlerPsl old onIs level &&& 0xF820FFFF#32 = 0 := by
  have key : ∀ (m : BitVec 2) (i : BitVec 5) (b : Bool),
      pslWithIpl (pslWithIs (m.setWidth 32 <<< 22) b) i &&& 0xF820FFFF#32 = 0 := by
    decide +kernel
  cases level with
  | none => exact key (pslCurMod old) (if onIs then 31 else pslIpl old) onIs
  | some l => exact key 0 l onIs

/-- A handler's PSL is consistent; an interrupt's level is not zero (R221). -/
theorem pslConsistent_handlerPsl (cfg : Params) (old : Word) (onIs : Bool) (level : Option (BitVec 5))
    (hl : ∀ l, level = some l → l ≠ 0) : pslConsistent cfg (handlerPsl old onIs level) = true := by
  obtain ⟨hm, hi⟩ := handlerPsl_fields old onIs level
  have hz := handlerPsl_zeros old onIs level
  rw [pslConsistent_iff]
  refine ⟨fun _ => hm, fun h => ?_, fun _ => hm, by rw [hm]; exact Nat.zero_le _, ?_, fun h => ?_⟩
  · rw [hi] at h
    subst h
    simp only [handlerPsl, pslIpl_pslWithIpl]
    cases level with
    | none => simp
    | some l => exact hl l rfl
  · rw [mustBeZero_congr cfg (q := 0#32), BitVec.zero_and]
    · rfl
    rw [show 0x3020FF00#32 = 0xF820FFFF#32 &&& 0x3020FF00#32 from by decide, ← BitVec.and_assoc, hz]
    decide
  · have hb := congrArg (fun w => w.getLsbD 31) hz
    simp only [BitVec.getLsbD_and] at hb
    rw [show (handlerPsl old onIs level).getLsbD 31 = true from h] at hb
    exact absurd hb (by decide)

/-! ## The configured layout (R26, R27) -/

/-- A PSL is determined by its bits, with the mode fields read off the replacement. -/
theorem pslWithModes_getLsbD (p : Word) (cur prv : BitVec 2) {i : Nat} (hi : i < 32) :
    (pslWithModes p cur prv).getLsbD i =
      if 24 ≤ i ∧ i < 26 then cur.getLsbD (i - 24) else if 22 ≤ i ∧ i < 24 then prv.getLsbD (i - 22) else p.getLsbD i := by
  simp only [pslWithModes, BitVec.getLsbD_or, BitVec.getLsbD_and, BitVec.getLsbD_shiftLeft, BitVec.getLsbD_setWidth]
  interval_cases i <;> simp

@[simp] theorem pslCurMod_pslWithModes (p : Word) (cur prv : BitVec 2) : pslCurMod (pslWithModes p cur prv) = cur := by
  apply BitVec.eq_of_getLsbD_eq
  intro i hi
  rw [pslCurMod, BitVec.getLsbD_extractLsb', pslWithModes_getLsbD _ _ _ (by omega), if_pos (by omega)]
  simp [hi]

@[simp] theorem pslPrvMod_pslWithModes (p : Word) (cur prv : BitVec 2) : pslPrvMod (pslWithModes p cur prv) = prv := by
  apply BitVec.eq_of_getLsbD_eq
  intro i hi
  rw [pslPrvMod, BitVec.getLsbD_extractLsb', pslWithModes_getLsbD _ _ _ (by omega), if_neg (by omega),
    if_pos (by omega)]
  simp [hi]

@[simp] theorem pslWithModes_pslWithModes (p : Word) (a b c d : BitVec 2) :
    pslWithModes (pslWithModes p a b) c d = pslWithModes p c d := by
  apply BitVec.eq_of_getLsbD_eq
  intro i hi
  rw [pslWithModes_getLsbD _ _ _ hi, pslWithModes_getLsbD _ _ _ hi, pslWithModes_getLsbD _ _ _ hi]
  split
  · rfl
  · split <;> rfl

@[simp] theorem pslWithModes_self (p : Word) : pslWithModes p (pslCurMod p) (pslPrvMod p) = p := by
  apply BitVec.eq_of_getLsbD_eq
  intro i hi
  rw [pslWithModes_getLsbD _ _ _ hi]
  split
  · rename_i h
    rw [pslCurMod, BitVec.getLsbD_extractLsb', show 24 + (i - 24) = i from by omega]
    simp [show i - 24 < 2 from by omega]
  · split
    · rename_i h
      rw [pslPrvMod, BitVec.getLsbD_extractLsb', show 22 + (i - 22) = i from by omega]
      simp [show i - 22 < 2 from by omega]
    · rfl

/-- Two changes of codes that undo each other do so on a PSL. -/
theorem pslMapModes_inverse {f g : BitVec 2 → BitVec 2} (h : ∀ m, f (g m) = m) (p : Word) :
    pslMapModes f (pslMapModes g p) = p := by
  simp only [pslMapModes, pslCurMod_pslWithModes, pslPrvMod_pslWithModes, pslWithModes_pslWithModes, h,
    pslWithModes_self]

@[simp] theorem exchangeModes_self (e : BitVec 2 × BitVec 2) (m : BitVec 2) :
    exchangeModes e (exchangeModes e m) = m := by
  unfold exchangeModes
  split_ifs <;> simp_all

@[simp] theorem exchangeBits_self (e : Fin 28 × Fin 28) (w : Word) : exchangeBits e (exchangeBits e w) = w := by
  by_cases h : w.getLsbD (e.1.val + 4) = w.getLsbD (e.2.val + 4)
  · simp only [exchangeBits, if_pos h]
  · have hb : (w ^^^ (1#32 <<< (e.1.val + 4) ||| 1#32 <<< (e.2.val + 4))).getLsbD (e.1.val + 4) ≠
        (w ^^^ (1#32 <<< (e.1.val + 4) ||| 1#32 <<< (e.2.val + 4))).getLsbD (e.2.val + 4) := by
      have h1 : e.1.val + 4 < 32 := by omega
      have h2 : e.2.val + 4 < 32 := by omega
      simpa [BitVec.getLsbD_xor, BitVec.getLsbD_or, BitVec.getLsbD_shiftLeft, h1, h2] using h
    simp only [exchangeBits, if_neg h, if_neg hb, BitVec.xor_assoc, BitVec.xor_self, BitVec.xor_zero]

/-- Exchanges undone in the opposite order. -/
theorem foldl_reverse_inverse {α β : Type} {f : β → α → α} (h : ∀ e a, f e (f e a) = a) (l : List β) (a : α) :
    l.reverse.foldl (fun a e => f e a) (l.foldl (fun a e => f e a) a) = a := by
  induction l generalizing a with
  | nil => rfl
  | cons e l ih => simp only [List.reverse_cons, List.foldl_append, List.foldl_cons, List.foldl_nil, ih, h]

/-- The configured layout loses nothing, either way. -/
@[simp] theorem pslOfLong_pslToLong (cfg : Params) (p : Word) : pslOfLong cfg (pslToLong cfg p) = p := by
  unfold pslOfLong pslToLong
  rw [foldl_reverse_inverse exchangeBits_self]
  exact pslMapModes_inverse (foldl_reverse_inverse exchangeModes_self _) p

@[simp] theorem pslToLong_pslOfLong (cfg : Params) (w : Word) : pslToLong cfg (pslOfLong cfg w) = w := by
  unfold pslOfLong pslToLong
  have key := fun m => foldl_reverse_inverse exchangeModes_self cfg.modeExchanges.reverse m
  have bits := foldl_reverse_inverse exchangeBits_self cfg.pslExchanges.reverse w
  rw [List.reverse_reverse] at key bits
  rw [pslMapModes_inverse key, bits]

/-- With the default layout and codes a PSL is its longword (R26, R27). -/
theorem pslToLong_default {cfg : Params} (h : cfg.pslExchanges = []) (h' : cfg.modeExchanges = []) (p : Word) :
    pslToLong cfg p = p := by
  simp [pslToLong, h, h', pslMapModes]

theorem pslOfLong_default {cfg : Params} (h : cfg.pslExchanges = []) (h' : cfg.modeExchanges = []) (w : Word) :
    pslOfLong cfg w = w := by
  simp [pslOfLong, h, h', pslMapModes]

@[simp] theorem pslCc_exchangeBits (e : Fin 28 × Fin 28) (w : Word) : pslCc (exchangeBits e w) = pslCc w := by
  unfold exchangeBits
  split
  · rfl
  · apply BitVec.eq_of_getLsbD_eq
    intro i hi
    simp only [pslCc, BitVec.getLsbD_extractLsb', BitVec.getLsbD_xor, BitVec.getLsbD_or, BitVec.getLsbD_shiftLeft]
    simp [show i < e.1.val + 4 from by omega, show i < e.2.val + 4 from by omega]

/-- N, Z, V, C keep their places in every layout (R24). -/
@[simp] theorem pslCc_pslOfLong (cfg : Params) (w : Word) : pslCc (pslOfLong cfg w) = pslCc w := by
  have key : ∀ (l : List (Fin 28 × Fin 28)) (w : Word),
      pslCc (l.foldl (fun w e => exchangeBits e w) w) = pslCc w := by
    intro l
    induction l with
    | nil => intro w; rfl
    | cons e l ih => intro w; rw [List.foldl_cons, ih, pslCc_exchangeBits]
  rw [pslOfLong, ← key cfg.pslExchanges.reverse w, pslMapModes]
  apply BitVec.eq_of_getLsbD_eq
  intro i hi
  simp only [pslCc, BitVec.getLsbD_extractLsb']
  rw [pslWithModes_getLsbD _ _ _ (by omega), if_neg (by omega), if_neg (by omega)]

/-! ## What a read of a processor register gives -/

theorem stackRead_ok {s : State} {slot : Option (Fin 4)} {v : Word} (h : stackRead s slot = .ok v)
    (ha : stackActive s slot = false) :
    (match slot with
    | none => v = s.isp
    | some m => v = s.spSlot[m.val]) := by
  unfold stackRead at h
  split at h
  · cases h
  · rw [ha] at h
    cases slot <;> simpa using h.symm

/-- What MFPR reads is the register's cell (R155). -/
theorem iprRead_contents {s : State} {r : Ipr} {v : Word} (h : iprRead s r = .ok v) : holdsContents s r v := by
  cases r <;> simp only [iprRead, holdsContents] at h ⊢
  case ksp | esp | ssp | usp | isp => exact fun ha => stackRead_ok h ha
  case vmpsl => cases h; exact pslOfLong_pslToLong _ _
  case astlvl => cases h; simp; omega
  case pme => cases h; cases s.pme <;> rfl
  all_goals (cases h; try rfl)

end Sys2Proof.Machine
end

