-- ==== Sys2Proof/Tests/Slice0.lean ====
section
/-!
SUPPORT. The model's own tests: the well-formedness checks, words of the spec's encodings, vectors of spec/95 on one
step each, and for every obligation with hypotheses a state and operands that meet them.
-/

namespace Sys2Proof.Tests

open Sys2Proof.Machine

-- One test at a time: tests checked side by side hold a thread each, and together more memory than a check may use.
set_option Elab.async false

/-! ## Small states -/

/-- A part of the next state, if there is one. -/
def nextOf {α : Type} (o : Host.Outcome State Fault Refusal) (f : State → α) : Option α :=
  match o with
  | .next t => some (f t)
  | _ => none

def isNext (o : Host.Outcome State Fault Refusal) : Bool := (nextOf o (fun _ => ())).isSome

def faultOf (o : Host.Outcome State Fault Refusal) : Option Fault :=
  match o with
  | .fault f => some f
  | _ => none

def refusalOf (o : Host.Outcome State Fault Refusal) : Option Refusal :=
  match o with
  | .refused r => some r
  | _ => none

theorem exists_next {o : Host.Outcome State Fault Refusal} (h : isNext o = true) : ∃ t, o = .next t := by
  cases o with
  | next t => exact ⟨t, rfl⟩
  | fault f => cases h
  | refused r => cases h

/-- Bytes in memory from an address on. -/
def bytesAt (m : List Host.Cell) : Word → List Byte → List Host.Cell
  | _, [] => m
  | a, b :: bs => bytesAt (Memory.write m a.toNat b) (a + 1) bs

/-- A state with a PSL, registers, longwords in memory, and the instruction's bytes at PC. -/
def st (psl : Word) (regs : List (Reg × Word)) (longs : List (Word × Word)) (code : List Byte := []) : State :=
  let s := regs.foldl (fun s p => setReg s p.1 p.2) { State.reset with psl := psl }
  { s with mem := bytesAt (longs.foldl (fun m p => bytesAt m p.1 (bytesOfLong p.2)) []) s.pc code }

/-- The longword in physical memory at an address. -/
def longAt (t : State) (a : Word) : Word := storedLong t.mem a

/-- The vectors of the system control block at 00005000: 10 and 18 to a handler on the kernel stack, 20 to one on the
interrupt stack, 88 to the AST's. -/
def withScb (s : State) : State :=
  { s with
    scbb := 0x5000
    mem := bytesAt (bytesAt (bytesAt (bytesAt s.mem 0x5010 (bytesOfLong 0x6000)) 0x5018 (bytesOfLong 0x6100))
      0x5020 (bytesOfLong 0x6201)) 0x5088 (bytesOfLong 0x6300) }

/-- The configuration with a virtual machine, and the one with an address space number. -/
def withVM (s : State) : State := { s with cfg := { s.cfg with hasVM := true } }
def withASN (s : State) : State := { s with cfg := { s.cfg with hasASN := true } }

/-- References to a range of addresses fail. -/
def withFault (s : State) (lo hi : Word) (a : TransAnswer) : State :=
  { s with cfg := { s.cfg with translation := [⟨none, [], lo, hi, none, none, a⟩] } }

/-- The state of T10 (and T111, T18 with other popped longwords). -/
def reiState (pc psl : Word) : State :=
  { st 0x041F0000 [(regSP, 0x1000), (regPC, 0x200)] [(0x1000, pc), (0x1004, psl)] [0x02] with
    spSlot := #v[0x20000, 0x21000, 0x22000, 0x7FFE0000] }

/-- The PCB of T20 at 00010000. -/
def pcbT20 (atlr : Word) : List (Word × Word) :=
  [(0x10000, 0x20000), (0x10004, 0x21000), (0x10008, 0x22000), (0x1000C, 0x23000), (0x10010, 0x10000000),
    (0x1003C, 0x1000000B), (0x10040, 0x1000000C), (0x10044, 0x1000000D), (0x10048, 0x4000), (0x1004C, 0x03C00000),
    (0x10050, 0x80100000), (0x10054, atlr), (0x10058, 0x80200000), (0x1005C, 0x001FFF00)]

/-- The state of T20, with the longword at 84 and the PSL given. -/
def ldpctxState (atlr psl : Word) : State :=
  { st psl [(regSP, 0x1000), (regPC, 0x300)] (pcbT20 atlr) [0x06] with pcbb := 0x10000 }

/-- The state of T30, with the PSL given. -/
def svpctxState (psl : Word) : State :=
  { st psl [(0, 0x20000000), (13, 0x2000000D), (regSP, 0x1FFF8), (regPC, 0x400)]
      [(0x1FFF8, 0x4000), (0x1FFFC, 0x03C00000), (0x10050, 0x11111111), (0x1005C, 0x22222222)] [0x07] with
    pcbb := 0x10000
    isp := 0x1000
    spSlot := #v[0, 0x21000, 0x22000, 0x23000] }

/-- Kernel mode on the kernel stack, with R0 to R3. -/
def kernelState (code : List Byte := []) : State :=
  { st 0x00000000 [(0, 0x10000), (1, 0x55555555), (2, 0x3000), (3, 0x10), (regSP, 0x8000), (regPC, 0x500)]
      [(0x3000, 0x3004), (0x3004, 0x10000)] code with
    pcbb := 0x10000
    isp := 0x1000 }

/-- User mode, with the vectors of `withScb`. -/
def userState (code : List Byte := []) : State :=
  withScb { st 0x03C00000 [(1, 0x55555555), (regSP, 0x7000), (regPC, 0x2000)] [] code with
    spSlot := #v[0x8000, 0, 0, 0] }

/-! ## Well-formedness: an ill-formed term for each check -/

theorem test_wellFormed_accepts :
    (Instr.mtpr (.indexed 3 (.byteDisp 2 4)) (.plain (.literal 16))).wellFormed = true ∧
      (Instr.mfpr (.plain (.literal 16)) (.plain (.autoDec 14))).wellFormed = true := by decide

theorem test_wellFormed_refuses_autoInc_pc :
    (Instr.mtpr (.plain (.autoInc 15)) (.plain (.literal 16))).encodable = false ∧
      (Instr.mtpr (.plain (.autoIncDeferred 15)) (.plain (.literal 16))).wellFormed = false := by decide

theorem test_wellFormed_refuses_pc_modes :
    (Instr.mtpr (.plain (.reg 15)) (.plain (.literal 16))).wellFormed = false ∧
      (Instr.mtpr (.plain (.regDeferred 15)) (.plain (.literal 16))).wellFormed = false ∧
      (Instr.mtpr (.plain (.autoDec 15)) (.plain (.literal 16))).wellFormed = false := by decide

theorem test_wellFormed_refuses_index :
    (Instr.mtpr (.indexed 15 (.regDeferred 2)) (.plain (.literal 16))).wellFormed = false ∧
      (Instr.mtpr (.indexed 3 (.literal 2)) (.plain (.literal 16))).wellFormed = false ∧
      (Instr.mtpr (.indexed 3 (.reg 2)) (.plain (.literal 16))).wellFormed = false ∧
      (Instr.mtpr (.indexed 3 (.immediate 2)) (.plain (.literal 16))).wellFormed = false := by decide

theorem test_wellFormed_refuses_destination :
    (Instr.mfpr (.plain (.literal 16)) (.plain (.literal 5))).wellFormed = false ∧
      (Instr.mfpr (.plain (.literal 16)) (.plain (.immediate 5))).wellFormed = false := by decide

/-! ## Decoding: words written out from R91, R92, R93, R94 -/

theorem test_decode_system :
    decode [0b00000010] = .ok (.rei, []) ∧ decode [0b00000110] = .ok (.ldpctx, []) ∧
      decode [0b00000111] = .ok (.svpctx, []) := by decide

/-- T1, T50, T51, T53. -/
theorem test_decode_bugcheck :
    decode [0b11111111, 0b11111110, 0x04, 0x00] = .ok (.bugw 4, []) ∧
      decode [0b11111111, 0b11111110, 0xFF, 0xFF] = .ok (.bugw 0xFFFF, []) ∧
      decode [0b11111111, 0b11111101, 0x05, 0x00, 0x00, 0x00] = .ok (.bugl 5, []) := by decide

/-- T53: the message of BUGW is zero-extended. -/
theorem test_bugw_message : bugwMessage 0xFFFF = 0x0000FFFF := by decide

/-- T40, T45, T46, T47: literal, register, immediate and byte displacement. -/
theorem test_decode_mtpr :
    decode [0b11011010, 0b01010000, 0b00010000] = .ok (.mtpr (.plain (.reg 0)) (.plain (.literal 16)), []) ∧
      decode [0xDA, 0b10001111, 0x00, 0x00, 0x01, 0x00, 0x10] =
        .ok (.mtpr (.plain (.immediate 0x10000)) (.plain (.literal 16)), []) ∧
      decode [0xDA, 0b10100010, 0x04, 0x10] = .ok (.mtpr (.plain (.byteDisp 2 4)) (.plain (.literal 16)), []) ∧
      decode [0xDA, 0x53, 0x53, 0x02] = .ok (.mtpr (.plain (.reg 3)) (.plain (.reg 3)), [0x02]) := by decide

/-- T41, T41a, T41h: register and absolute destinations. -/
theorem test_decode_mfpr :
    decode [0b11011011, 0b00010000, 0b01010001] = .ok (.mfpr (.plain (.literal 16)) (.plain (.reg 1)), []) ∧
      decode [0xDB, 0x10, 0b10011111, 0x00, 0x30, 0x00, 0x00] =
        .ok (.mfpr (.plain (.literal 16)) (.plain (.absolute 0x3000)), []) ∧
      decode [0xDB, 0x10, 0x5E] = .ok (.mfpr (.plain (.literal 16)) (.plain (.reg 14)), []) := by decide

/-- The other modes of R94's table, each with its mode in bits <7:4>. -/
theorem test_decode_modes :
    decode [0xDA, 0b01100101, 0b01110101] = .ok (.mtpr (.plain (.regDeferred 5)) (.plain (.autoDec 5)), []) ∧
      decode [0xDA, 0b10000101, 0b10010101] = .ok (.mtpr (.plain (.autoInc 5)) (.plain (.autoIncDeferred 5)), []) ∧
      decode [0xDA, 0b10110101, 0xFF, 0b11000101, 0x34, 0x12] =
        .ok (.mtpr (.plain (.byteDispDeferred 5 0xFF)) (.plain (.wordDisp 5 0x1234)), []) ∧
      decode [0xDA, 0b11010101, 0x34, 0x12, 0b11101111, 0x78, 0x56, 0x34, 0x12] =
        .ok (.mtpr (.plain (.wordDispDeferred 5 0x1234)) (.plain (.longDisp 15 0x12345678)), []) ∧
      decode [0xDA, 0b11110101, 0x78, 0x56, 0x34, 0x12, 0b01000011, 0b01100101] =
        .ok (.mtpr (.plain (.longDispDeferred 5 0x12345678)) (.indexed 3 (.regDeferred 5)), []) := by decide

/-- T54, X5, and an index of an index. -/
theorem test_decode_refuses :
    decode [0xFF, 0xFC] = .error .outOfScope ∧ decode [0x00] = .error .outOfScope ∧ decode [] = .error .truncatedOpcode ∧
      decode [0xDA, 0x41, 0x42, 0x53] = .error (.operand1 .indexOfIndex) ∧
      decode [0xDA, 0x50] = .error (.operand2 (.plain (.reg 0)) .truncated) := by decide

/-! ## Vectors of spec/95 -/

/-- T10. -/
theorem test_rei_to_user :
    nextOf (step (reiState 0x2000 0x03C00000)) (fun t => (t.pc, t.psl, t.isp, t.sp, t.astRequest)) =
      some (0x2000, 0x03C00000, 0x1008, 0x7FFE0000, false) := by decide +kernel

/-- T112, with ASTLVL 3. -/
theorem test_rei_finds_ast :
    nextOf (step { st 0 [(regSP, 0x20FF8)] [(0x20FF8, 0x4000), (0x20FFC, 0x03C00000)] [0x02] with
        astlvl := 3, spSlot := #v[0, 0, 0, 0x23000] }) (fun t => (t.pc, t.sp, t.spSlot[0], t.astRequest)) =
      some (0x4000, 0x23000, 0x21000, true) := by decide +kernel

/-- T20. -/
theorem test_ldpctx :
    nextOf (step (ldpctxState 0x04000100 0x041F0000)) (fun t => (t.pc, t.psl, t.sp, t.isp, longAt t 0x1FFFC)) =
        some (0x301, 0x001F0000, 0x1FFF8, 0x1000, 0x03C00000) ∧
      nextOf (step (ldpctxState 0x04000100 0x041F0000))
          (fun t => (t.spSlot[3], getReg t 11, getReg t 13, t.map, longAt t 0x1FFF8)) =
        some (0x23000, 0x1000000B, 0x1000000D, ⟨0x80100000, 0x100, 0x80200000, 0x1FFF00⟩, 0x4000) := by decide +kernel

/-- T24, T25: the flush depends on PRVCPU. -/
theorem test_ldpctx_asn :
    nextOf (step { withASN (ldpctxState 0x04000100 0x041F0000) with cpuid := 0 }) (fun t => (t.asn, t.tbEvents)) =
        some (0, []) ∧
      nextOf (step { withASN (ldpctxState 0x04000100 0x041F0000) with cpuid := 2 }) (fun t => (t.asn, t.tbEvents)) =
        some (0, [.flushProcess (some 0)]) := by decide +kernel

/-- T30. -/
theorem test_svpctx :
    nextOf (step (svpctxState 0)) (fun t => (t.pc, t.psl, t.sp, t.spSlot[0], t.inSwitchWindow)) =
        some (0x401, 0x04010000, 0x1000, 0x20000, true) ∧
      nextOf (step (svpctxState 0))
          (fun t => (longAt t 0x10000, longAt t 0x10010, longAt t 0x10044, longAt t 0x10048, longAt t 0x1004C)) =
        some (0x20000, 0x20000000, 0x2000000D, 0x4000, 0x03C00000) ∧
      nextOf (step (svpctxState 0)) (fun t => (longAt t 0x10050, longAt t 0x1005C)) =
        some (0x11111111, 0x22222222) := by decide +kernel

/-- T31: IPL 5 stays. -/
theorem test_svpctx_keeps_ipl :
    nextOf (step (svpctxState 0x00050000)) (fun t => t.psl) = some 0x04050000 := by decide +kernel

/-- T40. -/
theorem test_mtpr_pcbb :
    nextOf (step (kernelState [0xDA, 0x50, 0x10])) (fun t => (t.pcbb, t.pc)) = some (0x10000, 0x503) := by
  decide +kernel

/-- R30, R147: number 17 is not in the default map, so that MTPR R0, #17 enters the handler of 18; D13, R221: with a row
for SCBB there it writes SCBB. -/
theorem test_mtpr_scbb :
    nextOf (step (withScb (kernelState [0xDA, 0x50, 0x11]))) (fun t => (t.pc, t.scbb)) = some (0x6100, 0x5000) ∧
      nextOf (step { withScb (kernelState [0xDA, 0x50, 0x11]) with
          cfg := { Params.standard with iprMap := iprDefault ++ [⟨17, .scbb, .readWrite⟩] } })
        (fun t => (t.pc, t.scbb)) = some (0x503, 0x10000) := by decide +kernel

/-- T49f, T41g and an index of an index, where R95's subset alone is admitted; T46, a form of the subset; and T49f's
instruction with R94's effect. -/
theorem test_admitted_subset :
    let r (code : List Byte) : State := { kernelState code with cfg := { Params.standard with allOperandForms := false } }
    refusalOf (step (r [0xDA, 0x81, 0x10])) = some .operandNotAdmitted ∧
      refusalOf (step (r [0xDB, 0x10, 0x05])) = some .operandNotAdmitted ∧
      refusalOf (step (r [0xDA, 0x50, 0x41, 0x42])) = some .operandNotAdmitted ∧
      nextOf (step (r [0xDA, 0xA2, 0x04, 0x10])) (fun t => (t.pcbb, t.pc)) = some (0x10000, 0x504) ∧
      nextOf (step (kernelState [0xDA, 0x82, 0x10])) (fun t => (t.pcbb, getReg t 2)) = some (0x3004, 0x3004) := by
  decide +kernel

/-- T65: enabling, and AEX cleared by a one, VAER with it. -/
theorem test_mtpr_vpsr :
    nextOf (exec (.mtpr (.plain (.immediate 0x81)) (.plain (.immediate 144)))
        { kernelState with vpsr := ⟨false, false, false, true, true, false, false⟩, vaer := 8 })
      (fun t => (t.vpsr, t.vaer, t.pc)) =
    some (⟨true, false, false, false, true, false, false⟩, 0, 0x50B) := by decide +kernel

/-- T41. -/
theorem test_mfpr_register :
    nextOf (step (kernelState [0xDB, 0x10, 0x51])) (fun t => (getReg t 1, t.pc)) = some (0x10000, 0x503) := by
  decide +kernel

/-- T41a. -/
theorem test_mfpr_memory :
    nextOf (step (kernelState [0xDB, 0x10, 0x9F, 0x00, 0x30, 0x00, 0x00])) (fun t => (longAt t 0x3000, t.pc)) =
      some (0x10000, 0x507) := by decide +kernel

/-- T50, by R221: the frame on the kernel stack, in kernel mode, previous mode user. -/
theorem test_bugw :
    nextOf (step (userState [0xFF, 0xFE, 0x04, 0x00]))
        (fun t => (t.pc, t.psl, t.sp, longAt t 0x7FF8, longAt t 0x7FFC)) =
      some (0x6000, 0x00C00000, 0x7FF8, 0x2000, 0x03C00000) := by decide +kernel

/-- T51, by R220: the terminal outcome. -/
theorem test_bugl :
    faultOf (step { userState [0xFF, 0xFD, 0x05, 0x00, 0x00, 0x00] with
        cfg := { Params.standard with handlerEntry := false } }) =
      some (.exception (.reservedInstruction .reservedOpcode) 0x2000) := by decide +kernel

/-! ## Parameters away from their defaults -/

/-- R63: a page at 00008000 whose base is the longword at 00003004, mapped while the bytes listed hold what is listed. -/
def paged (bytes : List (Word × Byte)) : State :=
  { kernelState with
    cfg := { Params.standard with translation := [⟨none, bytes, 0x8000, 0x81FF, none, none, .mapsThrough 0x3004⟩] } }

theorem test_translation_reads_memory :
    translate (paged []) 0x8010 0 .read = .ok 0x10010 ∧
      translate (paged [(0x3000, 4)]) 0x8010 0 .read = .ok 0x10010 ∧
      translate (paged [(0x3000, 5)]) 0x8010 0 .read = .ok 0x8010 := by decide +kernel

/-- R26, R27: a layout in which IS and bit <28>, and the kernel and user codes, change places. -/
theorem test_psl_layout :
    let c : Params := { Params.standard with pslExchanges := [(22, 24)], modeExchanges := [(0, 3)] }
    pslToLong c 0x041F0000 = 0x13DF0000 ∧ pslOfLong c 0x13DF0000 = 0x041F0000 ∧ pslToLong c 0x03C00001 = 1 := by decide

/-- R35: a layout that keeps ASTLVL in bits <2:0> and PME in bit <8> of a longword of their own; bits <26:24> of P0LR's
longword must then be zero. -/
theorem test_pcb_layout :
    let c : Params := { Params.standard with pcb := { PcbLayout.standard with astlvl := ⟨0x60, 0⟩, pme := ⟨0x60, 8⟩ } }
    let s : State := { st 0x041F0000 [] [(0x10054, 0x100), (0x10060, 0x103)] with pcbb := 0x10000, cfg := c }
    pcbAstlvl s = 3 ∧ pcbPme s = true ∧ lengthValid c.pcb c.pcb.p0lr 0x04000100 = false ∧
      lengthValid c.pcb c.pcb.p0lr 0x100 = true := by decide +kernel

/-- R67: faults of two kinds name the first byte of either. -/
theorem test_page_crossing_faults :
    let a : List Exc := [.accessViolation 0x1FE, .accessViolation 0x1FF, .translationNotValid 0x200, .translationNotValid 0x201]
    chooseFault 0 0x1FE a = some (.accessViolation 0x1FE) ∨ chooseFault 0 0x1FE a = some (.translationNotValid 0x200) := by
  show (if _ then _ else _) = _ ∨ (if _ then _ else _) = _
  split <;> simp

/-- R180, R181: the high halves of the sources do not count. -/
theorem test_vector_sources :
    let s : State := { kernelState with vlr := 1, v := (kernelState.v.set 2 (Vector.replicate 64 0xFFFFFFFF00000007)) }
    sourceLongs s (.operate [2, 2]) 0 = [7, 7] ∧ sourceLongs s (.logical 2 3) 0 = [7, 0] := by decide +kernel

/-- R204: the greatest length of an offset vector. R183: a gather onto its own source, refused with VLR 0 too (log 45). -/
theorem test_vector_count_and_gather :
    (iotaCount kernelState 64).vcr = 64 ∧
      gatherWrite kernelState 2 2 (Vector.replicate 64 0) = .error (.refuse .gatherOntoSource) := by decide +kernel

/-! ## The hypotheses of the obligations are met

One theorem for each obligation that has hypotheses, named after it: a concrete state and operands that meet all of
them together, clause by clause where the obligation has several. -/

theorem test_witness_DecodeAfterEncode :
    (Instr.mtpr (.indexed 15 (.longDispDeferred 15 0xFFFFFFFF)) (.plain (.autoInc 14))).encodable = true := by decide

theorem test_witness_EncodeAfterDecode :
    decode [0xDB, 0x3F, 0x4E, 0xFF, 1, 2, 3, 4, 5] =
        .ok (.mfpr (.plain (.literal 63)) (.indexed 14 (.longDispDeferred 15 0x04030201)), [5]) ∧
      (∀ m, Instr.mfpr (.plain (.literal 63)) (.indexed 14 (.longDispDeferred 15 0x04030201)) ≠ .bugw m) ∧
      ∀ m, Instr.mfpr (.plain (.literal 63)) (.indexed 14 (.longDispDeferred 15 0x04030201)) ≠ .bugl m := by
  refine ⟨by decide, ?_, ?_⟩ <;> intro m h <;> cases h

/-- The second state is owed an REI, and has one; both are admitted by R95 too. -/
theorem test_witness_StepRunsDecodedInstruction :
    let s := kernelState [0xDA, 0x50, 0x10]
    let s' : State := { reiState 0x2000 0x03C00000 with afterLdpctx := some 0x200 }
    (s.undisturbed ∧ (∃ rest, decode (fetchBytes s maxLength s.pc).1 =
        .ok (.mtpr (.plain (.reg 0)) (.plain (.literal 16)), rest)) ∧ s.afterLdpctx = none ∧
        (Instr.mtpr (.plain (.reg 0)) (.plain (.literal 16))).admitted = true) ∧
      s'.undisturbed ∧ s'.afterLdpctx = some s'.pc ∧ s'.admits .rei ∧
        ∃ rest, decode (fetchBytes s' maxLength s'.pc).1 = .ok (.rei, rest) :=
  ⟨⟨by decide, ⟨_, rfl⟩, rfl, by decide⟩, by decide, rfl, .inl rfl, ⟨_, rfl⟩⟩

theorem test_witness_OutOfScopeOpcodesAreRefused :
    let s := kernelState [0xFE]
    let s' := kernelState [0xFF, 0xFC]
    (s.undisturbed ∧ s.afterLdpctx = none ∧ fetchByte s s.pc = .ok 0xFE ∧
        (0xFE : Byte) ∉ [0x02, 0x06, 0x07, 0xDA, 0xDB, 0xFF]) ∧
      s'.undisturbed ∧ s'.afterLdpctx = none ∧ fetchByte s' s'.pc = .ok 0xFF ∧ fetchByte s' (s'.pc + 1) = .ok 0xFC ∧
        (0xFC : Byte) ∉ [0xFD, 0xFE] :=
  ⟨⟨by decide, rfl, rfl, by decide⟩, by decide, rfl, rfl, rfl, by decide⟩

/-- Each opcode; the message of the second lies where nothing can be fetched. -/
theorem test_witness_BugcheckMessageIsNotFetched :
    let s := kernelState [0xFF, 0xFE]
    let s' := withFault (kernelState [0xFF, 0xFD]) 0x502 0x600 .accessViolation
    (s.undisturbed ∧ s.afterLdpctx = none ∧ fetchByte s s.pc = .ok 0xFF ∧ fetchByte s (s.pc + 1) = .ok 0xFE) ∧
      s'.undisturbed ∧ s'.afterLdpctx = none ∧ fetchByte s' s'.pc = .ok 0xFF ∧ fetchByte s' (s'.pc + 1) = .ok 0xFD ∧
        fetchByte s' (s'.pc + 2) = .error (.exc (.accessViolation 0x502)) :=
  ⟨⟨by decide, rfl, rfl, rfl⟩, by decide, rfl, rfl, rfl, rfl⟩

theorem test_witness_PrivilegePrecedesOperandFetch :
    let s := userState [0xDA, 0x41, 0x42]
    let s' := withFault (userState [0xDB]) 0x2001 0x2100 .translationNotValid
    (s.undisturbed ∧ s.afterLdpctx = none ∧ fetchByte s s.pc = .ok 0xDA ∧ s.mode ≠ 0 ∧
        (s.inVM && pslCurMod s.vmpsl == 0) = false) ∧
      s'.undisturbed ∧ s'.afterLdpctx = none ∧ fetchByte s' s'.pc = .ok 0xDB ∧ s'.mode ≠ 0 ∧
        (s'.inVM && pslCurMod s'.vmpsl == 0) = false :=
  ⟨⟨by decide, rfl, rfl, by decide, by decide⟩, by decide, rfl, rfl, by decide, by decide⟩

/-- T29; an REI at another address; the owed REI; and one that cannot be fetched. -/
theorem test_witness_LdpctxMustBeFollowedByRei :
    let s : State := { kernelState [0x07] with afterLdpctx := some 0x500 }
    let r : State := { reiState 0x2000 0x03C00000 with afterLdpctx := some 0x201 }
    let o : State := { reiState 0x2000 0x03C00000 with afterLdpctx := some 0x200 }
    let f : State := { withFault (withScb kernelState) 0x500 0x500 .accessViolation with afterLdpctx := some 0x500 }
    (∃ t, exec .ldpctx (ldpctxState 0x04000100 0x041F0000) = .next t) ∧
      (s.undisturbed ∧ s.afterLdpctx = some s.pc ∧ fetchByte s s.pc = .ok 0x07 ∧ (0x07 : Byte) ≠ 0x02) ∧
      (r.undisturbed ∧ r.afterLdpctx = some 0x201 ∧ r.pc ≠ 0x201) ∧ (∃ t, step o = .next t) ∧ ∃ t, step f = .next t :=
  ⟨exists_next (by decide +kernel), ⟨by decide, rfl, rfl, by decide⟩, ⟨by decide, rfl, by decide⟩,
    exists_next (by decide +kernel), exists_next (by decide +kernel)⟩

/-- A store; SVPCTX; a step that stores (a bugcheck's entry) and one that completes an REI; a marked first byte, second
opcode byte, first byte of the first specifier, and extension of the second. -/
theorem test_witness_ModifiedInstructionStreamNeedsRei :
    let mark (i : Instr) (k : Nat) : State := { kernelState (encode i) with written := [0x500 + k] }
    let wanted (i : Instr) (k : Nat) : Prop :=
      (mark i k).undisturbed ∧ (mark i k).afterLdpctx = none ∧ i.encodable = true ∧ k < fetchedLength i ∧
        (∀ j, j < k → ∃ b, (encode i)[j]? = some b ∧
          fetchByte (mark i k) ((mark i k).pc + BitVec.ofNat 32 j) = .ok b) ∧
        wantsByte (mark i k) i k ∧
        fetchByte (mark i k) ((mark i k).pc + BitVec.ofNat 32 k) = .error (.refuse .staleInstructionStream)
    let s := mark .svpctx 0
    (∃ t, memWrite kernelState 0xFFFFFFFE 0x12345678 = .ok t) ∧ (∃ t, exec .svpctx (svpctxState 0) = .next t) ∧
      (∃ t, step (userState [0xFF, 0xFE, 0x04, 0x00]) = .next t) ∧ (∃ t, step (reiState 0x2000 0x03C00000) = .next t) ∧
      (∃ t, exec .rei (reiState 0x2000 0x03C00000) = .next t) ∧
      (translate s s.pc s.mode .read = .ok 0x500 ∧ physExists s.cfg 0x500 = true ∧ (0x500#32).toNat ∈ s.written) ∧
      wanted .svpctx 0 ∧ wanted (.bugw 4) 1 ∧
      wanted (.mtpr (.plain (.autoInc 2)) (.plain (.immediate 144))) 1 ∧
      wanted (.mfpr (.plain (.autoInc 2)) (.plain (.absolute 0x3000))) 6 := by
  refine ⟨⟨_, rfl⟩, exists_next (by decide +kernel), exists_next (by decide +kernel), exists_next (by decide +kernel),
    exists_next (by decide +kernel), ⟨rfl, by decide, by decide⟩, ?_, ?_, ?_, ?_⟩
  · exact ⟨by decide, rfl, rfl, by decide, fun j hj => absurd hj (Nat.not_lt_zero j), trivial, rfl⟩
  · refine ⟨by decide, rfl, rfl, by decide, fun j hj => ?_, trivial, rfl⟩
    obtain rfl : j = 0 := by omega
    exact ⟨_, rfl, rfl⟩
  · refine ⟨by decide, rfl, rfl, by decide, fun j hj => ?_, .inr ⟨by decide, fun h => absurd h (by decide)⟩, rfl⟩
    obtain rfl : j = 0 := by omega
    exact ⟨_, rfl, rfl⟩
  · refine ⟨by decide, rfl, rfl, by decide, fun j hj => ?_, .inr ⟨by decide, fun _ => ⟨.inl rfl, _, rfl⟩⟩, rfl⟩
    interval_cases j <;> exact ⟨_, rfl, rfl⟩

theorem test_witness_VectorProcessorStaysAsItIs :
    let s : State := { kernelState [0x07] with vpsr := ⟨true, false, false, false, false, false, true⟩ }
    (s.cfg.hasVector = true ∧ s.vpsr.bsy = true) ∧ ∃ t, step (reiState 0x2000 0x03C00000) = .next t :=
  ⟨by decide, exists_next (by decide +kernel)⟩

/-- The shortest words and the longest instruction. -/
theorem test_witness_FetchWordRunsTableInstruction :
    (8 / 8 ≤ maxLength ∧ Memory.wf State.reset.mem = true ∧ decodeTableWord 8 0x02 = some .rei) ∧
      (104 / 8 ≤ maxLength ∧ Memory.wf kernelState.mem = true ∧
        decodeTableWord 104 0x00000000EF4200000000EF41DB =
          some (.mfpr (.indexed 1 (.longDisp 15 0)) (.indexed 2 (.longDisp 15 0)))) := by decide

theorem test_witness_TerminalExceptions :
    { userState with cfg := { Params.standard with handlerEntry := false } }.cfg.handlerEntry = false := by decide

/-- A handler on the kernel stack, and one with parameters on the interrupt stack. -/
theorem test_witness_ExceptionEntersItsHandler :
    let s := userState
    s.cfg.handlerEntry = true ∧ s.plainMemory ∧ Memory.wf s.mem = true ∧
      (scbOffset s.cfg .reservedOperandFault = some 0x18 ∧ vectorUsable s 0x18 ∧ onInterruptStack s 0x18 = false) ∧
      scbOffset s.cfg (.accessViolation 0x7000) = some 0x20 ∧ vectorUsable s 0x20 ∧ onInterruptStack s 0x20 = true := by
  decide +kernel

theorem test_witness_ExceptionEntryFrame :
    scbOffset userState.cfg (.accessViolation 0x7000) = some 0x20 ∧
      ∃ t, raise userState (.accessViolation 0x7000) = .next t :=
  ⟨rfl, exists_next (by decide +kernel)⟩

/-- The four clauses, at IPL 2 and at IPL 1. -/
theorem test_witness_AstDelivery :
    let s0 : State := { userState with astRequest := true, cfg := { Params.standard with handlerEntry := false } }
    let s2 : State := { withScb (st 0x00020000 [(regSP, 0x8000)] [] []) with astRequest := true }
    let s1 : State := { withScb (st 0x00010000 [(regSP, 0x8000)] [] []) with astRequest := true }
    ((s0.cfg.hasVector && s0.vpsr.bsy) = false ∧ s0.astRequest = true ∧ s0.cfg.handlerEntry = false) ∧
      ((s2.cfg.hasVector && s2.vpsr.bsy) = false ∧ s2.astRequest = true ∧ s2.cfg.handlerEntry = true ∧
        2 ≤ (pslIpl s2.psl).toNat) ∧
      ((s1.cfg.hasVector && s1.vpsr.bsy) = false ∧ s1.astRequest = true ∧ s1.cfg.handlerEntry = true ∧
        (pslIpl s1.psl).toNat < 2 ∧ s1.plainMemory ∧ Memory.wf s1.mem = true ∧ vectorUsable s1 s1.cfg.scbAst) ∧
      isNext (step s1) = true := by
  decide +kernel

/-- T27 and T21. -/
theorem test_witness_PrivilegedInstructionsNeedKernelMode :
    let s := withVM (st 0x13C00000 [] [])
    let s' := userState
    (s.inVM && pslCurMod s.vmpsl == 0) = true ∧ (s'.inVM && pslCurMod s'.vmpsl == 0) = false ∧ s'.mode ≠ 0 := by
  decide

theorem test_witness_BugcheckEntersItsHandler :
    userState.cfg.handlerEntry = true ∧ userState.plainMemory ∧ Memory.wf userState.mem = true ∧
      vectorUsable userState 0x10 := by decide +kernel

/-- T10, T111, and a layout of the PSL in which IS and bit <28>, and the kernel and user codes, change places. -/
theorem test_witness_ReiResumesInterruptedCode :
    let s := reiState 0x2000 0x03C00000
    let s' := reiState 0x2400 0x04100000
    let r : State := { reiState 0x2000 0x00000000 with
      cfg := { Params.standard with pslExchanges := [(22, 24)], modeExchanges := [(0, 3)] } }
    (memRead s s.sp = .ok 0x2000 ∧ memRead s (s.sp + 4) = .ok 0x03C00000 ∧ pslOfLong s.cfg 0x03C00000 = 0x03C00000 ∧
        s.inVM = false ∧ reiAllowed s.cfg s.psl 0x03C00000 = true ∧
        ¬(s.mode ≠ 0 ∧ pslVm s.cfg 0x03C00000 = true)) ∧
      (memRead s' s'.sp = .ok 0x2400 ∧ memRead s' (s'.sp + 4) = .ok 0x04100000 ∧
        pslOfLong s'.cfg 0x04100000 = 0x04100000 ∧ s'.inVM = false ∧ reiAllowed s'.cfg s'.psl 0x04100000 = true ∧
        ¬(s'.mode ≠ 0 ∧ pslVm s'.cfg 0x04100000 = true)) ∧
      memRead r r.sp = .ok 0x2000 ∧ memRead r (r.sp + 4) = .ok 0 ∧ pslOfLong r.cfg 0 = 0x03C00000 ∧ r.inVM = false ∧
        reiAllowed r.cfg r.psl 0x03C00000 = true ∧ ¬(r.mode ≠ 0 ∧ pslVm r.cfg 0x03C00000 = true) :=
  ⟨⟨rfl, rfl, by decide, by decide, by decide, by decide⟩, ⟨rfl, rfl, by decide, by decide, by decide, by decide⟩, rfl,
    rfl, by decide, by decide, by decide, by decide⟩

/-- T18, T118, and a configured `ReiAllowed` that forbids every REI to user mode. -/
theorem test_witness_ReiRejectsForbiddenPsl :
    let s := reiState 0x2000 0x04000000
    let s' := withVM (st 0x03C00000 [(regSP, 0x1000)] [(0x1000, 0x2000), (0x1004, 0x13C00000)])
    let r : State := { reiState 0x2000 0x03C00000 with
      cfg := { Params.standard with reiTable := [⟨0, 0, 0x03000000, 0x03000000, false⟩] } }
    (memRead s s.sp = .ok 0x2000 ∧ memRead s (s.sp + 4) = .ok 0x04000000 ∧ pslOfLong s.cfg 0x04000000 = 0x04000000 ∧
        s.inVM = false ∧ reiAllowed s.cfg s.psl 0x04000000 = false) ∧
      (memRead s' s'.sp = .ok 0x2000 ∧ memRead s' (s'.sp + 4) = .ok 0x13C00000 ∧
        pslOfLong s'.cfg 0x13C00000 = 0x13C00000 ∧ s'.inVM = false ∧ reiAllowed s'.cfg s'.psl 0x13C00000 = true ∧
        s'.mode ≠ 0 ∧ pslVm s'.cfg 0x13C00000 = true) ∧
      memRead r r.sp = .ok 0x2000 ∧ memRead r (r.sp + 4) = .ok 0x03C00000 ∧ pslOfLong r.cfg 0x03C00000 = 0x03C00000 ∧
        r.inVM = false ∧ reiAllowed r.cfg r.psl 0x03C00000 = false :=
  ⟨⟨rfl, rfl, by decide, by decide, by decide⟩, ⟨rfl, rfl, by decide, by decide, by decide, by decide, by decide⟩, rfl,
    rfl, by decide, by decide, by decide⟩

/-- T120: allowed and not allowed against VMPSL. -/
theorem test_witness_ReiInVmModeNeverCompletes :
    let s := withVM (st 0x13C00000 [(regSP, 0x1000)] [(0x1000, 0x2000), (0x1004, 0x03C00000)])
    let s' : State := { s with vmpsl := 0x03C00000, mem := bytesAt s.mem 0x1004 (bytesOfLong 0) }
    (memRead s s.sp = .ok 0x2000 ∧ memRead s (s.sp + 4) = .ok 0x03C00000 ∧ s.inVM = true ∧
        pslOfLong s.cfg 0x03C00000 = 0x03C00000 ∧ vmReiAllowed s.cfg s.vmpsl 0x03C00000 = true) ∧
      memRead s' s'.sp = .ok 0x2000 ∧ memRead s' (s'.sp + 4) = .ok 0 ∧ s'.inVM = true ∧
        pslOfLong s'.cfg 0 = 0 ∧ vmReiAllowed s'.cfg s'.vmpsl 0 = false :=
  ⟨⟨rfl, rfl, by decide, by decide, by decide⟩, rfl, rfl, by decide, by decide, by decide⟩

/-- T115, T34, and a fault on the first pop. -/
theorem test_witness_PopFaultRestoresState :
    let s := withFault (reiState 0x2000 0x03C00000) 0x1000 0x1003 .accessViolation
    let s' := withFault (reiState 0x2000 0x03C00000) 0x1004 0x1004 .translationNotValid
    let r := withFault (svpctxState 0) 0x1FFFC 0x1FFFF .accessViolation
    memRead s s.sp = .error (.exc (.accessViolation 0x1000)) ∧
      (memRead s' s'.sp = .ok 0x2000 ∧ memRead s' (s'.sp + 4) = .error (.exc (.translationNotValid 0x1004))) ∧
      memRead r r.sp = .ok 0x4000 ∧ memRead r (r.sp + 4) = .error (.exc (.accessViolation 0x1FFFC)) ∧ r.privileged ∧
        r.pcbb.extractLsb' 0 2 = 0 :=
  ⟨rfl, ⟨rfl, rfl⟩, rfl, rfl, by decide, by decide⟩

/-- For `ReiNeverGainsPrivilege` and `ReiFrame`. -/
theorem test_witness_ReiCompletes :
    (∃ t, exec .rei (reiState 0x2000 0x03C00000) = .next t) ∧ (reiState 0x2000 0x03C00000).cfg.reiTable = [] ∧
      ∃ t, exec .rei (reiState 0x2400 0x04100000) = .next t :=
  ⟨exists_next (by decide +kernel), rfl, exists_next (by decide +kernel)⟩

/-- T20. -/
theorem test_witness_LdpctxLoadsProcessContext :
    let s := ldpctxState 0x04000100 0x041F0000
    s.privileged ∧ s.pcbb.extractLsb' 0 2 = 0 ∧ requirePhys s.cfg (pcbAddrs s) = .ok () ∧ pcbValid s = true ∧
      pslIs s.psl = true ∧
      ∃ s2, push (toKernelStack (ldpctxLoad s)) (pcbRead s s.cfg.pcb.psl) = .ok s2 ∧
        ∃ s3, push s2 (pcbRead s2 s.cfg.pcb.pc) = .ok s3 := by
  refine ⟨by decide, by decide, rfl, by decide +kernel, by decide, _, push_of (translateLong_identity ?_ ?_ _ _), _,
    push_of (translateLong_identity ?_ ?_ _ _)⟩ <;> simp <;> decide

theorem test_witness_LdpctxStacksPslAndPc :
    let s := ldpctxState 0x04000100 0x041F0000
    s.privileged ∧ s.pcbb.extractLsb' 0 2 = 0 ∧ pcbValid s = true ∧ pslIs s.psl = true ∧ s.plainMemory ∧
      Memory.wf s.mem = true := by decide +kernel

/-- T22's state. -/
theorem test_witness_LdpctxWithInterruptStackClear :
    let s := ldpctxState 0x04000100 0x00000000
    s.privileged ∧ s.pcbb.extractLsb' 0 2 = 0 ∧ pcbValid s = true ∧ pslIs s.psl = false ∧ s.plainMemory ∧
      Memory.wf s.mem = true := by decide +kernel

/-- T26, and a configured `PcbValid` that turns T20's PCB away; and T20 with its first push failing, and its second. -/
theorem test_witness_LdpctxInvalidPcbAborts :
    let s := ldpctxState 0x05000100 0x041F0000
    let r : State := { ldpctxState 0x04000100 0x041F0000 with
      cfg := { Params.standard with pcbTable := [⟨[⟨0x48, 0xFFFFFFFF, 0x4000⟩], false⟩] } }
    let f := withFault (ldpctxState 0x04000100 0x041F0000) 0x1FFFC 0x1FFFF .accessViolation
    let g := withFault (ldpctxState 0x04000100 0x041F0000) 0x1FFF8 0x1FFFB .translationNotValid
    (s.privileged ∧ s.pcbb.extractLsb' 0 2 = 0 ∧ requirePhys s.cfg (pcbAddrs s) = .ok () ∧ pcbValid s = false) ∧
      (r.privileged ∧ r.pcbb.extractLsb' 0 2 = 0 ∧ requirePhys r.cfg (pcbAddrs r) = .ok () ∧ pcbValid r = false) ∧
      (f.privileged ∧ f.pcbb.extractLsb' 0 2 = 0 ∧ requirePhys f.cfg (pcbAddrs f) = .ok () ∧ pcbValid f = true ∧
        push (toKernelStack (ldpctxLoad f)) (pcbRead f f.cfg.pcb.psl) = .error (.exc (.accessViolation 0x1FFFC))) ∧
      g.privileged ∧ g.pcbb.extractLsb' 0 2 = 0 ∧ requirePhys g.cfg (pcbAddrs g) = .ok () ∧ pcbValid g = true ∧
        ∃ s2, push (toKernelStack (ldpctxLoad g)) (pcbRead g g.cfg.pcb.psl) = .ok s2 ∧
          push s2 (pcbRead s2 g.cfg.pcb.pc) = .error (.exc (.translationNotValid 0x1FFF8)) :=
  ⟨⟨by decide, by decide, rfl, by decide +kernel⟩, ⟨by decide, by decide, rfl, by decide +kernel⟩,
    ⟨by decide, by decide, rfl, by decide +kernel, by decide +kernel⟩, by decide, by decide, rfl, by decide +kernel,
    _, push_of (pas := longAddrs 0x1FFFC) (by decide +kernel), by decide +kernel⟩

/-- For `LdpctxFrame` and `ContextSwitchKeepsConditionCodes`. -/
theorem test_witness_LdpctxFrame :
    (∃ t, exec .ldpctx (ldpctxState 0x04000100 0x041F000A) = .next t) ∧
      ∃ t, exec .ldpctx (ldpctxState 0x00000000 0x04010005) = .next t :=
  ⟨exists_next (by decide +kernel), exists_next (by decide +kernel)⟩

/-- The standard layout's fields lie apart, with ASN and without. -/
theorem test_standard_layout_apart (s : State) (h : s.cfg = Params.standard ∨ s.cfg = { Params.standard with hasASN := true }) :
    pcbFieldsApart s.cfg ∧ offsetsApart (pcbSavedOffsets s.cfg) := by
  have key : ((pcbUnsavedOffsets s.cfg).all fun a => (pcbSavedOffsets s.cfg).all fun b =>
      decide (4 ≤ (a - b).toNat) && decide (4 ≤ (b - a).toNat)) = true := by
    rcases h with h | h <;> rw [h] <;> decide +kernel
  constructor
  · intro a ha b hb
    simpa using List.all_eq_true.1 (List.all_eq_true.1 key a ha) b hb
  · rcases h with h | h <;> rw [h] <;> unfold offsetsApart <;> decide +kernel

/-- T30, and T35's configuration. -/
theorem test_witness_SvpctxSavesProcessContext :
    let s := svpctxState 0
    let s' := withASN (svpctxState 0)
    (s.privileged ∧ s.pcbb.extractLsb' 0 2 = 0 ∧ memRead s s.sp = .ok 0x4000 ∧ memRead s (s.sp + 4) = .ok 0x03C00000 ∧
        requirePhys s.cfg (pcbAddrs s) = .ok () ∧ Memory.wf s.mem = true ∧ offsetsApart (pcbSavedOffsets s.cfg)) ∧
      s'.privileged ∧ s'.pcbb.extractLsb' 0 2 = 0 ∧ memRead s' s'.sp = .ok 0x4000 ∧
        memRead s' (s'.sp + 4) = .ok 0x03C00000 ∧ requirePhys s'.cfg (pcbAddrs s') = .ok () ∧ Memory.wf s'.mem = true ∧
        offsetsApart (pcbSavedOffsets s'.cfg) ∧ s'.cfg.hasASN = true :=
  ⟨⟨by decide, by decide, rfl, rfl, rfl, by decide +kernel, (test_standard_layout_apart _ (.inl rfl)).2⟩, by decide,
    by decide, rfl, rfl, rfl, by decide +kernel, (test_standard_layout_apart _ (.inr rfl)).2, rfl⟩

/-- T30 and T32: IS clear, and IS set. -/
theorem test_witness_SvpctxSwitchesToInterruptStack :
    let s := svpctxState 0
    let s' := svpctxState 0x041F0000
    (s.privileged ∧ s.pcbb.extractLsb' 0 2 = 0 ∧ memRead s s.sp = .ok 0x4000 ∧ memRead s (s.sp + 4) = .ok 0x03C00000 ∧
        requirePhys s.cfg (pcbAddrs s) = .ok () ∧ pslIs s.psl = false) ∧
      s'.privileged ∧ s'.pcbb.extractLsb' 0 2 = 0 ∧ memRead s' s'.sp = .ok 0x4000 ∧
        memRead s' (s'.sp + 4) = .ok 0x03C00000 ∧ requirePhys s'.cfg (pcbAddrs s') = .ok () ∧ pslIs s'.psl = true :=
  ⟨⟨by decide, by decide, rfl, rfl, rfl, by decide⟩, by decide, by decide, rfl, rfl, rfl, by decide⟩

/-- For `SvpctxLeavesMapAstlvlPmeInPcb`, `SvpctxFrame` and `ContextSwitchKeepsConditionCodes`: without ASN, and with. -/
theorem test_witness_SvpctxFrame :
    let s := withASN (svpctxState 0x0000000F)
    ((∃ t, exec .svpctx (svpctxState 0) = .next t) ∧ pcbFieldsApart (svpctxState 0).cfg) ∧
      (∃ t, exec .svpctx s = .next t) ∧ pcbFieldsApart s.cfg ∧ s.cfg.hasASN = true :=
  ⟨⟨exists_next (by decide +kernel), (test_standard_layout_apart _ (.inl rfl)).1⟩, exists_next (by decide +kernel),
    (test_standard_layout_apart _ (.inr rfl)).1, rfl⟩

/-- A readable longword for each form that reads memory: at R2, four below R2, through R2, absolute, displaced by -1 from
R2 and by 4 from the PC, and indexed by R3 over an autodecremented R2 and by R2 over itself autoincremented; and the same
addresses as destinations. -/
theorem test_witness_OperandFormsReadAsTabled :
    let s := kernelState
    ((2 : Reg) ≠ regPC ∧ memRead s (getReg s 2) = .ok 0x3004 ∧ memRead s (getReg s 2 - 4) = .ok 0 ∧
        memRead s 0x3004 = .ok 0x10000 ∧ memRead s (getReg s 2 + (0xFF#8).signExtend 32) = .ok 0x300400 ∧
        memRead s (0x3000 + (0x0004#16).signExtend 32) = .ok 0x10000 ∧ memRead s (getReg s 2 + 0) = .ok 0x3004) ∧
      (∃ pas, translateLong s 0x3000 .write = .ok pas) ∧ (∃ pas, translateLong s 0x2FFC .write = .ok pas) ∧
      ((Base.autoDec 2).indexable = true ∧ evalBase s (.autoDec 2) 0x600 = .ok (.mem 0x2FFC, setReg s 2 0x2FFC) ∧
        memRead (setReg s 2 0x2FFC) (0x2FFC + 4 * getReg s 3) = .ok 0 ∧
        ∃ t, evalBase s (.autoInc 2) 0x600 = .ok (.mem 0x3000, t) ∧ getReg t 2 ≠ getReg s 2) ∧
      (Base.literal 3).indexable = false :=
  ⟨⟨by decide, rfl, rfl, rfl, rfl, rfl, rfl⟩, ⟨_, rfl⟩, ⟨_, rfl⟩, ⟨rfl, rfl, rfl, ⟨_, rfl, by decide⟩⟩, rfl⟩

/-- T46's form with a second operand, and a destination, that cannot be reached after an autoincrement; and a first operand. -/
theorem test_witness_OperandEvaluationFrame :
    let s := withFault kernelState 0x500000 0x5000FF .accessViolation
    let first : Specifier := .plain (.autoInc 2)
    let bad : Specifier := .plain (.absolute 0x500000)
    (∃ t, readOperand kernelState (.plain (.autoIncDeferred 2)) 0 0 = .ok (0x10000, t)) ∧
      (∃ t, resolveDestination kernelState (.indexed 3 (.autoDec 2)) 0 1 = .ok (.mem 0x303C, t)) ∧
      s.privileged ∧ readOperand s bad (pcAfter1 s bad) 0 = .error (.exc (.accessViolation 0x500000)) ∧
      readOperand s first (pcAfter1 s first) 0 = .ok (0x3004, setReg s 2 0x3004) ∧
      readOperand (setReg s 2 0x3004) bad (pcAfter2 s first bad) 1 = .error (.exc (.accessViolation 0x500000)) ∧
      resolveDestination (setReg s 2 0x3004) bad (pcAfter2 s first bad) 1 = .error (.exc (.accessViolation 0x500000)) :=
  ⟨⟨_, rfl⟩, ⟨_, rfl⟩, by decide, rfl, rfl, rfl, rfl⟩

/-- T45, T49, T49b at the greatest ASTLVL. -/
theorem test_witness_MtprStoresInProcessorRegister :
    let s := kernelState
    s.privileged ∧
      (readOperand s (.plain (.immediate 0x10000)) (pcAfter1 s (.plain (.immediate 0x10000))) 0 = .ok (0x10000, s) ∧
        readOperand s (.plain (.literal 16)) (pcAfter2 s (.plain (.immediate 0x10000)) (.plain (.literal 16))) 1 =
          .ok (16, s) ∧
        iprMap s.cfg 16 = some .pcbb ∧ iprClass s.cfg 16 ≠ some .readOnly ∧ mtprAccepts s .pcbb 0x10000 = true) ∧
      (iprMap s.cfg 3 = some .usp ∧ iprClass s.cfg 3 ≠ some .readOnly ∧ mtprAccepts s .usp 0x7FFE0000 = true ∧
        Ipr.usp.holdsValue = true ∧ activeStackIpr s .usp = false) ∧
      iprMap s.cfg 19 = some .astlvl ∧ iprClass s.cfg 19 ≠ some .readOnly ∧ mtprAccepts s .astlvl 4 = true ∧
        Ipr.astlvl.holdsValue = true :=
  ⟨by decide, ⟨rfl, rfl, rfl, by decide, rfl⟩, ⟨rfl, by decide, rfl, rfl, by decide⟩, rfl, by decide, rfl, rfl⟩

/-- The least system-space base; P0LR with every length bit and the greatest ASTLVL; P1LR with every length bit and
PME. -/
theorem test_witness_MtprWritesAllCopiesOfMapRegisters :
    let s := kernelState
    let base : Specifier := .plain (.immediate 0x80000000)
    let p0 : Specifier := .plain (.immediate 0x043FFFFF)
    let p1 : Specifier := .plain (.immediate 0x803FFFFF)
    (s.privileged ∧ s.cfg.hasVector = true ∧ readOperand s base (pcAfter1 s base) 0 = .ok (0x80000000, s) ∧
        mapBaseValid 0x80000000 = true ∧
        readOperand s (.plain (.literal 8)) (pcAfter2 s base (.plain (.literal 8))) 1 = .ok (8, s) ∧
        iprMap s.cfg 8 = some .p0br ∧ iprClass s.cfg 8 ≠ some .readOnly ∧
        readOperand s (.plain (.literal 10)) (pcAfter2 s base (.plain (.literal 10))) 1 = .ok (10, s) ∧
        iprMap s.cfg 10 = some .p1br ∧ iprClass s.cfg 10 ≠ some .readOnly) ∧
      (readOperand s p0 (pcAfter1 s p0) 0 = .ok (0x043FFFFF, s) ∧
        readOperand s (.plain (.literal 9)) (pcAfter2 s p0 (.plain (.literal 9))) 1 = .ok (9, s) ∧
        iprMap s.cfg 9 = some .p0lr ∧ iprClass s.cfg 9 ≠ some .readOnly ∧
        lengthValid s.cfg.pcb s.cfg.pcb.p0lr 0x043FFFFF = true) ∧
      readOperand s p1 (pcAfter1 s p1) 0 = .ok (0x803FFFFF, s) ∧
        readOperand s (.plain (.literal 11)) (pcAfter2 s p1 (.plain (.literal 11))) 1 = .ok (11, s) ∧
        iprMap s.cfg 11 = some .p1lr ∧ iprClass s.cfg 11 ≠ some .readOnly ∧
        lengthValid s.cfg.pcb s.cfg.pcb.p1lr 0x803FFFFF = true :=
  ⟨⟨by decide, rfl, rfl, by decide, rfl, rfl, by decide, rfl, rfl, by decide⟩,
    ⟨rfl, rfl, rfl, by decide, by decide⟩, rfl, rfl, rfl, by decide, by decide⟩

theorem test_witness_MtprFrame :
    (∃ t, exec (.mtpr (.plain (.autoInc 2)) (.plain (.literal 3))) kernelState = .next t) ∧
      ∃ t, exec (.mtpr (.plain (.reg 0)) (.plain (.literal 0))) kernelState = .next t :=
  ⟨exists_next (by decide +kernel), exists_next (by decide +kernel)⟩

/-- T43 (no such register), a read-only CPUID, and T41b (TBIA is write-only). -/
theorem test_witness_WrongProcessorRegisterFaults :
    let s := kernelState
    let none7F : Specifier := .plain (.immediate 0x7F)
    let c : State := { withASN s with cfg := { Params.standard with hasASN := true, iprMap := iprDefault ++ [⟨62, .cpuid, .readOnly⟩] } }
    s.privileged ∧
      (readOperand s (.plain (.literal 0)) (pcAfter1 s (.plain (.literal 0))) 0 = .ok (0, s) ∧
        readOperand s none7F (pcAfter2 s (.plain (.literal 0)) none7F) 1 = .ok (0x7F, s) ∧ iprMap s.cfg 0x7F = none) ∧
      (c.privileged ∧ readOperand c (.plain (.literal 62)) (pcAfter2 c (.plain (.literal 0)) (.plain (.literal 62))) 1 =
          .ok (62, c) ∧ iprMap c.cfg 62 = some .cpuid ∧ iprClass c.cfg 62 = some .readOnly) ∧
      readOperand s (.plain (.literal 57)) (pcAfter1 s (.plain (.literal 57))) 0 = .ok (57, s) ∧
        resolveDestination s (.plain (.reg 0)) (pcAfter2 s (.plain (.literal 57)) (.plain (.reg 0))) 1 =
          .ok (.reg 0, s) ∧ iprMap s.cfg 57 = some .tbia ∧ iprClass s.cfg 57 = some .writeOnly :=
  ⟨by decide, ⟨rfl, rfl, rfl⟩, ⟨by decide, rfl, rfl, rfl⟩, rfl, rfl, rfl, rfl⟩

/-- T49c at the least value turned away; bases outside system space and misaligned; P0LR with ASTLVL 5 and with bit
<22>; P1LR with bit <30>; T49d; and a configured VMAC. -/
theorem test_witness_MtprValuesNotAccepted :
    let s := kernelState
    let c : State := { kernelState with
      cfg := { Params.standard with iprMap := iprDefault ++ [⟨146, .vmac, .readWrite⟩] } }
    let five : Specifier := .plain (.literal 5)
    let low : Specifier := .plain (.immediate 0x7FFFFFFC)
    let odd : Specifier := .plain (.immediate 0x80000001)
    let ast : Specifier := .plain (.immediate 0x05000000)
    let long : Specifier := .plain (.immediate 0x00400000)
    let p1 : Specifier := .plain (.immediate 0x40000000)
    let vaer : Specifier := .plain (.immediate 145)
    let vmac : Specifier := .plain (.immediate 146)
    s.privileged ∧
      (readOperand s five (pcAfter1 s five) 0 = .ok (5, s) ∧
        readOperand s (.plain (.literal 19)) (pcAfter2 s five (.plain (.literal 19))) 1 = .ok (19, s) ∧
        iprMap s.cfg 19 = some .astlvl ∧ iprClass s.cfg 19 ≠ some .readOnly ∧ 4 < (5 : Word).toNat) ∧
      (readOperand s low (pcAfter1 s low) 0 = .ok (0x7FFFFFFC, s) ∧
        readOperand s (.plain (.literal 8)) (pcAfter2 s low (.plain (.literal 8))) 1 = .ok (8, s) ∧
        iprMap s.cfg 8 = some .p0br ∧ iprClass s.cfg 8 ≠ some .readOnly ∧ mapBaseValid 0x7FFFFFFC = false) ∧
      (readOperand s odd (pcAfter1 s odd) 0 = .ok (0x80000001, s) ∧
        readOperand s (.plain (.literal 10)) (pcAfter2 s odd (.plain (.literal 10))) 1 = .ok (10, s) ∧
        iprMap s.cfg 10 = some .p1br ∧ iprClass s.cfg 10 ≠ some .readOnly ∧ mapBaseValid 0x80000001 = false) ∧
      (readOperand s ast (pcAfter1 s ast) 0 = .ok (0x05000000, s) ∧
        readOperand s (.plain (.literal 9)) (pcAfter2 s ast (.plain (.literal 9))) 1 = .ok (9, s) ∧
        iprMap s.cfg 9 = some .p0lr ∧ iprClass s.cfg 9 ≠ some .readOnly ∧
        lengthValid s.cfg.pcb s.cfg.pcb.p0lr 0x05000000 = false ∧
        readOperand s long (pcAfter1 s long) 0 = .ok (0x00400000, s) ∧
        lengthValid s.cfg.pcb s.cfg.pcb.p0lr 0x00400000 = false) ∧
      (readOperand s p1 (pcAfter1 s p1) 0 = .ok (0x40000000, s) ∧
        readOperand s (.plain (.literal 11)) (pcAfter2 s p1 (.plain (.literal 11))) 1 = .ok (11, s) ∧
        iprMap s.cfg 11 = some .p1lr ∧ iprClass s.cfg 11 ≠ some .readOnly ∧
        lengthValid s.cfg.pcb s.cfg.pcb.p1lr 0x40000000 = false) ∧
      (readOperand s vaer (pcAfter2 s five vaer) 1 = .ok (145, s) ∧ iprMap s.cfg 145 = some .vaer ∧
        iprClass s.cfg 145 ≠ some .readOnly) ∧
      c.privileged ∧ readOperand c five (pcAfter1 c five) 0 = .ok (5, c) ∧
        readOperand c vmac (pcAfter2 c five vmac) 1 = .ok (146, c) ∧ iprMap c.cfg 146 = some .vmac ∧
        iprClass c.cfg 146 ≠ some .readOnly :=
  ⟨by decide, ⟨rfl, rfl, rfl, by decide, by decide⟩, ⟨rfl, rfl, rfl, by decide, by decide⟩,
    ⟨rfl, rfl, rfl, by decide, by decide⟩, ⟨rfl, rfl, rfl, by decide, by decide, rfl, by decide⟩,
    ⟨rfl, rfl, rfl, by decide, by decide⟩, ⟨rfl, rfl, by decide⟩, by decide, rfl, rfl, rfl, by decide⟩

/-- T49a and X2, and a completion for each of the first three clauses. -/
theorem test_witness_StackPointerRegistersInSwitchWindow :
    let s : State := { kernelState with inSwitchWindow := true }
    (∃ t, exec .svpctx (svpctxState 0) = .next t) ∧ (∃ t, exec .ldpctx (ldpctxState 0x04000100 0x041F0000) = .next t) ∧
      (∃ t, exec (.mtpr (.plain (.reg 0)) (.plain (.literal 16))) s = .next t) ∧
      s.privileged ∧ s.inSwitchWindow = true ∧
      (iprMap s.cfg 3 = some .usp ∧ iprClass s.cfg 3 = some .readWrite ∧ Ipr.usp.isStackPointer = true ∧
        readOperand s (.plain (.reg 0)) (pcAfter1 s (.plain (.reg 0))) 0 = .ok (0x10000, s) ∧
        readOperand s (.plain (.literal 3)) (pcAfter2 s (.plain (.reg 0)) (.plain (.literal 3))) 1 = .ok (3, s)) ∧
      iprMap s.cfg 4 = some .isp ∧ iprClass s.cfg 4 = some .readWrite ∧ Ipr.isp.isStackPointer = true ∧
        readOperand s (.plain (.literal 4)) (pcAfter1 s (.plain (.literal 4))) 0 = .ok (4, s) ∧
        resolveDestination s (.plain (.reg 0)) (pcAfter2 s (.plain (.literal 4)) (.plain (.reg 0))) 1 =
          .ok (.reg 0, s) :=
  ⟨exists_next (by decide +kernel), exists_next (by decide +kernel), exists_next (by decide +kernel), by decide, rfl,
    ⟨rfl, rfl, rfl, rfl, rfl⟩, rfl, rfl, rfl, rfl, rfl⟩

/-- The default map, with and without the vector architecture; numbers it does not list, 17 among them; rows that put
ASN, CPUID, VMPSL and SCBB at numbers of their own, the second row of 64 coming too late; and R30's table with a row for
SCBB. -/
theorem test_witness_ProcessorRegisterNumbers :
    let c : Params := { Params.standard with
      hasASN := true, hasVM := true
      iprMap := [⟨64, .asn, .readWrite⟩] ++ ⟨65, .cpuid, .readOnly⟩ :: [⟨66, .vmpsl, .readWrite⟩, ⟨64, .scbb, .readWrite⟩] }
    let b : Params := { Params.standard with iprMap := iprDefault ++ ⟨17, .scbb, .readWrite⟩ :: [] }
    (Params.standard.iprMap = iprDefault ∧ { Params.standard with hasVector := false }.iprMap = iprDefault ∧
        (5 : Word).toNat ∉ [0, 1, 2, 3, 4, 8, 9, 10, 11, 16, 19, 57, 58, 61, 144, 145, 147, 148] ∧
        (17 : Word).toNat ∉ [0, 1, 2, 3, 4, 8, 9, 10, 11, 16, 19, 57, 58, 61, 144, 145, 147, 148] ∧
        (146 : Word).toNat ∉ [0, 1, 2, 3, 4, 8, 9, 10, 11, 16, 19, 57, 58, 61, 144, 145, 147, 148] ∧
        (0x80000010 : Word).toNat ∉ [0, 1, 2, 3, 4, 8, 9, 10, 11, 16, 19, 57, 58, 61, 144, 145, 147, 148]) ∧
      ((∀ row ∈ [(⟨64, .asn, .readWrite⟩ : IprRow)], row.number ≠ 65) ∧ iprPresent c .cpuid = true ∧
        iprMap c 65 = some .cpuid ∧ iprClass c 65 = some .readOnly ∧ iprMap c 64 = some .asn ∧
        iprMap c 66 = some .vmpsl) ∧
      ((∀ row ∈ iprDefault, row.number ≠ 17) ∧ iprPresent b .scbb = true ∧ iprMap b 17 = some .scbb ∧
        iprClass b 17 = some .readWrite) ∧
      ∀ row ∈ c.iprMap, row.number = 17 → iprPresent c row.reg = false := by
  decide

/-- T41, T41h: a register, and SP, as destination. -/
theorem test_witness_MfprLoadsRegister :
    let s := kernelState
    let n : Specifier := .plain (.literal 16)
    s.privileged ∧ readOperand s n (pcAfter1 s n) 0 = .ok (16, s) ∧
      resolveDestination s (.plain (.reg 1)) (pcAfter2 s n (.plain (.reg 1))) 1 = .ok (.reg 1, s) ∧
      resolveDestination s (.plain (.reg 14)) (pcAfter2 s n (.plain (.reg 14))) 1 = .ok (.reg regSP, s) ∧
      iprMap s.cfg 16 = some .pcbb ∧ iprClass s.cfg 16 ≠ some .writeOnly ∧ iprRead s .pcbb = .ok 0x10000 :=
  ⟨by decide, rfl, rfl, rfl, rfl, by decide, rfl⟩

/-- T41a, with four physical addresses that differ. -/
theorem test_witness_MfprStoresInMemory :
    let s := kernelState
    let n : Specifier := .plain (.literal 16)
    let d : Specifier := .plain (.absolute 0x3000)
    s.privileged ∧ readOperand s n (pcAfter1 s n) 0 = .ok (16, s) ∧
      resolveDestination s d (pcAfter2 s n d) 1 = .ok (.mem 0x3000, s) ∧ iprMap s.cfg 16 = some .pcbb ∧
      iprClass s.cfg 16 ≠ some .writeOnly ∧ iprRead s .pcbb = .ok 0x10000 ∧ Memory.wf s.mem = true ∧
      (∃ pas, translateLong s 0x3000 .write = .ok pas ∧ pas.Nodup) :=
  ⟨by decide, rfl, rfl, rfl, by decide, rfl, by decide +kernel, ⟨_, rfl, by decide⟩⟩

/-- T41g, an immediate, an index register PC, and an index over a register. -/
theorem test_witness_MfprDestinationMustBeWritable :
    let s := kernelState
    let n : Specifier := .plain (.literal 16)
    s.privileged ∧ readOperand s n (pcAfter1 s n) 0 = .ok (16, s) ∧ (Base.literal 5).writable = false ∧
      (Base.immediate 5).writable = false ∧ (regPC = regPC ∨ (Base.regDeferred 2).indexable = false) ∧
      ((3 : Reg) = regPC ∨ (Base.reg 2).indexable = false) :=
  ⟨by decide, rfl, rfl, rfl, .inl rfl, .inr rfl⟩

/-- T49f and an index of an index under R95's subset, T23, an operand before a form that is refused, an index other than
PC, and a configured VMAC. -/
theorem test_witness_FormsRefusedByName :
    let s : State := { kernelState with pcbb := 0x10001 }
    let c : State := { kernelState with
      cfg := { Params.standard with iprMap := [⟨1, .vmac, .readWrite⟩] } }
    let r (code : List Byte) : State := { kernelState code with cfg := { Params.standard with allOperandForms := false } }
    let f := r [0xDA, 0x81, 0x10]
    let g := r [0xDA, 0x50, 0x41, 0x42]
    ((f.undisturbed ∧ f.afterLdpctx = none ∧ f.cfg.allOperandForms = false ∧
          (∃ rest, decode (fetchBytes f maxLength f.pc).1 =
            .ok (.mtpr (.plain (.autoInc 1)) (.plain (.literal 16)), rest)) ∧
          (Instr.mtpr (.plain (.autoInc 1)) (.plain (.literal 16))).admitted = false) ∧
        g.undisturbed ∧ g.afterLdpctx = none ∧ g.cfg.allOperandForms = false ∧
          decode (fetchBytes g maxLength g.pc).1 = .error (.operand2 (.plain (.reg 0)) .indexOfIndex) ∧
          (DecodeError.operand2 (.plain (.reg 0)) .indexOfIndex).admitted = false) ∧
    (s.privileged ∧ s.pcbb.extractLsb' 0 2 ≠ 0 ∧
        readOperand s (.plain (.literal 16)) (pcAfter1 s (.plain (.literal 16))) 0 = .ok (16, s) ∧ (3 : Reg) ≠ regPC) ∧
      c.privileged ∧ readOperand c (.plain (.literal 1)) (pcAfter1 c (.plain (.literal 1))) 0 = .ok (1, c) ∧
        resolveDestination c (.plain (.reg 0)) (pcAfter2 c (.plain (.literal 1)) (.plain (.reg 0))) 1 =
          .ok (.reg 0, c) ∧ iprMap c.cfg 1 = some .vmac ∧ iprClass c.cfg 1 ≠ some .writeOnly :=
  ⟨⟨⟨by decide, rfl, rfl, ⟨_, rfl⟩, by decide⟩, by decide, rfl, rfl, rfl, by decide⟩, ⟨by decide, by decide, rfl, by decide⟩, by decide, rfl, rfl, rfl, by decide⟩

/-- T63a: RST and VEN together, with the write-one-to-clear bits. -/
theorem test_witness_VpsrWriteActsBitByBit :
    let s := kernelState
    let w : Specifier := .plain (.immediate 0x830000E3)
    let n : Specifier := .plain (.immediate 144)
    s.privileged ∧ (iprMap s.cfg 144 = some .vpsr ∧ iprClass s.cfg 144 = some .readWrite) ∧ readOperand s w (pcAfter1 s w) 0 = .ok (0x830000E3, s) ∧
      readOperand s n (pcAfter2 s w n) 1 = .ok (144, s) ∧ mtprAccepts s .vpsr 0x830000E3 = true :=
  ⟨by decide, ⟨rfl, rfl⟩, rfl, rfl, by decide⟩

theorem test_witness_VpsrReadsAsTabled :
    let s : State := { kernelState with vpsr := ⟨true, true, true, true, true, true, false⟩ }
    let n : Specifier := .plain (.immediate 144)
    s.privileged ∧ (iprMap s.cfg 144 = some .vpsr ∧ iprClass s.cfg 144 = some .readWrite) ∧ readOperand s n (pcAfter1 s n) 0 = .ok (144, s) ∧
      resolveDestination s (.plain (.reg 0)) (pcAfter2 s n (.plain (.reg 0))) 1 = .ok (.reg 0, s) ∧
      resolveDestination s (.plain (.regDeferred 2)) (pcAfter2 s n (.plain (.regDeferred 2))) 1 =
        .ok (.mem 0x3000, s) ∧ Memory.wf s.mem = true ∧
      ∃ pas, translateLong s 0x3000 .write = .ok pas ∧ pas.Nodup :=
  ⟨by decide, ⟨rfl, rfl⟩, rfl, rfl, rfl, by decide +kernel, ⟨_, rfl, by decide⟩⟩

/-- T68. -/
theorem test_witness_VpsrReservedBits :
    let s := kernelState
    let w : Specifier := .plain (.literal 0x10)
    let n : Specifier := .plain (.immediate 144)
    s.privileged ∧ (iprMap s.cfg 144 = some .vpsr ∧ iprClass s.cfg 144 = some .readWrite) ∧ readOperand s w (pcAfter1 s w) 0 = .ok (0x10, s) ∧
      readOperand s n (pcAfter2 s w n) 1 = .ok (144, s) ∧ (0x10#32) &&& 0x7CFFFF10#32 ≠ 0 :=
  ⟨by decide, ⟨rfl, rfl⟩, rfl, rfl, by decide⟩

/-- T67, RST while busy, and T74 to T76 under the asynchronous method. -/
theorem test_witness_VpsrSettingsRefused :
    let s := kernelState
    let b : State := { kernelState with vpsr := ⟨true, false, false, false, false, false, true⟩ }
    let a : State := { kernelState with cfg := { Params.standard with vecMMAsync := true } }
    let five : Specifier := .plain (.literal 5)
    let two : Specifier := .plain (.literal 2)
    let nine : Specifier := .plain (.literal 9)
    let n : Specifier := .plain (.immediate 144)
    (s.privileged ∧ (iprMap s.cfg 144 = some .vpsr ∧ iprClass s.cfg 144 = some .readWrite) ∧ readOperand s five (pcAfter1 s five) 0 = .ok (5, s) ∧
        readOperand s n (pcAfter2 s five n) 1 = .ok (144, s) ∧ (5#32) &&& 0x7CFFFF10#32 = 0 ∧
        (5#32).extractLsb' 0 4 = 0b0101#4) ∧
      (b.privileged ∧ (iprMap b.cfg 144 = some .vpsr ∧ iprClass b.cfg 144 = some .readWrite) ∧ readOperand b two (pcAfter1 b two) 0 = .ok (2, b) ∧
        readOperand b n (pcAfter2 b two n) 1 = .ok (144, b) ∧ (2#32) &&& 0x7CFFFF10#32 = 0 ∧
        (2#32).extractLsb' 0 4 = 0b0010#4 ∧ b.vpsr.bsy = true) ∧
      a.privileged ∧ (iprMap a.cfg 144 = some .vpsr ∧ iprClass a.cfg 144 = some .readWrite) ∧ readOperand a nine (pcAfter1 a nine) 0 = .ok (9, a) ∧
        readOperand a n (pcAfter2 a nine n) 1 = .ok (144, a) ∧ (9#32) &&& 0x7CFFFF10#32 = 0 ∧
        (9#32).extractLsb' 0 4 = 0b1001#4 ∧ a.cfg.vecMMAsync = true :=
  ⟨⟨by decide, ⟨rfl, rfl⟩, rfl, rfl, by decide, by decide⟩, ⟨by decide, ⟨rfl, rfl⟩, rfl, rfl, by decide, by decide, rfl⟩, by decide,
    ⟨rfl, rfl⟩, rfl, rfl, by decide, by decide, rfl⟩

/-- T80, T81, T84: VLR 2 with elements on either side, VLR 64, VLR 0, two registers, and the kinds with sources. -/
theorem test_witness_VectorWriteRespectsLength :
    let s : State := { kernelState with vlr := 2 }
    let s' : State := { kernelState with vlr := 64 }
    s.vlr.toNat ≤ 64 ∧ (1 : Fin 64).val < s.vlr.toNat ∧ s.vlr.toNat ≤ (2 : Fin 64).val ∧ s'.vlr.toNat ≤ 64 ∧
      (63 : Fin 64).val < s'.vlr.toNat ∧ State.reset.vlr.toNat ≤ (0 : Fin 64).val ∧ (3 : VReg) ≠ 2 ∧
      VectorKind.logical 4 5 = .logical 4 5 ∧ VectorKind.operate [4, 5] = .operate [4, 5] := by decide

theorem test_witness_PushedLongwordIsOnTop :
    kernelState.plainMemory ∧ Memory.wf kernelState.mem = true ∧ kernelState.loadedPcb = none := by decide +kernel

theorem test_witness_StoresAreLittleEndian :
    let s := withFault kernelState 0x3002 0x3003 .accessViolation
    ((∃ t, memWrite kernelState 0xFFFFFFFE 0x12345678 = .ok t) ∧ Memory.wf kernelState.mem = true ∧
        (longAddrs 0xFFFFFFFE).Nodup ∧ (longAddrs 0xFFFFFFFE)[3]? = some 1) ∧
      translateLong s 0x3000 .write = .error (.exc (.accessViolation 0x3002)) :=
  ⟨⟨⟨_, rfl⟩, by decide +kernel, by decide, by decide⟩, rfl⟩

theorem test_witness_StepKeepsInvariant :
    let s := reiState 0x2000 0x03C00000
    let s' := userState [0xFF, 0xFE, 0x04, 0x00]
    (s.Inv ∧ ∃ t, step s = .next t) ∧ s'.Inv ∧ ∃ t, step s' = .next t :=
  ⟨⟨by decide +kernel, exists_next (by decide +kernel)⟩, by decide +kernel, exists_next (by decide +kernel)⟩

/-- For `StepLeavesVectorRegisters`, `OutsideKernelModeNothingPrivilegedChanges` and `PrivilegeRisesOnlyByEntry`: REI
from user mode to user mode, and a bugcheck from user mode to kernel mode. -/
theorem test_witness_StepOutsideKernelMode :
    let s := st 0x03C00000 [(regSP, 0x1000)] [(0x1000, 0x2000), (0x1004, 0x03C0000F)] [0x02]
    let s' := userState [0xFF, 0xFE, 0x04, 0x00]
    (s.mode ≠ 0 ∧ nextOf (step s) State.mode = some 3 ∧ s.cfg.reiTable = []) ∧ s'.cfg.reiTable = [] ∧ s'.mode ≠ 0 ∧ nextOf (step s') State.mode = some 0 ∧
      (∃ t, step s = .next t) ∧ ∃ t, step s' = .next t :=
  ⟨⟨by decide, by decide +kernel, rfl⟩, rfl, by decide, by decide +kernel, exists_next (by decide +kernel),
    exists_next (by decide +kernel)⟩

end Sys2Proof.Tests
end

/-!
PROOFS. The switch window (40_privileged R151) and SVPCTX's switch to the interrupt stack (R144).
-/

namespace Sys2Proof.Machine

/-! ## What the switch window depends on -/

/-- Taking an exception neither opens nor closes the switch window. -/
theorem raise_inSwitchWindow {s t : State} {e : Exc} (h : raise s e = .next t) :
    t.inSwitchWindow = s.inSwitchWindow := by
  rw [raise_frame h]

/-- REI neither opens nor closes the switch window. -/
theorem reiBody_inSwitchWindow {s t : State} (h : reiBody s = .ok t) : t.inSwitchWindow = s.inSwitchWindow := by
  obtain ⟨newPc, long, -, -, -, rfl⟩ := reiBody_ok h
  simp [reiResume]

/-- LDPCTX closes the switch window (R256). -/
theorem ldpctxBody_closesWindow {s t : State} (h : ldpctxBody s = .ok t) : t.inSwitchWindow = false := by
  obtain ⟨-, -, s2, s3, -, -, rfl⟩ := ldpctxBody_ok h
  simp

/-- SVPCTX opens the switch window (R256). -/
theorem svpctxBody_opensWindow {s t : State} (h : svpctxBody s = .ok t) : t.inSwitchWindow = true := by
  obtain ⟨-, a, b, -, -, rfl⟩ := svpctxBody_ok h
  simp [svpctxSave]

/-- MTPR neither opens nor closes the switch window. -/
theorem mtprBody_inSwitchWindow {src procreg : Specifier} {s t : State} (h : mtprBody src procreg s = .ok t) :
    t.inSwitchWindow = s.inSwitchWindow := by
  obtain ⟨v, s1, n, s2, r, -, -, -, -, -, -, -, -, hw, -⟩ := mtprBody_frame h
  exact hw

/-- MFPR neither opens nor closes the switch window. -/
theorem mfprBody_inSwitchWindow {procreg dst : Specifier} {s t : State} (h : mfprBody procreg dst s = .ok t) :
    t.inSwitchWindow = s.inSwitchWindow := by
  rw [(mfprBody_frame h).1]

/-- An instruction other than SVPCTX and LDPCTX neither opens nor closes the switch window, whether it completes or
takes an exception (R151). -/
theorem exec_inSwitchWindow {i : Instr} {s t : State} (hs : i ≠ .svpctx) (hl : i ≠ .ldpctx) (h : exec i s = .next t) :
    t.inSwitchWindow = s.inSwitchWindow := by
  rcases exec_next h with ⟨e, h⟩ | ⟨-, ⟨e, h⟩ | h⟩ | ⟨rfl, -⟩ | ⟨rfl, -⟩ | ⟨a, b, -, h⟩ | ⟨a, b, -, h⟩
  · exact raise_inSwitchWindow h
  · exact (raise_inSwitchWindow h).trans (reiBegun_inSwitchWindow s)
  · exact (reiBody_inSwitchWindow h).trans (reiBegun_inSwitchWindow s)
  · exact absurd rfl hl
  · exact absurd rfl hs
  · exact mtprBody_inSwitchWindow h
  · exact mfprBody_inSwitchWindow h

/-! ## What the switch window refuses -/

/-- In the switch window no stack pointer register is written (R151). -/
theorem iprWrite_inSwitchWindow {s : State} {r : Ipr} (hw : s.inSwitchWindow = true) (hr : r.isStackPointer = true)
    (w : Word) : iprWrite s r w = .error (.refuse .stackPointerInSwitchWindow) := by
  have hslot (slot : Option (Fin 4)) : stackWrite s slot w = .error (.refuse .stackPointerInSwitchWindow) := if_pos hw
  cases r
  case ksp | esp | ssp | usp | isp => exact hslot _
  all_goals cases hr

/-- In the switch window no stack pointer register is read (R151). -/
theorem iprRead_inSwitchWindow {s : State} {r : Ipr} (hw : s.inSwitchWindow = true) (hr : r.isStackPointer = true) :
    iprRead s r = .error (.refuse .stackPointerInSwitchWindow) := by
  have hslot (slot : Option (Fin 4)) : stackRead s slot = .error (.refuse .stackPointerInSwitchWindow) := if_pos hw
  cases r
  case ksp | esp | ssp | usp | isp => exact hslot _
  all_goals cases hr

/-- Evaluating two operands neither opens nor closes the switch window. -/
theorem readOperands_inSwitchWindow {s s1 s2 : State} {a b : Specifier} {v n pa pb : Word}
    (h1 : readOperand s a pa 0 = .ok (v, s1)) (h2 : readOperand s1 b pb 1 = .ok (n, s2)) :
    s2.inSwitchWindow = s.inSwitchWindow := by
  rw [readOperands_state h1 h2]

/-- Evaluating an operand and a destination neither opens nor closes the switch window. -/
theorem resolvedDestination_inSwitchWindow {s s1 s2 : State} {a b : Specifier} {n pa pb : Word} {d : Loc}
    (h1 : readOperand s a pa 0 = .ok (n, s1)) (h2 : resolveDestination s1 b pb 1 = .ok (d, s2)) :
    s2.inSwitchWindow = s.inSwitchWindow := by
  have e1 : s1 = { s with x := s1.x } := (readOperand_ok h1).1
  have e2 : s2 = { s1 with x := s2.x } := (resolveDestination_ok h2).1.1
  rw [e2, e1]

/-- Settles O43: the window is opened by SVPCTX, closed by LDPCTX and kept by every other instruction, and in it the
access to the register itself is what refuses MTPR and MFPR. -/
theorem stackPointerRegistersInSwitchWindow : Obligations.StackPointerRegistersInSwitchWindow := by
  refine ⟨fun s t h => (exec_svpctx_next h).imp id svpctxBody_opensWindow,
    fun s t h => (exec_ldpctx_next h).imp id ldpctxBody_closesWindow, fun s t i => exec_inSwitchWindow, ?_⟩
  intro s s1 s2 first second v n d r hp hw hn hr
  refine ⟨fun h1 h2 hc => ?_, fun h1 h2 hc => ?_⟩
  · have hw2 : s2.inSwitchWindow = true := (readOperands_inSwitchWindow h1 h2).trans hw
    simp [exec_mtpr_eq hp h1 h2, writableIpr_of hn hc, iprWrite_inSwitchWindow hw2 hr]
  · have hw2 : s2.inSwitchWindow = true := (resolvedDestination_inSwitchWindow h1 h2).trans hw
    simp [exec_mfpr_eq hp h1 h2, readableIpr_of hn hc, iprRead_inSwitchWindow hw2 hr]

/-! ## The PSL on the interrupt stack -/

theorem pslIs_svpctxPsl (p : Word) : pslIs (svpctxPsl p) = true := by
  simp [svpctxPsl]

/-- IPL is the maximum of its old value and 1 (R144). -/
theorem pslIpl_svpctxPsl (p : Word) : (pslIpl (svpctxPsl p)).toNat = max (pslIpl p).toNat 1 := by
  rw [svpctxPsl, pslIpl_pslWithIpl]
  split
  next h => rw [h]; decide
  next h =>
    have : (pslIpl p).toNat ≠ 0 := fun h0 => h (BitVec.eq_of_toNat_eq h0)
    omega

/-- A change of IPL leaves the bits outside IS and IPL alone. -/
theorem pslWithIpl_rest (p : Word) (l : BitVec 5) : pslWithIpl p l &&& 0xFBE0FFFF#32 = p &&& 0xFBE0FFFF#32 := by
  refine and_mask_congr fun i hi => pslWithIpl_getLsbD p l ?_
  by_contra hn
  have : 16 ≤ i ∧ i < 21 := by omega
  obtain ⟨ha, hb⟩ := this
  interval_cases i <;> revert hi <;> decide

/-- Setting IS leaves the bits outside IS and IPL alone. -/
theorem pslWithIs_rest (p : Word) : pslWithIs p true &&& 0xFBE0FFFF#32 = p &&& 0xFBE0FFFF#32 := by
  rw [pslWithIs, if_pos rfl, BitVec.and_or_distrib_right]
  simp

/-- SVPCTX changes no bit of the PSL outside IS and IPL (R144). -/
theorem svpctxPsl_rest (p : Word) : svpctxPsl p &&& 0xFBE0FFFF#32 = p &&& 0xFBE0FFFF#32 := by
  rw [svpctxPsl, pslWithIpl_rest, pslWithIs_rest]

/-! ## The switch to the interrupt stack -/

theorem toInterruptStack_of_interrupt {s : State} (h : pslIs s.psl = true) : toInterruptStack s = s := if_pos h

theorem toInterruptStack_of_process {s : State} (h : pslIs s.psl = false) :
    toInterruptStack s = switchStack s s.sp (svpctxPsl s.psl) := if_neg (by simp [h])

/-- From a process's stack, SP is loaded from ISP (R144). -/
theorem toInterruptStack_sp {s : State} (h : pslIs s.psl = false) : (toInterruptStack s).sp = s.isp := by
  have hIs := pslIs_svpctxPsl s.psl
  rw [toInterruptStack_of_process h, switchStack_sp, stackCell_interrupt s hIs, if_neg]
  simp [sameStack, h, hIs]

/-- From the kernel stack, SP goes to the kernel stack's cell and no other (R144). -/
theorem toInterruptStack_spSlot {s : State} (h : pslIs s.psl = false) (hm : s.mode = 0) :
    (toInterruptStack s).spSlot = s.spSlot.set 0 s.sp := by
  have hn : (pslCurMod s.psl).toNat = 0 := congrArg BitVec.toNat hm
  rw [toInterruptStack_of_process h]
  simp [switchStack, setStackCell, setReg, h, hn]

/-! ## SVPCTX's outcome -/

/-- SVPCTX in kernel mode, once its two longwords are read and its PCB is known to be in memory (R140). -/
theorem svpctxBody_of {s : State} {a b : Word} (hp : s.privileged) (ha : s.pcbb.extractLsb' 0 2 = 0)
    (h1 : memRead s s.sp = .ok a) (h2 : memRead s (s.sp + 4) = .ok b) (hq : requirePhys s.cfg (pcbAddrs s) = .ok ()) :
    svpctxBody s = .ok (svpctxSave s a b) := by
  have hAligned : requirePcbbAligned s = .ok () := if_pos ha
  have hPcb : requirePcb s = .ok () := by simp only [requirePcb, hq]
  simp only [svpctxBody, privilegeCheck_kernel hp.2 hp.1, hAligned, h1, h2, hPcb, res_ok_bind]
  rfl

/-- SP is final once SVPCTX has left its stack: the stores that follow do not change it. -/
theorem svpctxSave_sp (s : State) (a b : Word) : (svpctxSave s a b).sp = (svpctxLeave s a b).sp := by
  rw [svpctxSave, finish_sp, svpctxDone_sp]
  exact getReg_pcbWriteAll ..

/-- So are the cells. -/
theorem svpctxSave_spSlot (s : State) (a b : Word) : (svpctxSave s a b).spSlot = (svpctxLeave s a b).spSlot := by
  simp [svpctxSave]

/-- With IS set SVPCTX switches no stack: SP is past the two longwords, and the cells are as they were (R144). -/
theorem svpctxSave_of_interrupt {s : State} (h : pslIs s.psl = true) (a b : Word) :
    (svpctxSave s a b).sp = s.sp + 8 ∧ (svpctxSave s a b).spSlot = s.spSlot := by
  rw [svpctxSave_sp, svpctxSave_spSlot, svpctxLeave, toInterruptStack_of_interrupt (by simpa using h)]
  simp

/-- With IS clear SVPCTX leaves the kernel stack for the interrupt stack (R144). -/
theorem svpctxSave_of_process {s : State} (h : pslIs s.psl = false) (hm : s.mode = 0) (a b : Word) :
    (svpctxSave s a b).sp = s.isp ∧ (svpctxSave s a b).spSlot = s.spSlot.set 0 (s.sp + 8) := by
  rw [svpctxSave_sp, svpctxSave_spSlot, svpctxLeave, toInterruptStack_sp (by simpa using h),
    toInterruptStack_spSlot (by simpa using h) (by simpa using hm)]
  simp

/-- Settles O32, from SVPCTX's frame for PSL and ISP, and the two cases of IS for SP and the other cells. -/
theorem svpctxSwitchesToInterruptStack : Obligations.SvpctxSwitchesToInterruptStack := by
  intro s a b hp ha h1 h2 hq
  have hBody := svpctxBody_of hp ha h1 h2 hq
  obtain ⟨-, hPsl, -, -, -, -, -, hIsp⟩ := svpctxBody_frame hBody
  refine ⟨svpctxSave s a b, congrArg (settle s) hBody, fun hIs => ?_, fun hIs => ?_⟩
  · obtain ⟨hSp, hSlot⟩ := svpctxSave_of_process hIs hp.1 a b
    rw [if_neg (by simp [hIs])] at hPsl
    rw [hPsl, hSlot]
    exact ⟨pslIs_svpctxPsl _, pslIpl_svpctxPsl _, hSp, by simp, by simp, by simp, by simp, svpctxPsl_rest _⟩
  · obtain ⟨hSp, hSlot⟩ := svpctxSave_of_interrupt hIs a b
    rw [if_pos hIs] at hPsl
    exact ⟨hPsl, hSp, hIsp, hSlot⟩

end Sys2Proof.Machine

/-!
PROOFS. What MFPR reads from VPSR and leaves behind (42_vector R187), and VPSR's reserved bits (R198).
-/

namespace Sys2Proof.Machine

/-! ## The bits of VPSR as read -/

theorem getLsbD_bitAt (n i : Nat) (b : Bool) : (bitAt n b).getLsbD i = (b && decide (n < 32) && decide (n = i)) := by
  cases b
  case false => simp [bitAt]
  case true =>
    rw [Bool.true_and]
    exact BitVec.getLsbD_twoPow n i

/-- A bit lies within every mask that has a one in its place. -/
theorem bitAt_and {n : Nat} {m : Word} (h : m.getLsbD n = true) (b : Bool) : bitAt n b &&& m = bitAt n b := by
  apply BitVec.eq_of_getLsbD_eq
  intro i _
  rw [BitVec.getLsbD_and, getLsbD_bitAt]
  by_cases hi : n = i
  · rw [← hi, h, Bool.and_true]
  · simp [hi]

/-- The possible read values are a subset of the mask 830000E1 (R187). -/
theorem vpsrRead_and_mask (s : State) : vpsrRead s &&& 0x830000E1#32 = vpsrRead s := by
  simp [vpsrRead, BitVec.and_or_distrib_right, bitAt_and]

theorem vpsrRead_and_of_disjoint (s : State) {m : Word} (h : 0x830000E1#32 &&& m = 0) : vpsrRead s &&& m = 0 := by
  rw [← vpsrRead_and_mask, BitVec.and_assoc, h]
  exact BitVec.and_zero

/-- Each bit that VPSR implements is read at its place (R187). -/
theorem vpsrRead_bits (s : State) :
    (vpsrRead s).getLsbD 0 = s.vpsr.ven ∧ (vpsrRead s).getLsbD 5 = (s.vpsr.mf && s.cfg.vecMMAsync) ∧
      (vpsrRead s).getLsbD 6 = (s.vpsr.pmf && s.cfg.vecMMAsync) ∧ (vpsrRead s).getLsbD 7 = s.vpsr.aex ∧
      (vpsrRead s).getLsbD 24 = (s.vpsr.imp && s.cfg.hasVpsrImp) ∧
      (vpsrRead s).getLsbD 25 = (s.vpsr.ivo && s.cfg.hasVpsrIvo) ∧ (vpsrRead s).getLsbD 31 = s.vpsr.bsy := by
  simp only [vpsrRead, BitVec.getLsbD_or, getLsbD_bitAt]
  simp

/-! ## States that differ in general registers -/

/-- The operands of MFPR, once evaluated, have changed the registers their modes update, and nothing else (R94). -/
theorem mfprOperands_onlyRegs {s s1 s2 : State} {procreg dst : Specifier} {n pa pb : Word} {d : Loc}
    (h1 : readOperand s procreg pa 0 = .ok (n, s1)) (h2 : resolveDestination s1 dst pb 1 = .ok (d, s2)) :
    onlyRegs s s2 (specUpdates procreg ++ specUpdates dst) :=
  onlyRegs_trans (readOperand_ok h1) (resolveDestination_ok h2).1

/-- Translation does not go by the general registers (R63). -/
theorem translateLong_of_onlyRegs {s t : State} {l : List Reg} (h : onlyRegs s t l) (va : Word) (k : AccessKind) :
    translateLong t va k = translateLong s va k := by
  rw [h.1]
  exact SameTranslation.translateLong ⟨rfl, rfl, rfl, rfl, rfl, rfl, rfl⟩ va k

/-- A processor register's contents do not depend on the general registers (R155). -/
theorem iprRead_of_onlyRegs {s t : State} {l : List Reg} (h : onlyRegs s t l) (r : Ipr) :
    iprRead t r = iprRead s r := by
  rw [h.1]
  cases r <;> rfl

/-! ## The completion of MFPR -/

section
variable {s s1 s2 : State} {procreg dst : Specifier} {n v : Word} {r : Ipr}

/-- MFPR completes, once its operands are evaluated, when the register can be read and the destination
written (R152). -/
theorem mfprBody_of {u : State} {d : Loc} (hp : s.privileged)
    (h1 : readOperand s procreg (pcAfter1 s procreg) 0 = .ok (n, s1))
    (h2 : resolveDestination s1 dst (pcAfter2 s procreg dst) 1 = .ok (d, s2))
    (hr : readableIpr s.cfg n = .ok r) (hv : iprRead s r = .ok v) (hu : writeOperand s2 d v = .ok u) :
    mfprBody procreg dst s = .ok (finish (drawCc u) (pcAfter2 s procreg dst)) := by
  have hv2 : iprRead s2 r = .ok v := (iprRead_of_onlyRegs (mfprOperands_onlyRegs h1 h2) r).trans hv
  simp only [mfprBody, privilegeCheck_kernel hp.2 hp.1, h1, h2, hr, hv2, hu, res_ok_bind]
  rfl

theorem exec_mfpr_of {t : State} (h : mfprBody procreg dst s = .ok t) : exec (.mfpr procreg dst) s = .next t :=
  congrArg (settle s) h

/-- MFPR that completes changes N, Z, V and C to the free value, and of the rest of the state outside general registers
and memory nothing (R154). -/
theorem mfprBody_keeps {t : State} (h : mfprBody procreg dst s = .ok t) :
    pslCc t.psl = Config.freeFlags s.draws ∧ samePslButCc s t ∧ t.cfg = s.cfg ∧ sameProcessorRegisters s t ∧
      sameStackCells s t ∧ sameVectorState s t ∧ sameMarks s t := by
  rw [(mfprBody_frame h).1]
  simp [samePslButCc, pslWithCc_rest, sameProcessorRegisters, sameStackCells, sameVectorState, sameMarks]

/-- MFPR into a register replaces it by the contents, and changes no other register but PC and those its operands
update, and no memory (R152). -/
theorem mfprBody_register {q : Reg} (hp : s.privileged)
    (h1 : readOperand s procreg (pcAfter1 s procreg) 0 = .ok (n, s1))
    (h2 : resolveDestination s1 dst (pcAfter2 s procreg dst) 1 = .ok (.reg q, s2))
    (hr : readableIpr s.cfg n = .ok r) (hv : iprRead s r = .ok v) :
    ∃ t, mfprBody procreg dst s = .ok t ∧ getReg t q = v ∧
      (∀ p, p ≠ q → p ≠ regPC → p ∉ specUpdates procreg → p ∉ specUpdates dst → getReg t p = getReg s p) ∧
      sameMemory s t := by
  obtain ⟨hState, hRegs⟩ := mfprOperands_onlyRegs h1 h2
  have hq : q ≠ regPC := by simpa using (resolveDestination_ok h2).2
  refine ⟨_, mfprBody_of hp h1 h2 hr hv rfl, ?_, fun p hpq hpc hp1 hp2 => ?_, fun b => ?_⟩
  · simp [getReg_finish, hq]
  · simpa [getReg_finish, hpq, hpc] using hRegs p (by simp [hp1, hp2])
  · rw [hState]
    rfl

/-- MFPR into memory stores the contents at the destination's four bytes, least significant first, and changes no other
memory, and no register but PC and those its operands update (R64, R152). -/
theorem mfprBody_memory {a : Word} (hp : s.privileged)
    (h1 : readOperand s procreg (pcAfter1 s procreg) 0 = .ok (n, s1))
    (h2 : resolveDestination s1 dst (pcAfter2 s procreg dst) 1 = .ok (.mem a, s2))
    (hr : readableIpr s.cfg n = .ok r) (hv : iprRead s r = .ok v) :
    ∃ t pas, mfprBody procreg dst s = .ok t ∧ translateLong s a .write = .ok pas ∧
      (Memory.wf s.mem = true → pas.Nodup → pas.map (fun b => Memory.read t.mem b.toNat) = bytesOfLong v) ∧
      (∀ p, p ≠ regPC → p ∉ specUpdates procreg → p ∉ specUpdates dst → getReg t p = getReg s p) ∧
      sameMemoryOutside s t pas := by
  have hOnly := mfprOperands_onlyRegs h1 h2
  obtain ⟨pas, hPas⟩ : ∃ pas, translateLong s2 a .write = .ok pas := by simpa using (resolveDestination_ok h2).2
  have hMem : s2.mem = s.mem := by rw [hOnly.1]
  refine ⟨_, pas, mfprBody_of hp h1 h2 hr hv (memWrite_of hPas), ?_, fun hwf hnd => ?_, fun p hpc hp1 hp2 => ?_, ?_⟩
  · rw [← translateLong_of_onlyRegs hOnly, hPas]
  · exact Memory.map_read_writeAll (translateLong_ok hPas).1 hnd (hMem ▸ hwf)
  · simpa [getReg_finish, hpc] using hOnly.2 p (by simp [hp1, hp2])
  · intro b hb
    rw [← hMem]
    exact sameMemoryOutside_setPhysBytes s2 pas (bytesOfLong v) b hb

end

/-- Settles O50: the bits are those of `vpsrRead`, and MFPR completes with them into a register or into memory. -/
theorem vpsrReadsAsTabled : Obligations.VpsrReadsAsTabled := by
  refine ⟨fun s => ⟨vpsrRead_and_of_disjoint s (by decide), vpsrRead_bits s⟩, ?_⟩
  intro s s1 s2 procreg dst n hp h1 hn hc
  have hr := readableIpr_of hn hc
  have hv : iprRead s .vpsr = .ok (vpsrRead s) := rfl
  refine ⟨fun q h2 => ?_, fun a h2 => ?_⟩
  · obtain ⟨t, hBody, hq, hRegs, hMem⟩ := mfprBody_register hp h1 h2 hr hv
    obtain ⟨hCc, hPsl, hCfg, hIprs, hCells, hVec, hMarks⟩ := mfprBody_keeps hBody
    exact ⟨t, exec_mfpr_of hBody, hq, hCc, hPsl, hCfg, hRegs, hIprs, hCells, hVec, hMarks, hMem⟩
  · obtain ⟨t, pas, hBody, hPas, hStored, hRegs, hMem⟩ := mfprBody_memory hp h1 h2 hr hv
    obtain ⟨hCc, hPsl, hCfg, hIprs, hCells, hVec, hMarks⟩ := mfprBody_keeps hBody
    exact ⟨t, pas, exec_mfpr_of hBody, hPas, hStored, hCc, hPsl, hCfg, hRegs, hIprs, hCells, hVec, hMarks, hMem⟩

/-! ## The reserved bits of VPSR -/

/-- A one in a reserved bit of VPSR is refused, whatever the other bits are (R186, R198). -/
theorem vpsrWrite_reserved {s : State} {w : Word} (h : w &&& 0x7CFFFF10#32 ≠ 0) :
    vpsrWrite s w = .error (.refuse .vpsrReservedBits) := if_pos h

/-- Settles O51: the reserved bits lie outside the mask of the read values, and the write itself is what
refuses MTPR. -/
theorem vpsrReservedBits : Obligations.VpsrReservedBits := by
  refine ⟨fun s => vpsrRead_and_of_disjoint s (by decide), ?_⟩
  intro s s1 s2 src procreg w n hp h1 h2 hn hc hw
  have hWrite : iprWrite s2 .vpsr w = .error (.refuse .vpsrReservedBits) := vpsrWrite_reserved hw
  simp [exec_mtpr_eq hp h1 h2, writableIpr_of hn hc, hWrite]

end Sys2Proof.Machine

/-!
PROOFS. The decoder and the encoder are each other's inverse (30_encoding R90 to R97).
-/

namespace Sys2Proof

/-! ## What the decoder reads, the encoder writes -/

theorem byte_of_toNat {b : Byte} {n : Nat} (h : b.toNat = n) : b = BitVec.ofNat 8 n := by
  rw [← h, BitVec.ofNat_toNat, BitVec.setWidth_eq]

/-- A specifier byte is made of its mode and register (R93). -/
theorem specByte_specMode_specReg (b : Byte) : specByte (specMode b) (specReg b) = b := by
  apply BitVec.eq_of_toNat_eq
  have := b.isLt
  rw [specByte, BitVec.toNat_ofNat, specMode, specReg]
  simp only
  omega

/-- A literal's byte is made of its six bits (R94). -/
theorem setWidth_literal (b : Byte) (h : specMode b < 4) : (b.extractLsb' 0 6).setWidth 8 = b := by
  apply BitVec.eq_of_toNat_eq
  have := b.isLt
  rw [specMode] at h
  simp only [BitVec.toNat_setWidth, BitVec.extractLsb'_toNat, Nat.shiftRight_zero]
  omega

theorem bytesOfLong_longOfBytes (b0 b1 b2 b3 : Byte) :
    bytesOfLong (longOfBytes [b0, b1, b2, b3]) = [b0, b1, b2, b3] := by
  have h (i : Nat) (hi : i < 32) : (longOfBytes [b0, b1, b2, b3]).getLsbD i =
      if i < 8 then b0.getLsbD i else if i < 16 then b1.getLsbD (i - 8)
      else if i < 24 then b2.getLsbD (i - 16) else b3.getLsbD (i - 24) := by
    simp only [longOfBytes, BitVec.getLsbD_or, BitVec.getLsbD_shiftLeft, BitVec.getLsbD_setWidth]
    interval_cases i <;> simp
  simp only [bytesOfLong, List.cons.injEq, and_true]
  refine ⟨?_, ?_, ?_, ?_⟩
  all_goals
    apply BitVec.eq_of_getLsbD_eq
    intro i hi
    rw [BitVec.getLsbD_extractLsb', h _ (by omega)]
    interval_cases i <;> simp

theorem bytesOfShort_longOfBytes (b0 b1 : Byte) :
    bytesOfShort ((longOfBytes [b0, b1]).setWidth 16) = [b0, b1] := by
  have h (i : Nat) (hi : i < 16) : ((longOfBytes [b0, b1]).setWidth 16).getLsbD i =
      if i < 8 then b0.getLsbD i else b1.getLsbD (i - 8) := by
    simp only [longOfBytes, BitVec.getLsbD_or, BitVec.getLsbD_shiftLeft, BitVec.getLsbD_setWidth]
    interval_cases i <;> simp
  simp only [bytesOfShort, List.cons.injEq, and_true]
  refine ⟨?_, ?_⟩
  all_goals
    apply BitVec.eq_of_getLsbD_eq
    intro i hi
    rw [BitVec.getLsbD_extractLsb', h _ (by omega)]
    interval_cases i <;> simp

theorem takeByte_ok {l : List Byte} {p : BitVec 8 × List Byte} (h : takeByte l = .ok p) : p.1 :: p.2 = l := by
  match l, h with
  | _ :: _, h => cases h; rfl

theorem takeShort_ok {l : List Byte} {p : BitVec 16 × List Byte} (h : takeShort l = .ok p) :
    bytesOfShort p.1 ++ p.2 = l := by
  match l, h with
  | b0 :: b1 :: _, h => cases h; rw [bytesOfShort_longOfBytes]; rfl

theorem takeLong_ok {l : List Byte} {p : Word × List Byte} (h : takeLong l = .ok p) : bytesOfLong p.1 ++ p.2 = l := by
  match l, h with
  | b0 :: b1 :: b2 :: b3 :: _, h => cases h; rw [bytesOfLong_longOfBytes]; rfl

theorem except_map_ok {ε α β : Type} {x : Except ε α} {f : α → β} {b : β} (h : x.map f = .ok b) :
    ∃ a, x = .ok a ∧ f a = b := by
  cases x with
  | error e => cases h
  | ok a => exact ⟨a, rfl, by simpa [Except.map] using h⟩

/-- A specifier without index, once decoded, has the bytes it was decoded from (R94). -/
theorem decodeBase_ok {c : Byte} {bs : List Byte} {p : Base × List Byte} (h : decodeBase c bs = .ok p) :
    p.1.encodable = true ∧ encodeBase p.1 ++ p.2 = c :: bs := by
  have hc := specByte_specMode_specReg c
  unfold decodeBase at h
  split at h
  case h_1 hm | h_2 hm | h_3 hm | h_4 hm =>
    cases h
    exact ⟨rfl, by simp [encodeBase, setWidth_literal c (by omega)]⟩
  case h_5 => cases h
  case h_6 hm | h_7 hm | h_8 hm =>
    cases h
    rw [hm] at hc
    exact ⟨rfl, by simp [encodeBase, hc]⟩
  case h_9 hm | h_10 hm =>
    rw [hm] at hc
    simp only at h
    split at h
    next hr =>
      obtain ⟨q, hq, rfl⟩ := except_map_ok h
      rw [hr] at hc
      exact ⟨rfl, by simp [encodeBase, hc, takeLong_ok hq]⟩
    next hr =>
      cases h
      exact ⟨by simpa [Base.encodable] using hr, by simp [encodeBase, hc]⟩
  case h_11 hm | h_12 hm =>
    obtain ⟨q, hq, rfl⟩ := except_map_ok h
    rw [hm] at hc
    exact ⟨rfl, by simp [encodeBase, hc, takeByte_ok hq]⟩
  case h_13 hm | h_14 hm =>
    obtain ⟨q, hq, rfl⟩ := except_map_ok h
    rw [hm] at hc
    exact ⟨rfl, by simp [encodeBase, hc, takeShort_ok hq]⟩
  case h_15 hm =>
    obtain ⟨q, hq, rfl⟩ := except_map_ok h
    rw [hm] at hc
    exact ⟨rfl, by simp [encodeBase, hc, takeLong_ok hq]⟩
  case h_16 =>
    obtain ⟨q, hq, rfl⟩ := except_map_ok h
    have hlt : specMode c < 16 := Nat.div_lt_of_lt_mul c.isLt
    have hm : specMode c = 15 := by
      simp only [imp_false] at *
      omega
    rw [hm] at hc
    exact ⟨rfl, by simp [encodeBase, hc, takeLong_ok hq]⟩

/-- A specifier, once decoded, has the bytes it was decoded from (R93, R94). -/
theorem decodeSpecifier_ok {bs : List Byte} {p : Specifier × List Byte} (h : decodeSpecifier bs = .ok p) :
    p.1.encodable = true ∧ encodeSpecifier p.1 ++ p.2 = bs := by
  cases bs with
  | nil => cases h
  | cons c bs =>
    simp only [decodeSpecifier] at h
    split at h
    next hm =>
      split at h
      next => cases h
      next =>
        obtain ⟨q, hq, rfl⟩ := except_map_ok h
        obtain ⟨he, hb⟩ := decodeBase_ok hq
        have hc := specByte_specMode_specReg c
        rw [hm] at hc
        exact ⟨he, by simp [encodeSpecifier, hc, hb]⟩
    next =>
      obtain ⟨q, hq, rfl⟩ := except_map_ok h
      exact decodeBase_ok hq

/-- Two specifiers, once decoded, have the bytes they were decoded from (R96). -/
theorem decodeOperands_ok {make : Specifier → Specifier → Instr} {bs rest : List Byte} {i : Instr}
    (h : decodeOperands make bs = .ok (i, rest)) :
    ∃ a b, i = make a b ∧ a.encodable = true ∧ b.encodable = true ∧
      encodeSpecifier a ++ encodeSpecifier b ++ rest = bs := by
  unfold decodeOperands at h
  split at h
  next => cases h
  next a l ha =>
    split at h
    next => cases h
    next b l' hb =>
      obtain ⟨ea, la⟩ := decodeSpecifier_ok ha
      obtain ⟨eb, lb⟩ := decodeSpecifier_ok hb
      cases h
      exact ⟨a, b, rfl, ea, eb, by rw [List.append_assoc, lb, la]⟩

/-! ## What the encoder writes, the decoder reads -/

/-- Two specifiers are read back from their bytes (R96). -/
theorem decodeOperands_append (make : Specifier → Specifier → Instr) {a b : Specifier} (ha : a.encodable = true)
    (hb : b.encodable = true) (rest : List Byte) :
    decodeOperands make (encodeSpecifier a ++ encodeSpecifier b ++ rest) = .ok (make a b, rest) := by
  rw [List.append_assoc]
  simp only [decodeOperands, decodeSpecifier_append ha, decodeSpecifier_append hb]

/-! ## Opcodes -/

/-- Each row of the table, by its opcode (R91, R92). -/
theorem decode_mtpr (bs : List Byte) : decode (0xDA :: bs) = decodeOperands .mtpr bs := rfl

theorem decode_mfpr (bs : List Byte) : decode (0xDB :: bs) = decodeOperands .mfpr bs := rfl

theorem decode_bugw (bs : List Byte) :
    decode (0xFF :: 0xFE :: bs) = .ok (.bugw ((longOfBytes (bs.take 2)).setWidth 16), bs.drop 2) := rfl

theorem decode_bugl (bs : List Byte) :
    decode (0xFF :: 0xFD :: bs) = .ok (.bugl (longOfBytes (bs.take 4)), bs.drop 4) := rfl

/-- Settles O1, by the instruction: its opcode selects its row, and its operands or message are read back from their
bytes. -/
theorem decodeAfterEncode : Obligations.DecodeAfterEncode := by
  intro i rest h
  cases i with
  | rei | ldpctx | svpctx => rfl
  | mtpr a b =>
    obtain ⟨ha, hb⟩ := (Bool.and_eq_true ..).mp h
    exact decodeOperands_append .mtpr ha hb rest
  | mfpr a b =>
    obtain ⟨ha, hb⟩ := (Bool.and_eq_true ..).mp h
    exact decodeOperands_append .mfpr ha hb rest
  | bugw m =>
    have hm := decode_bugw (bytesOfShort m ++ rest)
    have hl : (bytesOfShort m).length = 2 := rfl
    rwa [List.take_left' hl, List.drop_left' hl, longOfBytes_bytesOfShort] at hm
  | bugl m =>
    have hm := decode_bugl (bytesOfLong m ++ rest)
    have hl : (bytesOfLong m).length = 4 := rfl
    rwa [List.take_left' hl, List.drop_left' hl, Machine.longOfBytes_bytesOfLong] at hm

/-- Settles O2, by the branches of the decoder. -/
theorem encodeAfterDecode : Obligations.EncodeAfterDecode := by
  intro bs i rest h
  cases bs with
  | nil => cases h
  | cons op bs =>
    simp only [decode] at h
    split at h
    case h_1 hn | h_2 hn | h_3 hn =>
      cases h
      exact ⟨rfl, fun _ _ => by rw [byte_of_toNat hn]; rfl⟩
    case h_4 hn | h_5 hn =>
      obtain ⟨a, b, rfl, ha, hb, rfl⟩ := decodeOperands_ok h
      exact ⟨(Bool.and_eq_true ..).mpr ⟨ha, hb⟩, fun _ _ => by rw [byte_of_toNat hn]; rfl⟩
    case h_6 =>
      split at h
      next => cases h
      next =>
        split at h
        case h_1 => cases h; exact ⟨rfl, fun hw _ => absurd rfl (hw _)⟩
        case h_2 => cases h; exact ⟨rfl, fun _ hl => absurd rfl (hl _)⟩
        case h_3 => cases h
    case h_7 => cases h

end Sys2Proof

/-!
PROOFS. What a step does with the bytes it fetches (10_state R23, 30_encoding R99, 41_bugcheck R171, 60_exceptions R226,
70_reset_and_hazards R255).
-/

namespace Sys2Proof.Machine

/-- Settles O3, by evaluating the decoder on each word. -/
theorem decodesWordsOfTheSpec : Obligations.DecodesWordsOfTheSpec :=
  ⟨rfl, rfl, rfl, rfl, rfl, rfl, rfl, rfl, rfl⟩

/-! ## The bytes a step runs -/

/-- When nothing stands before it, a step runs the bytes that can be fetched at PC. -/
theorem step_eq_runBytes {s : State} (h : s.undisturbed) :
    step s = runBytes s (fetchBytes s maxLength s.pc).1 (fetchBytes s maxLength s.pc).2 := step_undisturbed h

/-- The bytes that can be fetched begin with the byte at PC. -/
theorem fetched_head {s : State} {b : Byte} (h : fetchByte s s.pc = .ok b) :
    (fetchBytes s maxLength s.pc).1 = b :: (fetchBytes s 12 (s.pc + 1)).1 := fetchBytes_head (by decide) h

/-- The bytes that can be fetched begin with the two bytes at PC. -/
theorem fetched_head_two {s : State} {b c : Byte} (hb : fetchByte s s.pc = .ok b)
    (hc : fetchByte s (s.pc + 1) = .ok c) :
    (fetchBytes s maxLength s.pc).1 = b :: c :: (fetchBytes s 11 (s.pc + 1 + 1)).1 := by
  rw [fetched_head hb, fetchBytes_head (by decide) hc]

/-- A byte that begins what can be fetched is the byte at PC. -/
theorem fetchByte_of_head {s : State} {b : Byte} {n : Nat} {va : Word} (h : (fetchBytes s n va).1.head? = some b) :
    fetchByte s va = .ok b := by
  cases n with
  | zero => cases h
  | succ n =>
    simp only [fetchBytes] at h
    split at h
    · cases h
    next hb => rw [hb, Option.some.inj h]

/-- With no REI owed nothing is turned away (R255). -/
theorem wrongSuccessor_none {s : State} (h : s.afterLdpctx = none) (bs : List Byte) : wrongSuccessor s bs = false := by
  simp [wrongSuccessor, h]

/-- What does not decode, and is not turned away, stops as `undecoded` says. -/
theorem runBytes_undecoded {s : State} {bs : List Byte} {why : Option Stop} {e : DecodeError}
    (hw : wrongSuccessor s bs = false) (hd : decode bs = .error e)
    (ha : s.cfg.allOperandForms = true ∨ e.admitted = true) :
    runBytes s bs why = settle s (undecoded s why e) := by
  simp [runBytes, hw, hd, formRefused_of_admits ha]

/-- Settles O4. -/
theorem stepRunsDecodedInstruction : Obligations.StepRunsDecodedInstruction :=
  fun _ _ _ hu hd hl ha => (step_eq_runBytes hu).trans (runBytes_exec hl hd ha)

/-! ## Opcodes outside the table -/

theorem decode_outOfScope {b : Byte} (h : b ∉ [0x02, 0x06, 0x07, 0xDA, 0xDB, 0xFF]) (bs : List Byte) :
    decode (b :: bs) = .error .outOfScope := by
  simp only [decode]
  split
  case h_7 => rfl
  case h_1 hn | h_2 hn | h_3 hn | h_4 hn | h_5 hn | h_6 hn => exact absurd (by rw [byte_of_toNat hn]; decide) h

theorem decode_outOfScope_second {c : Byte} (h : c ∉ [0xFD, 0xFE]) (bs : List Byte) :
    decode (0xFF :: c :: bs) = .error .outOfScope := by
  show (match c.toNat with
    | 0xFE => _
    | 0xFD => _
    | _ => _) = _
  split
  case h_3 => rfl
  case h_1 hn | h_2 hn => exact absurd (by rw [byte_of_toNat hn]; decide) h

theorem step_outOfScope {s : State} (hu : s.undisturbed) (hl : s.afterLdpctx = none)
    (hd : decode (fetchBytes s maxLength s.pc).1 = .error .outOfScope) : step s = .refused .opcodeOutOfScope := by
  rw [step_eq_runBytes hu, runBytes_undecoded (wrongSuccessor_none hl _) hd (.inr rfl)]
  rfl

/-- Settles O5: the decoder knows no instruction with either opcode. -/
theorem outOfScopeOpcodesAreRefused : Obligations.OutOfScopeOpcodesAreRefused := by
  intro s b hu hl hb
  refine ⟨fun hn => step_outOfScope hu hl ?_, ?_⟩
  · rw [fetched_head hb, decode_outOfScope hn]
  · rintro rfl c hc hn
    refine step_outOfScope hu hl ?_
    rw [fetched_head_two hb hc, decode_outOfScope_second hn]

/-- Settles O6: two bytes decode to a bugcheck, whatever follows, and its meaning is the fault. -/
theorem bugcheckMessageIsNotFetched : Obligations.BugcheckMessageIsNotFetched := by
  intro s c hu hl hb hc hcc
  rw [step_eq_runBytes hu, fetched_head_two hb hc]
  rcases hcc with rfl | rfl
  · exact runBytes_exec (.inl hl) (decode_bugw _) (.inr rfl)
  · exact runBytes_exec (.inl hl) (decode_bugl _) (.inr rfl)

/-! ## The privilege check comes first -/

/-- The privileged instructions raise what the privilege check raises (R132, R141, R147, R153). -/
theorem exec_of_privilegeCheck {s : State} {i : Instr} {e : Exc} (h : privilegeCheck s = .error (.exc e))
    (hi : i = .ldpctx ∨ i = .svpctx ∨ (∃ a b, i = .mtpr a b) ∨ (∃ a b, i = .mfpr a b)) : exec i s = raise s e := by
  rcases hi with rfl | rfl | ⟨a, b, rfl⟩ | ⟨a, b, rfl⟩
  · simp [exec, execLdpctx, ldpctxBody, h]
  · simp [exec, execSvpctx, svpctxBody, h]
  · simp [exec, execMtpr, mtprBody, h]
  · simp [exec, execMfpr, mfprBody, h]

/-- Settles O17: the privilege check is what raises the fault or the trap. -/
theorem privilegedInstructionsNeedKernelMode : Obligations.PrivilegedInstructionsNeedKernelMode := by
  intro s i hi
  refine ⟨fun hv => ?_, fun hv hm => exec_of_privilegeCheck (privilegeCheck_denied hv hm) hi⟩
  rw [exec_of_privilegeCheck (privilegeCheck_virtual hv) hi, raise_vmEmulationTrap]

/-- Operands that do not decode do so for the first or the second of them. -/
theorem decodeOperands_error {make : Specifier → Specifier → Instr} {bs : List Byte} {e : DecodeError}
    (h : decodeOperands make bs = .error e) : (∃ e', e = .operand1 e') ∨ ∃ first e', e = .operand2 first e' := by
  unfold decodeOperands at h
  split at h
  · cases h; exact .inl ⟨_, rfl⟩
  · split at h <;> cases h
    exact .inr ⟨_, _, rfl⟩

/-- An operand that does not decode leaves the privilege check before it (R226). -/
theorem undecoded_of_privilegeCheck {s : State} {why : Option Stop} {e : DecodeError} {x : Stop}
    (h : privilegeCheck s = .error x) (he : (∃ e', e = .operand1 e') ∨ ∃ first e', e = .operand2 first e') :
    undecoded s why e = .error x := by
  rcases he with ⟨e', rfl⟩ | ⟨f, e', rfl⟩ <;> simp [undecoded, h]

/-- An instruction with two operands, not turned away, raises what its privilege check raises, unless the decoder
refuses a form. -/
theorem runBytes_of_privilegeCheck {s : State} {bs ops : List Byte} {why : Option Stop} {e : Exc}
    {make : Specifier → Specifier → Instr} (hw : wrongSuccessor s bs = false)
    (hd : decode bs = decodeOperands make ops) (h : privilegeCheck s = .error (.exc e))
    (hm : ∀ a b, exec (make a b) s = raise s e) :
    runBytes s bs why = raise s e ∨
      (s.cfg.allOperandForms = false ∧ runBytes s bs why = .refused .operandNotAdmitted) := by
  have hf {b : Bool} (h : formRefused s.cfg b = true) : s.cfg.allOperandForms = false := by
    simp only [formRefused, Bool.and_eq_true, Bool.not_eq_true'] at h
    exact h.1
  simp only [runBytes, hw, Bool.false_eq_true, if_false]
  split
  next i rest hi =>
    obtain ⟨a, b, rfl, -⟩ := decodeOperands_ok (hd.symm.trans hi)
    split
    next hr => exact .inr ⟨hf hr, rfl⟩
    next => exact .inl (hm a b)
  next e' he =>
    split
    next hr => exact .inr ⟨hf hr, rfl⟩
    next => exact .inl (by rw [undecoded_of_privilegeCheck h (decodeOperands_error (hd.symm.trans he)), settle_exc])

/-- Settles O7. -/
theorem privilegePrecedesOperandFetch : Obligations.PrivilegePrecedesOperandFetch := by
  intro s b hu hl hb hop hm hv
  have hd := privilegeCheck_denied hv hm
  rw [step_eq_runBytes hu, fetched_head hb]
  rcases hop with rfl | rfl
  · exact runBytes_of_privilegeCheck (wrongSuccessor_none hl _) (decode_mtpr _) hd
      fun a b => exec_of_privilegeCheck hd (.inr (.inr (.inl ⟨a, b, rfl⟩)))
  · exact runBytes_of_privilegeCheck (wrongSuccessor_none hl _) (decode_mfpr _) hd
      fun a b => exec_of_privilegeCheck hd (.inr (.inr (.inr ⟨a, b, rfl⟩)))

/-! ## The REI owed after an LDPCTX -/

/-- Bytes at PC that are not those of the REI owed are turned away (R255). -/
theorem step_wrongSuccessor {s : State} (hu : s.undisturbed)
    (hw : wrongSuccessor s (fetchBytes s maxLength s.pc).1 = true) : step s = .refused .notReiAfterLdpctx := by
  rw [step_eq_runBytes hu]
  exact if_pos hw

/-- Bytes that answer a next state are turned away neither as no REI nor for their forms: an exception is taken, or the
instruction they decode to is run. -/
theorem runBytes_next_decoded {s t : State} {bs : List Byte} {why : Option Stop} (h : runBytes s bs why = .next t) :
    (∃ e, raise s e = .next t) ∨
      ∃ i rest, decode bs = .ok (i, rest) ∧ wrongSuccessor s bs = false ∧ exec i s = .next t := by
  simp only [runBytes] at h
  split at h
  · cases h
  next hw =>
    split at h <;> split at h
    · cases h
    · exact .inr ⟨_, _, ‹_›, by simpa using hw, h⟩
    · cases h
    · rcases settle_next h with h | ⟨e, -, h⟩
      · exact absurd h (undecoded_not_ok _ _ _ _)
      · exact .inl ⟨e, h⟩

/-- An AST that is delivered enters its handler (R224). -/
theorem deliverAst_next {s t : State} (h : deliverAst s = some (.next t)) :
    enterHandler (astTaken s) s.cfg.scbAst (some astLevel) s.pc [] = .ok t := by
  unfold deliverAst at h
  split at h
  · split at h
    · split at h
      · split at h <;> cases h
        assumption
      · cases h
    · cases h
  · cases h

/-- A step answers a next state by delivering an AST, by taking an exception, or by running the instruction whose bytes
are at PC. -/
theorem step_next_decoded {s t : State} (h : step s = .next t) :
    enterHandler (astTaken s) s.cfg.scbAst (some astLevel) s.pc [] = .ok t ∨ (∃ e, raise s e = .next t) ∨
      ∃ i rest, decode (fetchBytes s maxLength s.pc).1 = .ok (i, rest) ∧
        wrongSuccessor s (fetchBytes s maxLength s.pc).1 = false ∧ exec i s = .next t := by
  simp only [step, stepOnce] at h
  split at h
  · cases h
  · split at h
    next ho => exact .inl (deliverAst_next (h ▸ ho))
    next => exact .inr (runBytes_next_decoded h)

/-- What is not turned away while an REI is owed is that REI, at its address (R255). -/
theorem owedRei_of_decoded {s : State} {a : Word} {i : Instr} {rest : List Byte} (hl : s.afterLdpctx = some a)
    (hd : decode (fetchBytes s maxLength s.pc).1 = .ok (i, rest))
    (hw : wrongSuccessor s (fetchBytes s maxLength s.pc).1 = false) :
    s.pc = a ∧ fetchByte s a = .ok 0x02 ∧ i = .rei := by
  simp only [wrongSuccessor, hl, Bool.or_eq_false_iff, decide_eq_false_iff_not, not_not] at hw
  obtain ⟨hpc, hb⟩ := hw
  obtain ⟨b, bs, hbs⟩ : ∃ b bs, (fetchBytes s maxLength s.pc).1 = b :: bs := by
    cases h : (fetchBytes s maxLength s.pc).1 with
    | nil => rw [h] at hd; cases hd
    | cons b bs => exact ⟨b, bs, rfl⟩
  rw [hbs] at hb hd
  obtain rfl : b = 0x02 := by simpa using hb
  refine ⟨hpc, hpc ▸ fetchByte_of_head (by rw [hbs]; rfl), ?_⟩
  cases hd
  rfl

/-- Settles O8: LDPCTX leaves the mark, `wrongSuccessor` turns away all but the owed REI, and nothing else that a step
can do removes the mark. -/
theorem ldpctxMustBeFollowedByRei : Obligations.LdpctxMustBeFollowedByRei := by
  refine ⟨fun s t h => (exec_ldpctx_next h).imp id fun hb => ?_, fun s a hu hl hpc => ?_, fun s b hu hl hb hne => ?_,
    fun s t a hl h => ?_⟩
  · obtain ⟨-, -, s2, s3, -, -, rfl⟩ := ldpctxBody_ok hb
    exact ⟨by simp, finish_pc ..⟩
  · exact step_wrongSuccessor hu (by simp [wrongSuccessor, hl, hpc])
  · exact step_wrongSuccessor hu (by simpa [wrongSuccessor, hl, fetched_head hb] using hne)
  · rcases step_next_decoded h with h | ⟨e, h⟩ | ⟨i, rest, hd, hw, h⟩
    · left
      rw [(enterHandler_frame h).1]
      exact hl
    · left
      rw [raise_frame h]
      exact hl
    · obtain ⟨hpc, hb, rfl⟩ := owedRei_of_decoded hl hd hw
      exact .inr ⟨hpc, hb, h⟩

/-! ## Fetching what the host placed -/

theorem add_one_add_ofNat (a : Word) (j : Nat) : a + 1 + BitVec.ofNat 32 j = a + BitVec.ofNat 32 (j + 1) := by
  rw [BitVec.ofNat_add]
  generalize BitVec.ofNat 32 j = q
  bv_omega

/-- All the bytes asked for, when each can be fetched. -/
theorem fetchBytes_all {s : State} {bs : List Byte} :
    ∀ {va : Word}, (∀ j (h : j < bs.length), fetchByte s (va + BitVec.ofNat 32 j) = .ok bs[j]) →
      fetchBytes s bs.length va = (bs, none) := by
  induction bs with
  | nil => intro va _; rfl
  | cons b bs ih =>
    intro va h
    have hb : fetchByte s va = .ok b := (congrArg (fetchByte s) (BitVec.add_zero va)).symm.trans (h 0 (Nat.succ_pos _))
    have hbs : fetchBytes s bs.length (va + 1) = (bs, none) := ih fun j hj => by
      rw [add_one_add_ofNat]
      exact h (j + 1) (by simpa using hj)
    simp only [List.length_cons, fetchBytes, hb, hbs]

/-- The addresses of bytes placed one after another. -/
def addrsFrom : Word → Nat → List Word
  | _, 0 => []
  | a, n + 1 => a :: addrsFrom (a + 1) n

theorem addrsFrom_length (a : Word) (n : Nat) : (addrsFrom a n).length = n := by
  induction n generalizing a with
  | zero => rfl
  | succ n ih => simp [addrsFrom, ih]

theorem addrsFrom_getElem {n : Nat} : ∀ (a : Word) (j : Nat) (h : j < (addrsFrom a n).length),
    (addrsFrom a n)[j] = a + BitVec.ofNat 32 j := by
  induction n with
  | zero => intro a j h; cases h
  | succ n ih =>
    intro a j h
    cases j with
    | zero => simp [addrsFrom]
    | succ j => simp only [addrsFrom, List.getElem_cons_succ, ih, add_one_add_ofNat]

theorem addrsFrom_nodup (a : Word) {n : Nat} (h : n ≤ 2 ^ 32) : (addrsFrom a n).Nodup := by
  rw [List.nodup_iff_injective_get]
  intro ⟨i, hi⟩ ⟨j, hj⟩ e
  rw [addrsFrom_length] at hi hj
  simp only [List.get_eq_getElem, addrsFrom_getElem, add_right_inj] at e
  have := congrArg BitVec.toNat e
  simp only [BitVec.toNat_ofNat] at this
  exact Fin.ext (by simp only; omega)

/-- Placing bytes writes memory and clears marks, and changes nothing else. -/
theorem placeBytes_eq (s : State) (a : Word) (bs : List Byte) :
    placeBytes s a bs = { s with mem := Memory.writeAll s.mem (addrsFrom a bs.length) bs
                                 written := (placeBytes s a bs).written } := by
  induction bs generalizing s a with
  | nil => rfl
  | cons b bs ih => rw [placeBytes, ih]; rfl

/-- No mark is made by placing bytes, and none of the bytes placed stays marked (R72). -/
theorem mem_placeBytes_written (s : State) (a : Word) (bs : List Byte) (k : Nat) :
    k ∈ (placeBytes s a bs).written ↔ k ∈ s.written ∧ ∀ pa ∈ addrsFrom a bs.length, k ≠ pa.toNat := by
  induction bs generalizing s a with
  | nil => simp [placeBytes, addrsFrom]
  | cons b bs ih =>
    rw [placeBytes, ih]
    simp [addrsFrom, and_assoc]

/-- Without a translation table, with memory everywhere and no PCB loaded, a byte not stored to is fetched as memory
holds it. -/
theorem fetchByte_plain {s : State} (h : s.plainMemory) (hl : s.loadedPcb = none) {va : Word}
    (hw : va.toNat ∉ s.written) : fetchByte s va = .ok (Memory.read s.mem va.toNat) := by
  have hu : unreliable s va = false := by simp [unreliable, hl]
  simp [fetchByte, translate_identity h.1, physExists_of_wide h.2, hw, physByte, hu]

/-- Bytes placed in a state ready to fetch are fetched (log 21). -/
theorem fetchByte_placed (s : State) {bs : List Byte} (hm : Memory.wf s.mem = true) (hl : bs.length ≤ 2 ^ 32)
    (a : Word) (j : Nat) (h : j < bs.length) :
    fetchByte (placeBytes (readyToFetch s) a bs) (a + BitVec.ofNat 32 j) = .ok bs[j] := by
  have hj : j < (addrsFrom a bs.length).length := by rwa [addrsFrom_length]
  have heq := placeBytes_eq (readyToFetch s) a bs
  have hw : (a + BitVec.ofNat 32 j).toNat ∉ (placeBytes (readyToFetch s) a bs).written := by
    rw [mem_placeBytes_written, ← addrsFrom_getElem a j hj]
    exact fun hk => hk.2 _ (List.getElem_mem hj) rfl
  have hread := Memory.map_read_writeAll (addrsFrom_length a bs.length) (addrsFrom_nodup a hl) hm
  have hbyte := List.getElem_of_eq hread (i := j) (by simpa using hj)
  rw [fetchByte_plain (by rw [heq]; exact ⟨rfl, le_refl 32⟩) (by rw [heq]; rfl) hw, heq]
  rw [List.getElem_map, addrsFrom_getElem] at hbyte
  exact congrArg Except.ok hbyte

theorem tableBytes_length {nbits w : Nat} (h : nbits / 8 ≤ maxLength) : (tableBytes nbits w).length = maxLength := by
  have hl : ∀ n w, (bytesOfNat n w).length = n := by
    intro n
    induction n with
    | zero => intro w; rfl
    | succ n ih => intro w; simp [bytesOfNat, ih]
  simp only [tableBytes, List.length_append, hl, List.length_replicate]
  omega

/-- Settles O11: the bytes placed are those fetched, and nothing stands before them. -/
theorem fetchWordRunsTableInstruction : Obligations.FetchWordRunsTableInstruction := by
  intro s nbits w i hn hm hd
  have hlen := tableBytes_length (w := w) hn
  have heq : s.withFetchWord nbits w = _ := placeBytes_eq (readyToFetch s) s.pc (tableBytes nbits w)
  have hpc : (s.withFetchWord nbits w).pc = s.pc := by rw [heq]; rfl
  have hfetch : fetchBytes (s.withFetchWord nbits w) maxLength (s.withFetchWord nbits w).pc =
      (tableBytes nbits w, none) := by
    rw [hpc, ← hlen]
    exact fetchBytes_all fun j hj => fetchByte_placed s hm (by rw [hlen]; decide) s.pc j hj
  obtain ⟨rest, hd⟩ : ∃ rest, decode (tableBytes nbits w) = .ok (i, rest) := by
    unfold decodeTableWord at hd
    split at hd
    next j rest hj => exact ⟨rest, by rw [hj, Option.some.inj hd]⟩
    next => cases hd
  refine stepRunsDecodedInstruction _ i rest ?_ (by rw [hfetch, hd]) ?_ ?_
  all_goals rw [heq]
  · exact ⟨Bool.and_false _, rfl⟩
  · exact .inl rfl
  · exact .inl rfl

end Sys2Proof.Machine

/-!
PROOFS. The record of stores (20_memory R72).
-/

namespace Sys2Proof.Machine

/-! ## What marks its changes -/

/-- Every mark is kept, and every byte of memory that changes is marked (R72). -/
def marksChanges (s t : State) : Prop :=
  (∀ a ∈ s.written, a ∈ t.written) ∧
    ∀ a : Word, Memory.read t.mem a.toNat ≠ Memory.read s.mem a.toNat → a.toNat ∈ t.written

theorem marksChanges_of_eq {s t : State} (hm : t.mem = s.mem) (hw : t.written = s.written) : marksChanges s t :=
  ⟨fun _ ha => hw ▸ ha, fun _ h => absurd (by rw [hm]) h⟩

theorem marksChanges_trans {s t u : State} (h : marksChanges s t) (h' : marksChanges t u) : marksChanges s u := by
  obtain ⟨hk, hc⟩ := h
  obtain ⟨hk', hc'⟩ := h'
  refine ⟨fun a ha => hk' a (hk a ha), fun a ha => ?_⟩
  by_cases hu : Memory.read u.mem a.toNat = Memory.read t.mem a.toNat
  · exact hk' _ (hc a (hu ▸ ha))
  · exact hc' a hu

/-- A store marks the bytes it writes (R72). -/
theorem mem_written_setPhysBytes (s : State) {pas : List Word} (bs : List Byte) {pa : Word} (h : pa ∈ pas) :
    pa.toNat ∈ (setPhysBytes s pas bs).written := by
  rw [setPhysBytes_written, mem_insertAddrs]
  exact .inl ⟨pa, h, rfl⟩

theorem marksChanges_setPhysBytes (s : State) (pas : List Word) (bs : List Byte) :
    marksChanges s (setPhysBytes s pas bs) := by
  refine ⟨fun a ha => ?_, fun a ha => ?_⟩
  · rw [setPhysBytes_written, mem_insertAddrs]
    exact .inr ha
  · exact mem_written_setPhysBytes s bs (not_not.1 fun hn => ha (sameMemoryOutside_setPhysBytes s pas bs a hn))

/-- A state with the memory and the marks of another marks what that one marks. -/
theorem marksChanges_congr {s t u : State} (h : marksChanges s t) (hm : u.mem = t.mem) (hw : u.written = t.written) :
    marksChanges s u := marksChanges_trans h (marksChanges_of_eq hm hw)

theorem marksChanges_push {s t : State} {v : Word} (h : push s v = .ok t) : marksChanges s t := by
  obtain ⟨pas, -, rfl⟩ := push_ok h
  exact marksChanges_congr (marksChanges_setPhysBytes s pas _) rfl rfl

theorem marksChanges_pushAll {s t : State} {vs : List Word} (h : pushAll s vs = .ok t) : marksChanges s t := by
  refine ⟨fun a ha => (pushAll_written h a).2 (.inr ha), fun a ha => (pushAll_written h _).2 (.inl ⟨a, ?_, rfl⟩)⟩
  exact not_not.1 fun hn => ha (pushAll_mem h a hn)

theorem marksChanges_enterHandler {s t : State} {off : Word} {level : Option (BitVec 5)} {pc : Word}
    {params : List Word} (h : enterHandler s off level pc params = .ok t) : marksChanges s t := by
  obtain ⟨u, hu, rfl⟩ := enterHandler_ok h
  have hp := marksChanges_pushAll hu
  exact hp

theorem marksChanges_raise {s t : State} {e : Exc} (h : raise s e = .next t) : marksChanges s t := by
  obtain ⟨-, off, -, h⟩ := raise_next h
  exact marksChanges_enterHandler h

theorem marksChanges_ldpctxBody {s t : State} (h : ldpctxBody s = .ok t) : marksChanges s t := by
  obtain ⟨-, -, s2, s3, h2, h3, rfl⟩ := ldpctxBody_ok h
  have hload : marksChanges s (toKernelStack (ldpctxLoad s)) := marksChanges_of_eq (by simp) (by simp)
  exact marksChanges_congr (marksChanges_trans hload (marksChanges_trans (marksChanges_push h2) (marksChanges_push h3)))
    rfl rfl

theorem marksChanges_svpctxSave (s : State) (a b : Word) : marksChanges s (svpctxSave s a b) := by
  have hleave : marksChanges s (svpctxLeave s a b) :=
    marksChanges_congr (marksChanges_setPhysBytes s _ _) (svpctxLeave_mem s a b) (svpctxLeave_written s a b)
  exact marksChanges_trans hleave
    (marksChanges_congr (marksChanges_setPhysBytes _ _ _) (svpctxSave_mem s a b) (svpctxSave_written s a b))

theorem marksChanges_mfprBody {procreg dst : Specifier} {s t : State} (h : mfprBody procreg dst s = .ok t) :
    marksChanges s t := by
  rcases (mfprBody_frame h).2 with ⟨hm, hw⟩ | ⟨pas, v, hm, hw⟩
  · exact marksChanges_of_eq hm hw
  · exact marksChanges_congr (marksChanges_setPhysBytes s pas (bytesOfLong v)) hm hw

theorem marksChanges_mtprBody {src procreg : Specifier} {s t : State} (h : mtprBody src procreg s = .ok t) :
    marksChanges s t := by
  obtain ⟨v, s1, n, s2, r, -, -, -, -, -, -, -, -, -, -, -, hm, hw, -⟩ := mtprBody_frame h
  exact marksChanges_of_eq hm hw

/-- REI that completes removes every mark (R72). -/
theorem reiBody_written {s t : State} (h : reiBody s = .ok t) : t.written = [] := by
  obtain ⟨newPc, long, -, -, -, rfl⟩ := reiBody_ok h
  rfl

/-- An instruction marks its changes, unless it is an REI that completes. -/
theorem exec_marksChanges {i : Instr} {s t : State} (h : exec i s = .next t) :
    marksChanges s t ∨ (i = .rei ∧ t.written = []) := by
  rcases exec_next h with ⟨e, h⟩ | ⟨hi, ⟨e, h⟩ | h⟩ | ⟨-, h⟩ | ⟨-, h⟩ | ⟨a, b, -, h⟩ | ⟨a, b, -, h⟩
  · exact .inl (marksChanges_raise h)
  · exact .inl (marksChanges_raise (s := reiBegun s) h)
  · exact .inr ⟨hi, reiBody_written h⟩
  · exact .inl (marksChanges_ldpctxBody h)
  · obtain ⟨-, a, b, -, -, rfl⟩ := svpctxBody_ok h
    exact .inl (marksChanges_svpctxSave s a b)
  · exact .inl (marksChanges_mtprBody h)
  · exact .inl (marksChanges_mfprBody h)

theorem step_marksChanges {s t : State} (h : step s = .next t) :
    marksChanges s t ∨ (fetchByte s s.pc = .ok 0x02 ∧ exec .rei s = .next t ∧ t.written = []) := by
  rcases step_next_decoded h with h | ⟨e, h⟩ | ⟨i, rest, hd, -, h⟩
  · exact .inl (marksChanges_enterHandler (s := astTaken s) h)
  · exact .inl (marksChanges_raise h)
  · refine (exec_marksChanges h).imp id fun ⟨hi, hw⟩ => ?_
    subst hi
    exact ⟨fetchByte_of_head (decode_rei_head hd), h, hw⟩

/-- SVPCTX marks the bytes of the PCB it writes (R72, R142). -/
theorem svpctxSave_marksTargets (s : State) (a b : Word) :
    ∀ pa ∈ svpctxTargets s, pa.toNat ∈ (svpctxSave s a b).written := by
  intro pa hpa
  obtain ⟨off, hoff, hin⟩ := List.mem_flatMap.1 hpa
  have hmem {l : List (Word × Word)} (hl : off ∈ l.map Prod.fst) :
      pa ∈ l.flatMap fun p => longAddrs (s.pcbb + p.1) := by
    obtain ⟨p, hp, rfl⟩ := List.mem_map.1 hl
    exact List.mem_flatMap.2 ⟨p, hp, hin⟩
  have hsplit : off ∈ (svpctxSlots (svpctxLeave s a b)).map Prod.fst ∨ off ∈ (svpctxStores s a b).map Prod.fst := by
    rw [svpctxSlots_offsets, svpctxStores_offsets, svpctxLeave_cfg, ← List.mem_append]
    simpa [pcbSavedOffsets] using hoff
  rw [svpctxSave_written]
  rcases hsplit with h | h
  · exact mem_written_setPhysBytes _ _ (by rw [svpctxLeave_pcbb]; exact hmem h)
  · refine (marksChanges_setPhysBytes _ _ _).1 _ ?_
    rw [svpctxLeave_written]
    exact mem_written_setPhysBytes _ _ (hmem h)

/-! ## The instruction whose next byte is marked -/

/-- An instruction cut short within its first operand is wanting a byte of it (R96, R216). -/
theorem decodeOperands_take_first (make : Specifier → Specifier → Instr) {a : Specifier} (ha : a.encodable = true)
    (l : List Byte) {k : Nat} (hk : k < specLength a) :
    decodeOperands make ((encodeSpecifier a ++ l).take k) = .error (.operand1 .truncated) := by
  have hk' : k ≤ (encodeSpecifier a).length := Nat.le_of_lt hk
  simp only [decodeOperands, List.take_append_of_le_length hk', decodeSpecifier_take ha hk]

/-- An instruction cut short within its second operand is wanting a byte of that (R96, R216). -/
theorem decodeOperands_take_second (make : Specifier → Specifier → Instr) {a b : Specifier} (ha : a.encodable = true)
    (hb : b.encodable = true) {k : Nat} (hk : k < specLength b) :
    decodeOperands make ((encodeSpecifier a ++ encodeSpecifier b).take (specLength a + k)) =
      .error (.operand2 a .truncated) := by
  simp only [specLength, List.take_length_add_append, decodeOperands, decodeSpecifier_append ha,
    decodeSpecifier_take hb hk]

/-- The bytes of an instruction that may come next are not turned away before all that a step fetches are there. -/
theorem wrongSuccessor_take {s : State} {i : Instr} {k : Nat} (hl : s.maySucceed i) (hk : k < fetchedLength i) :
    wrongSuccessor s ((encode i).take k) = false := by
  rcases hl with hl | ⟨hl, rfl⟩
  · exact wrongSuccessor_none hl _
  · obtain rfl : k = 0 := Nat.lt_one_iff.1 hk
    simp [wrongSuccessor, hl]

/-- An instruction cut short stops with why its next byte is missing, if that byte is wanted. -/
theorem runBytes_cut {s : State} {bs : List Byte} {e : DecodeError} {x : Stop} (hw : wrongSuccessor s bs = false)
    (hd : decode bs = .error e) (ha : s.cfg.allOperandForms = true ∨ e.admitted = true)
    (hu : undecoded s (some x) e = .error x) : runBytes s bs (some x) = settle s (.error x) := by
  rw [runBytes_undecoded hw hd ha, hu]

/-- An instruction with two operands, whose byte `k` is missing and wanted, stops with why it is missing. -/
theorem runBytes_operands_cut {s : State} {make : Specifier → Specifier → Instr} {op : Byte} {a b : Specifier} {k : Nat}
    {x : Stop} (hop : ∀ bs, decode (op :: bs) = decodeOperands make bs) (ha : a.encodable = true)
    (hb : b.encodable = true) (hk : k < specLength a + specLength b)
    (hw : wrongSuccessor s (op :: (encodeSpecifier a ++ encodeSpecifier b).take k) = false) (hp : s.privileged)
    (hf : specLength a ≤ k →
      (s.cfg.allOperandForms = true ∨ a.admitted = true) ∧ ∃ r, readOperand s a (pcAfter1 s a) 0 = .ok r) :
    runBytes s (op :: (encodeSpecifier a ++ encodeSpecifier b).take k) (some x) = settle s (.error x) := by
  have hc := privilegeCheck_kernel hp.2 hp.1
  by_cases hka : k < specLength a
  · refine runBytes_cut hw ((hop _).trans (decodeOperands_take_first make ha _ hka)) (.inr rfl) ?_
    rw [undecoded, hc]
    rfl
  · obtain ⟨j, rfl⟩ : ∃ j, k = specLength a + j := ⟨k - specLength a, by omega⟩
    obtain ⟨hadm, r, hr⟩ := hf (by omega)
    refine runBytes_cut hw ((hop _).trans (decodeOperands_take_second make ha hb (by omega)))
      (hadm.imp id fun h => by simp [DecodeError.admitted, SpecError.admitted, h]) ?_
    rw [undecoded, hc, res_ok_bind, hr]
    rfl

/-- An instruction whose byte `k` is missing and wanted stops with why it is missing (R216, R226). -/
theorem runBytes_encode_cut {s : State} {i : Instr} {k : Nat} (x : Stop) (hl : s.maySucceed i)
    (he : i.encodable = true) (hk : k < fetchedLength i) (hwant : wantsByte s i k) :
    runBytes s ((encode i).take k) (some x) = settle s (.error x) := by
  have hw := wrongSuccessor_take hl hk
  have opcode (hd : decode ((encode i).take k) = .error .truncatedOpcode) :
      runBytes s ((encode i).take k) (some x) = settle s (.error x) := runBytes_cut hw hd (.inr rfl) rfl
  cases i with
  | rei | ldpctx | svpctx =>
    obtain rfl : k = 0 := Nat.lt_one_iff.1 hk
    exact opcode rfl
  | bugw m | bugl m =>
    obtain rfl | rfl : k = 0 ∨ k = 1 := by simp only [fetchedLength] at hk; omega
    · exact opcode rfl
    · exact opcode rfl
  | mtpr a b | mfpr a b =>
    obtain ⟨ha, hb⟩ := (Bool.and_eq_true ..).mp he
    cases k with
    | zero => exact opcode rfl
    | succ k =>
      obtain ⟨hp, hf⟩ := hwant.resolve_left (Nat.succ_ne_zero k)
      simp only [fetchedLength, instrLength, encode, List.length_cons, List.length_append] at hk
      exact runBytes_operands_cut (fun _ => rfl) ha hb (by simp only [specLength]; omega) hw hp
        fun h => hf (by omega)

/-- The bytes a step fetches of an instruction are among its own, and within the longest instruction (R98). -/
theorem fetchedLength_le (i : Instr) : fetchedLength i ≤ instrLength i ∧ instrLength i ≤ maxLength := by
  cases i with
  | rei => exact ⟨le_refl _, Laws.LengthBound.rei.2⟩
  | ldpctx => exact ⟨le_refl _, Laws.LengthBound.ldpctx.2⟩
  | svpctx => exact ⟨le_refl _, Laws.LengthBound.svpctx.2⟩
  | mtpr a b => exact ⟨le_refl _, (Laws.LengthBound.mtpr a b).2⟩
  | mfpr a b => exact ⟨le_refl _, (Laws.LengthBound.mfpr a b).2⟩
  | bugw m => exact ⟨Nat.le_add_left _ _, (Laws.LengthBound.bugw m).2⟩
  | bugl m => exact ⟨Nat.le_add_left _ _, (Laws.LengthBound.bugl m).2⟩

/-- Settles O9: stores mark what they change, an instruction is made of stores, and the fetch of a marked byte stops
the instruction that wants it. -/
theorem modifiedInstructionStreamNeedsRei : Obligations.ModifiedInstructionStreamNeedsRei := by
  refine ⟨fun s pas bs pa => mem_written_setPhysBytes s bs, fun s t va v h => ?_,
    fun s t h => (exec_svpctx_next h).imp id fun hb => ?_, fun s t => step_marksChanges,
    fun s t h => (exec_rei_next h).imp id reiBody_written, fun s va pa htr hp hw => ?_, ?_⟩
  · obtain ⟨pas, hpas, rfl⟩ := memWrite_ok h
    exact ⟨pas, hpas, fun pa => mem_written_setPhysBytes s _⟩
  · obtain ⟨-, a, b, -, -, rfl⟩ := svpctxBody_ok hb
    exact svpctxSave_marksTargets s a b
  · simp [fetchByte, htr, hp, hw]
  · intro s i k hu hl he hk hj hwant hstale
    obtain ⟨hlen, hmax⟩ := fetchedLength_le i
    have hki : k < instrLength i := hk.trans_le hlen
    rw [step_eq_runBytes hu, fetchBytes_prefix (hki.trans_le hmax) (Nat.le_of_lt hki) hj hstale]
    exact runBytes_encode_cut _ hl he hk hwant

end Sys2Proof.Machine

/-!
PROOFS. Taking an exception or an AST (60_exceptions R211 to R224), bugchecks (41_bugcheck R170 to R173) and REI
(40_privileged R120 to R130).
-/

namespace Sys2Proof.Machine

/-! ## Exceptions -/

/-- Settles O12. -/
theorem terminalExceptions : Obligations.TerminalExceptions :=
  ⟨fun s e h => by simp [raise, h], raise_vmEmulationTrap⟩

/-- With handlers entered, plain memory and a vector that can be followed, an exception enters its handler (R221). -/
theorem raise_entered {s : State} {e : Exc} {off : Word} (h : s.cfg.handlerEntry = true)
    (ho : scbOffset s.cfg e = some off) (hp : s.plainMemory) (hm : Memory.wf s.mem = true) (hv : vectorUsable s off) :
    ∃ t, raise s e = .next t ∧ handlerEntered s t off none (savedPc s e) (excParams s e) := by
  have hlen : (excParams s e).length < 100 := by cases e <;> simp [excParams]
  obtain ⟨t, ht, he⟩ := enterHandler_entered (level := none) (pc := savedPc s e) hp hm hv hlen
  exact ⟨t, by rw [raise_enter h ho, ht], he⟩

/-- With two parameters they are at SP + 4 and SP, and the PSL is at SP + 12 (R211, R221). -/
theorem handlerEntered_two {s t : State} {off pc a b : Word} {level : Option (BitVec 5)}
    (h : handlerEntered s t off level pc [a, b]) :
    storedLong t.mem (t.sp + 4) = a ∧ storedLong t.mem t.sp = b ∧
      storedLong t.mem (t.sp + 12) = pslToLong s.cfg s.psl := by
  obtain ⟨-, -, -, -, hpsl, hparams, -⟩ := h
  have h0 := hparams 0 Nat.zero_lt_two
  have h1 := hparams 1 Nat.one_lt_two
  rw [BitVec.add_assoc] at hpsl
  exact ⟨h0, by simpa using h1, hpsl⟩

/-- With no parameter the PSL is at SP + 4 (R221). -/
theorem handlerEntered_none {s t : State} {off pc : Word} {level : Option (BitVec 5)}
    (h : handlerEntered s t off level pc []) : storedLong t.mem (t.sp + 4) = pslToLong s.cfg s.psl := by
  obtain ⟨-, -, -, -, hpsl, -, -⟩ := h
  rwa [BitVec.add_assoc] at hpsl

/-- Settles O13: the handler is entered with the frame, and the layout of the pushed PSL loses nothing. -/
theorem exceptionEntersItsHandler : Obligations.ExceptionEntersItsHandler := by
  intro s e off h ho hp hm hv
  obtain ⟨t, ht, he⟩ := raise_entered h ho hp hm hv
  refine ⟨t, ht, he, ?_, fun hn => ?_⟩
  · rintro va (rfl | rfl)
    all_goals
      obtain ⟨h1, h2, h3⟩ := handlerEntered_two he
      exact ⟨h1, h2, by rw [h3, pslOfLong_pslToLong]⟩
  · have hparams : excParams s e = [] := by
      cases e
      case accessViolation va => exact absurd rfl (hn va).1
      case translationNotValid va => exact absurd rfl (hn va).2
      all_goals rfl
    rw [hparams] at he
    rw [handlerEntered_none he, pslOfLong_pslToLong]

/-- The previous mode that a handler's PSL records (R221). -/
theorem pslPrvMod_handlerPsl (old : Word) (onIs : Bool) (level : Option (BitVec 5)) :
    pslPrvMod (handlerPsl old onIs level) = if level = none then pslCurMod old else 0 := by
  have hprv : ∀ m : BitVec 2, pslPrvMod (m.setWidth 32 <<< 22) = m := by decide
  cases level with
  | none => simp [handlerPsl, hprv]
  | some l => exact (pslPrvMod_pslWithIpl ..).trans ((pslPrvMod_pslWithIs ..).trans (hprv 0))

/-- The IPL of a handler's PSL (R221). -/
theorem pslIpl_handlerPsl (old : Word) (onIs : Bool) (level : Option (BitVec 5)) :
    pslIpl (handlerPsl old onIs level) = level.getD (if onIs then 31 else pslIpl old) := by
  cases level <;> simp [handlerPsl]

/-- Settles O14. -/
theorem handlerPslFields : Obligations.HandlerPslFields := by
  intro old onIs level
  obtain ⟨hmode, hIs⟩ := handlerPsl_fields old onIs level
  exact ⟨hmode, hIs, pslPrvMod_handlerPsl .., pslIpl_handlerPsl .., handlerPsl_zeros ..⟩

/-- Settles O15. -/
theorem exceptionEntryFrame : Obligations.ExceptionEntryFrame := by
  intro s t e off ho h
  obtain ⟨-, off', ho', h⟩ := raise_next h
  obtain rfl := Option.some.inj (ho'.symm.trans ho)
  exact enterHandler_keeps h

/-! ## Asynchronous system traps -/

/-- A requested AST ends the run when handlers are not entered (R224). -/
theorem deliverAst_terminal {s : State} (ha : s.astRequest = true) (h : s.cfg.handlerEntry = false) :
    deliverAst s = some (.fault (.interruptAst s.pc)) := by
  simp [deliverAst, ha, h]

/-- A requested AST is taken when handlers are entered and IPL is below its level (R224). -/
theorem deliverAst_taken {s t : State} (ha : s.astRequest = true) (h : s.cfg.handlerEntry = true)
    (hi : (pslIpl s.psl).toNat < 2)
    (he : enterHandler (astTaken s) s.cfg.scbAst (some astLevel) s.pc [] = .ok t) :
    deliverAst s = some (.next t) := by
  have hi' : (pslIpl s.psl).toNat < astLevel.toNat := hi
  simp [deliverAst, ha, h, hi', he]

/-- With the vector processor idle, what is delivered is the step (R201, R224). -/
theorem step_of_deliverAst {s : State} {o : Host.Outcome State Fault Refusal}
    (hb : (s.cfg.hasVector && s.vpsr.bsy) = false) (h : deliverAst s = some o) : step s = o := by
  have hb' : ¬ (s.cfg.hasVector = true ∧ s.vpsr.bsy = true) := by simpa using hb
  simp only [step, stepOnce, if_neg hb', h]

/-- Settles O16, by whether handlers are entered and by IPL. -/
theorem astDelivery : Obligations.AstDelivery := by
  intro s hb ha
  refine ⟨fun h => step_of_deliverAst hb (deliverAst_terminal ha h), fun h hi => ?_, fun h hi hp hm hv => ?_,
    fun h hi t ht => ?_⟩
  · have hi' : ¬ (pslIpl s.psl).toNat < astLevel.toNat := Nat.not_lt.2 hi
    exact step_undisturbed ⟨hb, by simp [h, hi']⟩
  · obtain ⟨t, ht, he⟩ := enterHandler_entered (s := astTaken s) (level := some astLevel) (pc := s.pc) (params := [])
      hp hm hv (by decide)
    exact ⟨t, step_of_deliverAst hb (deliverAst_taken ha h hi ht), (enterHandler_keeps ht).2, he⟩
  · cases hd : enterHandler (astTaken s) s.cfg.scbAst (some astLevel) s.pc [] with
    | ok u =>
      have htu : Host.Outcome.next u = .next t :=
        (step_of_deliverAst hb (deliverAst_taken ha h hi hd)).symm.trans ht
      cases htu
      obtain ⟨hk, hr⟩ := enterHandler_keeps hd
      exact ⟨hr, entryKeeps_astTaken hk⟩
    | error f =>
      have hi' : (pslIpl s.psl).toNat < astLevel.toNat := hi
      have hs : step s = .fault f := step_of_deliverAst hb (by simp [deliverAst, ha, h, hi', hd])
      cases hs.symm.trans ht

/-! ## Bugchecks -/

/-- Settles O19. -/
theorem bugcheckRaisesReservedInstructionFault : Obligations.BugcheckRaisesReservedInstructionFault :=
  fun _ => ⟨fun _ => rfl, fun _ => rfl⟩

/-- Settles O18. -/
theorem bugcheckEntersItsHandler : Obligations.BugcheckEntersItsHandler := by
  intro s h hp hm hv
  have he := raise_entered (e := .reservedInstruction .reservedOpcode) h rfl hp hm hv
  exact ⟨fun _ => he, fun _ => he⟩

/-! ## The state REI leaves -/

/-- SP past the two longwords is in the cell of the stack that REI leaves, and no other cell is written (R126). -/
theorem reiResume_stackCell (s : State) (pc p q : Word) :
    stackCell (reiResume s pc p) q = if sameStack s.psl q then s.sp + 8 else stackCell s q :=
  stackCell_switchStack s (s.sp + 8) (reiPsl s.psl p) q

theorem sameStack_reiPsl (a cur p : Word) : sameStack a (reiPsl cur p) = sameStack a p := by
  obtain ⟨hm, hi, -, -⟩ := reiPsl_fields cur p
  exact sameStack_congr hm hi

/-- SP is that of the popped PSL's stack (R126). -/
theorem reiResume_sp (s : State) (pc p : Word) :
    (reiResume s pc p).sp = if sameStack s.psl p then s.sp + 8 else stackCell s p := by
  obtain ⟨hm, hi, -, -⟩ := reiPsl_fields s.psl p
  rw [reiResume, finish_sp, iStreamSync_sp, ← sameStack_reiPsl s.psl s.psl p, ← stackCell_congr s hm hi]
  exact switchStack_sp ..

@[simp] theorem reiResume_psl (s : State) (pc p : Word) : (reiResume s pc p).psl = reiPsl s.psl p := rfl

/-- The AST check is made under the popped PSL (R127). -/
theorem reiResume_astRequest (s : State) (pc p : Word) :
    (reiResume s pc p).astRequest =
      (s.astRequest || (!pslIs p && decide (s.astlvl.toNat ≤ (pslCurMod p).toNat))) := by
  obtain ⟨hm, hi, -, -⟩ := reiPsl_fields s.psl p
  rw [← hm, ← hi]
  rfl

/-- REI changes SP, PC, the PSL, the stack pointers' cells, the AST request and the record of stores alone. -/
theorem reiResume_frame (s : State) (pc p : Word) :
    (reiResume s pc p).cfg = s.cfg ∧ (∀ q, q ≠ regSP → q ≠ regPC → getReg (reiResume s pc p) q = getReg s q) ∧
      sameProcessorRegisters s (reiResume s pc p) ∧ sameVectorState s (reiResume s pc p) ∧
      (reiResume s pc p).inSwitchWindow = s.inSwitchWindow ∧ (reiResume s pc p).loadedPcb = s.loadedPcb ∧
      (reiResume s pc p).tbEvents = s.tbEvents ∧ (reiResume s pc p).mem = s.mem := by
  refine ⟨rfl, fun q hsp hpc => ?_, ⟨rfl, rfl, rfl, rfl, rfl, rfl, rfl, rfl, rfl⟩, ⟨rfl, rfl, rfl, rfl, rfl, rfl, rfl⟩,
    rfl, rfl, rfl, rfl⟩
  rw [reiResume, getReg_finish, if_neg hpc]
  exact getReg_switchStack_ne _ _ _ hsp

/-! ## The outcome of REI -/

/-- REI, once its two longwords are read, is what the checks say (R120). -/
theorem exec_rei_eq {s : State} {newPc long : Word} (h1 : memRead s s.sp = .ok newPc)
    (h2 : memRead s (s.sp + 4) = .ok long) :
    exec .rei s = settle (reiBegun s) (reiCheck (reiBegun s) (pslOfLong s.cfg long) >>= fun _ =>
      .ok (reiResume (reiBegun s) newPc (pslOfLong s.cfg long))) := by
  show settle (reiBegun s) (reiBody (reiBegun s)) = _
  rw [reiBody, reiBegun_memRead, reiBegun_memRead, reiBegun_sp, h1, res_ok_bind, h2, res_ok_bind]
  rfl

/-- On a real machine an allowed PSL passes the checks (R123, R125). -/
theorem reiCheck_of {s : State} {p : Word} (hv : s.inVM = false) (ha : reiAllowed s.cfg s.psl p = true)
    (hm : ¬(s.mode ≠ 0 ∧ pslVm s.cfg p = true)) : reiCheck s p = .ok () := by
  rw [reiCheck, if_neg (by simp [hv]), if_neg (by simp [ha]), if_neg hm]

/-- On a real machine a PSL that is not allowed is a reserved operand (R123, R125). -/
theorem reiCheck_forbidden {s : State} {p : Word} (hv : s.inVM = false)
    (h : reiAllowed s.cfg s.psl p = false ∨ (s.mode ≠ 0 ∧ pslVm s.cfg p = true)) :
    reiCheck s p = .error (.exc .reservedOperandFault) := by
  rw [reiCheck, if_neg (by simp [hv])]
  by_cases ha : reiAllowed s.cfg s.psl p = true
  · rw [if_neg (by simp [ha]), if_pos (h.resolve_left (by simp [ha]))]
  · rw [if_pos (by simpa using ha)]

/-- In VM mode the popped PSL is compared with VMPSL (R124). -/
theorem reiCheck_inVM {s : State} {p : Word} (hv : s.inVM = true) :
    reiCheck s p =
      .error (.exc (if vmReiAllowed s.cfg s.vmpsl p then .vmEmulationTrap else .reservedOperandFault)) := by
  rw [reiCheck, if_pos hv]
  split <;> rfl

/-- Settles O20: an REI that passes the checks leaves `reiResume`, whose parts are as said. -/
theorem reiResumesInterruptedCode : Obligations.ReiResumesInterruptedCode := by
  rintro s newPc long _ h1 h2 rfl hv ha hm
  have hexec : exec .rei s = .next (reiResume (reiBegun s) newPc (pslOfLong s.cfg long)) := by
    rw [exec_rei_eq h1 h2, reiCheck_of (s := reiBegun s) hv ha hm]
    rfl
  obtain ⟨-, -, hcc, -⟩ := reiPsl_fields s.psl (pslOfLong s.cfg long)
  refine ⟨_, hexec, finish_pc .., rfl, hcc.trans (pslCc_pslOfLong ..), reiResume_sp .., ?_, fun p hp => ?_,
    reiResume_astRequest .., rfl, rfl⟩
  · rw [reiResume_stackCell]
    exact if_pos (sameStack_refl _)
  · rw [reiResume_stackCell]
    exact if_neg (by simpa using hp)

/-- Settles O21. -/
theorem reiRejectsForbiddenPsl : Obligations.ReiRejectsForbiddenPsl := by
  rintro s newPc long _ h1 h2 rfl hv h
  rw [exec_rei_eq h1 h2, reiCheck_forbidden (s := reiBegun s) hv h]
  rfl

/-- Settles O22. -/
theorem reiInVmModeNeverCompletes : Obligations.ReiInVmModeNeverCompletes := by
  rintro s newPc long _ h1 h2 rfl hv
  rw [exec_rei_eq h1 h2, reiCheck_inVM (s := reiBegun s) hv, res_error_bind, settle_exc, reiBegun_cfg, reiBegun_vmpsl]
  split
  · exact raise_vmEmulationTrap _
  · rfl

/-- Settles O23: both instructions make their pops before anything else that could stop them. -/
theorem popFaultRestoresState : Obligations.PopFaultRestoresState := by
  intro s e h
  refine ⟨?_, fun hp ha => ?_⟩
  · show settle (reiBegun s) (reiBody (reiBegun s)) = _
    rw [reiBody, reiBegun_memRead, reiBegun_memRead, reiBegun_sp]
    rcases h with h | ⟨newPc, h1, h2⟩
    · rw [h]; rfl
    · rw [h1, res_ok_bind, h2]; rfl
  · have hal : requirePcbbAligned s = .ok () := if_pos ha
    show settle s (svpctxBody s) = _
    rw [svpctxBody, privilegeCheck_kernel hp.2 hp.1, res_ok_bind, hal, res_ok_bind]
    rcases h with h | ⟨newPc, h1, h2⟩
    · rw [h]; rfl
    · rw [h1, res_ok_bind, h2]; rfl

/-! ## What REI gains and keeps -/

/-- An REI that completes has passed the checks and leaves `reiResume`. -/
theorem exec_rei_completes {s t : State} (h : exec .rei s = .next t) :
    tookException (reiBegun s) t ∨
      ∃ newPc newPsl, reiAllowed s.cfg s.psl newPsl = true ∧ t = reiResume (reiBegun s) newPc newPsl := by
  refine (exec_rei_next h).imp id fun hb => ?_
  obtain ⟨newPc, long, -, -, hc, rfl⟩ := reiBody_ok hb
  exact ⟨newPc, _, (reiCheck_ok hc).2.1, rfl⟩

/-- The default of `ReiAllowed` (R123). -/
theorem reiAllowed_default {cfg : Params} (h : cfg.reiTable = []) (cur new : Word) :
    reiAllowed cfg cur new = (pslTransition cur new && pslConsistent cfg new) := by
  simp [reiAllowed, h]

/-- Conditions 1, 2 and 7 of R123. -/
theorem pslTransition_iff (cur new : Word) :
    pslTransition cur new = true ↔ (pslCurMod cur).toNat ≤ (pslCurMod new).toNat ∧
      (pslIs new = true → pslIs cur = true) ∧ (pslIpl new).toNat ≤ (pslIpl cur).toNat := by
  cases hn : pslIs new <;> cases hc : pslIs cur <;> simp [pslTransition, hn, hc]

/-- With the default check an REI that completes moves to no more privileged mode, to no higher IPL and to no interrupt
stack (R123). -/
theorem reiResume_noGain {s : State} (h : s.cfg.reiTable = []) {pc p : Word} (ha : reiAllowed s.cfg s.psl p = true) :
    s.mode.toNat ≤ (reiResume s pc p).mode.toNat ∧ (pslIpl (reiResume s pc p).psl).toNat ≤ (pslIpl s.psl).toNat ∧
      (pslIs (reiResume s pc p).psl = true → pslIs s.psl = true) := by
  rw [reiAllowed_default h, Bool.and_eq_true, pslTransition_iff] at ha
  obtain ⟨⟨hmode, his, hipl⟩, -⟩ := ha
  obtain ⟨fmode, fis, -, fipl⟩ := reiPsl_fields s.psl p
  rw [State.mode, State.mode, reiResume_psl, fmode, fis, fipl]
  exact ⟨hmode, hipl, his⟩

/-- Settles O24. -/
theorem reiNeverGainsPrivilege : Obligations.ReiNeverGainsPrivilege := by
  intro s t hr h
  refine (exec_rei_completes h).imp id ?_
  rintro ⟨newPc, newPsl, ha, rfl⟩
  exact reiResume_noGain (s := reiBegun s) hr ha

/-- Settles O25. -/
theorem reiFrame : Obligations.ReiFrame := by
  intro s t h
  refine (exec_rei_completes h).imp id ?_
  rintro ⟨newPc, newPsl, -, rfl⟩
  obtain ⟨hcfg, hregs, hiprs, hvec, hwin, hpcb, htb, hmem⟩ := reiResume_frame (reiBegun s) newPc newPsl
  exact ⟨hcfg, hregs, hiprs, hvec, hwin, hpcb, htb, fun a => by rw [hmem]; rfl⟩

end Sys2Proof.Machine

/-!
PROOFS. What every step keeps: the configuration and the vector registers (42_vector R201, R204), the invariant
(10_state R26, R33; 40_privileged R123, R135), and privileged state outside kernel mode (60_exceptions R229, R230).
-/

namespace Sys2Proof.Machine

/-! ## Configuration and vector registers -/

/-- The configuration, the vector registers, VLR, VMR, VCR and whether the vector processor is busy. -/
def sameVectorFile (s t : State) : Prop :=
  t.cfg = s.cfg ∧ t.v = s.v ∧ t.vlr = s.vlr ∧ t.vmr = s.vmr ∧ t.vcr = s.vcr ∧ t.vpsr.bsy = s.vpsr.bsy

theorem sameVectorFile_of {s t : State} (hc : t.cfg = s.cfg) (h : sameVectorState s t) : sameVectorFile s t := by
  obtain ⟨hv, hvlr, hvmr, hvcr, hvpsr, -, -⟩ := h
  exact ⟨hc, hv, hvlr, hvmr, hvcr, congrArg Vpsr.bsy hvpsr⟩

theorem sameVectorFile_enterHandler {s t : State} {off : Word} {level : Option (BitVec 5)} {pc : Word}
    {params : List Word} (h : enterHandler s off level pc params = .ok t) : sameVectorFile s t := by
  rw [(enterHandler_frame h).1]
  exact ⟨rfl, rfl, rfl, rfl, rfl, rfl⟩

theorem sameVectorFile_raise {s t : State} {e : Exc} (h : raise s e = .next t) : sameVectorFile s t := by
  rw [raise_frame h]
  exact ⟨rfl, rfl, rfl, rfl, rfl, rfl⟩

/-- MTPR does not write BSY, to VPSR either (R197). -/
theorem iprWrite_bsy {s t : State} {r : Ipr} {w : Word} (h : iprWrite s r w = .ok t) : t.vpsr.bsy = s.vpsr.bsy := by
  by_cases hr : r = .vpsr
  · subst hr
    obtain ⟨-, rfl⟩ := vpsrWrite_ok h
    split <;> rfl
  · obtain ⟨-, hsame, -⟩ := iprWrite_ok h
    obtain ⟨-, -, -, -, -, -, -, -, -, -, -, -, -, -, -, -, hvpsr, -⟩ := hsame
    rw [(hvpsr hr).1]

theorem sameVectorFile_mtprBody {src procreg : Specifier} {s t : State} (h : mtprBody src procreg s = .ok t) :
    sameVectorFile s t := by
  obtain ⟨v, s1, n, s2, r, -, -, -, -, hcfg, hsame, -⟩ := mtprBody_frame h
  obtain ⟨-, -, -, -, -, -, -, -, -, -, -, -, -, -, -, -, -, -, hv, hvlr, hvmr, hvcr⟩ := hsame
  obtain ⟨-, ⟨v, s1⟩, ⟨n, s2⟩, r, u, h1, h2, -, hw, rfl⟩ := mtprBody_ok h
  have hbsy : s2.vpsr.bsy = s.vpsr.bsy := by rw [readOperands_state h1 h2]
  exact ⟨hcfg, hv, hvlr, hvmr, hvcr, (iprWrite_bsy hw).trans hbsy⟩

theorem sameVectorFile_exec {i : Instr} {s t : State} (h : exec i s = .next t) : sameVectorFile s t := by
  rcases exec_next h with ⟨e, h⟩ | ⟨-, ⟨e, h⟩ | h⟩ | ⟨-, h⟩ | ⟨-, h⟩ | ⟨a, b, -, h⟩ | ⟨a, b, -, h⟩
  · exact sameVectorFile_raise h
  · exact sameVectorFile_raise (s := reiBegun s) h
  · obtain ⟨newPc, long, -, -, -, rfl⟩ := reiBody_ok h
    obtain ⟨hcfg, -, -, hvec, -⟩ := reiResume_frame (reiBegun s) newPc (pslOfLong s.cfg long)
    exact sameVectorFile_of hcfg hvec
  · obtain ⟨hcfg, -, hvec, -⟩ := ldpctxBody_frame h
    exact sameVectorFile_of hcfg hvec
  · obtain ⟨hcfg, -, hvec, -⟩ := svpctxBody_frame h
    exact sameVectorFile_of hcfg hvec
  · exact sameVectorFile_mtprBody h
  · rw [(mfprBody_frame h).1]
    exact ⟨rfl, rfl, rfl, rfl, rfl, rfl⟩

theorem sameVectorFile_step {s t : State} (h : step s = .next t) : sameVectorFile s t := by
  rcases step_next h with h | ⟨e, h⟩ | ⟨i, h⟩
  · exact sameVectorFile_enterHandler (s := astTaken s) h
  · exact sameVectorFile_raise h
  · exact sameVectorFile_exec h

/-- Settles O10. -/
theorem vectorProcessorStaysAsItIs : Obligations.VectorProcessorStaysAsItIs := by
  refine ⟨fun s hv hb => if_pos ⟨hv, hb⟩, fun s t h => ?_⟩
  obtain ⟨-, -, -, -, -, hbsy⟩ := sameVectorFile_step h
  exact hbsy

/-- Settles O58. -/
theorem stepLeavesVectorRegisters : Obligations.StepLeavesVectorRegisters := by
  intro s t h
  obtain ⟨hcfg, hv, hvlr, hvmr, hvcr, -⟩ := sameVectorFile_step h
  exact ⟨hcfg, hv, hvlr, hvmr, hvcr⟩

/-! ## The invariant -/

/-- Settles O56, by evaluating the reset state. -/
theorem resetMeetsInvariant : Obligations.ResetMeetsInvariant :=
  ⟨rfl, rfl, fun _ => by decide, fun _ => by decide⟩

theorem inv_enterHandler {s t : State} {off : Word} {level : Option (BitVec 5)} {pc : Word} {params : List Word}
    (hi : s.Inv) (hl : ∀ l, level = some l → l ≠ 0) (h : enterHandler s off level pc params = .ok t) : t.Inv := by
  obtain ⟨hm, hw, -, ha⟩ := hi
  obtain ⟨hf, hpsl, -⟩ := enterHandler_frame h
  obtain ⟨u, hu, rfl⟩ := enterHandler_ok h
  obtain ⟨hm', hw'⟩ := pushAll_wf hu hm hw
  refine ⟨hm', hw', fun _ => ?_, ?_⟩
  · rw [hpsl]
    exact pslConsistent_handlerPsl _ _ _ _ hl
  · rw [hf]
    exact ha

theorem inv_raise {s t : State} {e : Exc} (hi : s.Inv) (h : raise s e = .next t) : t.Inv := by
  obtain ⟨-, off, -, h⟩ := raise_next h
  exact inv_enterHandler hi (by simp) h

theorem inv_reiBody {s t : State} (hi : s.Inv) (h : reiBody s = .ok t) : t.Inv := by
  obtain ⟨hm, -, -, ha⟩ := hi
  obtain ⟨newPc, long, -, -, hc, rfl⟩ := reiBody_ok h
  refine ⟨hm, rfl, fun hr => ?_, ha⟩
  have hallowed := (reiCheck_ok hc).2.1
  rw [reiAllowed_default (cfg := s.cfg) hr, Bool.and_eq_true] at hallowed
  exact pslConsistent_reiPsl _ hallowed.2

/-- A push keeps the canonical forms. -/
theorem push_wf {s t : State} {v : Word} (h : push s v = .ok t)
    (hs : Memory.wf s.mem = true ∧ risingAbove none s.written = true) :
    Memory.wf t.mem = true ∧ risingAbove none t.written = true := by
  obtain ⟨pas, -, rfl⟩ := push_ok h
  exact ⟨Memory.wf_writeAll hs.1, risingAbove_insertAddrs hs.2⟩

/-- With the default check, the PCB of an LDPCTX that completes holds an ASTLVL of at most 4 (R135). -/
theorem pcbAstlvl_of_pcbValid {s : State} (h : s.cfg.pcbTable = []) (hv : pcbValid s = true) :
    (pcbAstlvl s).toNat ≤ 4 := by
  simp only [pcbValid, h, List.find?_nil, pcbValidDefault, Bool.and_eq_true, decide_eq_true_eq] at hv
  exact hv.2

theorem inv_ldpctxBody {s t : State} (hi : s.Inv) (h : ldpctxBody s = .ok t) : t.Inv := by
  obtain ⟨hm, hw, hp, -⟩ := hi
  obtain ⟨hcfg, hpsl, -, -, -, -, -, -, -, hastlvl⟩ := ldpctxBody_frame h
  obtain ⟨hmode, hv, s2, s3, h2, h3, rfl⟩ := ldpctxBody_ok h
  obtain ⟨hm', hw'⟩ := push_wf h3 (push_wf h2 (by simpa using ⟨hm, hw⟩))
  refine ⟨hm', hw', fun hr => ?_, fun hr => ?_⟩
  · rw [hcfg] at hr ⊢
    rw [hpsl]
    split
    · exact pslConsistent_leaveInterruptStack hmode (hp hr)
    · exact hp hr
  · rw [hcfg] at hr
    rw [hastlvl]
    exact pcbAstlvl_of_pcbValid hr hv

/-- Stores in the PCB keep the record of stores strictly rising. -/
theorem pcbWriteAll_rising {s : State} (l : List (Word × Word)) (h : risingAbove none s.written = true) :
    risingAbove none (pcbWriteAll s l).written = true := risingAbove_insertAddrs h

theorem inv_svpctxBody {s t : State} (hi : s.Inv) (h : svpctxBody s = .ok t) : t.Inv := by
  obtain ⟨hm, hw, hp, ha⟩ := hi
  obtain ⟨hcfg, hpsl, -, hiprs, -⟩ := svpctxBody_frame h
  obtain ⟨-, -, -, -, hastlvl, -⟩ := hiprs
  obtain ⟨hmode, a, b, -, -, rfl⟩ := svpctxBody_ok h
  refine ⟨?_, ?_, fun hr => ?_, fun hr => ?_⟩
  · rw [svpctxSave_mem]
    refine pcbWriteAll_wf _ ?_
    rw [svpctxLeave_mem]
    exact pcbWriteAll_wf _ hm
  · rw [svpctxSave_written]
    refine pcbWriteAll_rising _ ?_
    rw [svpctxLeave_written]
    exact pcbWriteAll_rising _ hw
  · rw [hcfg] at hr ⊢
    rw [hpsl]
    split
    · exact hp hr
    · exact pslConsistent_svpctxPsl hmode (hp hr)
  · rw [hcfg] at hr
    rw [hastlvl]
    exact ha hr

theorem inv_mtprBody {src procreg : Specifier} {s t : State} (hi : s.Inv) (h : mtprBody src procreg s = .ok t) :
    t.Inv := by
  obtain ⟨hm, hw, hp, ha⟩ := hi
  obtain ⟨v, s1, n, s2, r, -, -, -, -, hcfg, -, hpsl, -, -, -, -, hmem, hwritten, -⟩ := mtprBody_frame h
  refine ⟨hmem ▸ hm, hwritten ▸ hw, fun hr => ?_, fun hr => ?_⟩
  · rw [hcfg] at hr ⊢
    rw [hpsl]
    exact pslConsistent_pslWithCc _ (hp hr)
  · rw [hcfg] at hr
    exact mtprBody_astlvl h (ha hr)

theorem inv_mfprBody {procreg dst : Specifier} {s t : State} (hi : s.Inv) (h : mfprBody procreg dst s = .ok t) :
    t.Inv := by
  obtain ⟨hm, hw, hp, ha⟩ := hi
  obtain ⟨hf, hstore⟩ := mfprBody_frame h
  have hwf : Memory.wf t.mem = true ∧ risingAbove none t.written = true := by
    rcases hstore with ⟨hmem, hwritten⟩ | ⟨pas, v, hmem, hwritten⟩
    · exact ⟨hmem ▸ hm, hwritten ▸ hw⟩
    · exact ⟨hmem ▸ Memory.wf_writeAll hm, hwritten ▸ risingAbove_insertAddrs hw⟩
  refine ⟨hwf.1, hwf.2, ?_⟩
  rw [hf]
  exact ⟨fun hr => pslConsistent_pslWithCc _ (hp hr), ha⟩

theorem inv_exec {i : Instr} {s t : State} (hi : s.Inv) (h : exec i s = .next t) : t.Inv := by
  rcases exec_next h with ⟨e, h⟩ | ⟨-, ⟨e, h⟩ | h⟩ | ⟨-, h⟩ | ⟨-, h⟩ | ⟨a, b, -, h⟩ | ⟨a, b, -, h⟩
  · exact inv_raise hi h
  · exact inv_raise (s := reiBegun s) hi h
  · exact inv_reiBody (s := reiBegun s) hi h
  · exact inv_ldpctxBody hi h
  · exact inv_svpctxBody hi h
  · exact inv_mtprBody hi h
  · exact inv_mfprBody hi h

/-- Settles O57: entry to a handler keeps the invariant, and so does each instruction that completes. -/
theorem stepKeepsInvariant : Obligations.StepKeepsInvariant := by
  intro s t hi h
  rcases step_next h with h | ⟨e, h⟩ | ⟨i, h⟩
  · exact inv_enterHandler (s := astTaken s) hi (by simp [astLevel]) h
  · exact inv_raise hi h
  · exact inv_exec hi h

/-! ## Outside kernel mode -/

/-- Outside kernel mode an instruction answers a next state by taking an exception or by being an REI that completes
(R132, R141, R147, R153, R229). -/
theorem exec_next_outsideKernel {i : Instr} {s t : State} (hm : s.mode ≠ 0) (h : exec i s = .next t) :
    (∃ e, raise s e = .next t) ∨ (∃ e, raise (reiBegun s) e = .next t) ∨ reiBody (reiBegun s) = .ok t := by
  rcases exec_next h with h | ⟨-, h | h⟩ | ⟨-, h⟩ | ⟨-, h⟩ | ⟨a, b, -, h⟩ | ⟨a, b, -, h⟩
  · exact .inl h
  · exact .inr (.inl h)
  · exact .inr (.inr h)
  · exact absurd (ldpctxBody_ok h).1 hm
  · exact absurd (svpctxBody_ok h).1 hm
  · exact absurd (mtprBody_ok h).1 hm
  · exact absurd (mfprBody_ok h).1 hm

/-- A step outside kernel mode enters the AST's handler, takes an exception, or is an REI that completes. -/
theorem step_next_outsideKernel {s t : State} (hm : s.mode ≠ 0) (h : step s = .next t) :
    enterHandler (astTaken s) s.cfg.scbAst (some astLevel) s.pc [] = .ok t ∨ (∃ e, raise s e = .next t) ∨
      (∃ e, raise (reiBegun s) e = .next t) ∨ reiBody (reiBegun s) = .ok t :=
  (step_next h).imp id fun h => h.elim .inl fun ⟨_, h⟩ => exec_next_outsideKernel hm h

/-- The privileged state, and the cells of the stacks not left. -/
def keepsPrivilegedState (s t : State) : Prop :=
  t.cfg = s.cfg ∧ sameProcessorRegisters s t ∧ sameVectorState s t ∧ t.inSwitchWindow = s.inSwitchWindow ∧
    t.loadedPcb = s.loadedPcb ∧ t.tbEvents = s.tbEvents ∧
    ∀ p, sameStack s.psl p = false → stackCell t p = stackCell s p

theorem keepsPrivilegedState_of_entryKeeps {s t : State} {off : Word} {level : Option (BitVec 5)} {frame : List Word}
    (h : entryKeeps s t off level frame) :
    keepsPrivilegedState s t ∧ stackCell t s.psl = s.sp ∧
      sameMemoryOutside s t (pushTargets (entryStart s off level) frame) := by
  obtain ⟨hcfg, -, hiprs, hvec, hwin, -, hpcb, htb, hcells, hcell, hmem⟩ := h
  exact ⟨⟨hcfg, hiprs, hvec, hwin, hpcb, htb, hcells⟩, hcell, hmem⟩

theorem keepsPrivilegedState_reiResume (s : State) (pc p : Word) : keepsPrivilegedState s (reiResume s pc p) := by
  obtain ⟨hcfg, -, hiprs, hvec, hwin, hpcb, htb, -⟩ := reiResume_frame s pc p
  exact ⟨hcfg, hiprs, hvec, hwin, hpcb, htb, fun q hq => by rw [reiResume_stackCell]; exact if_neg (by simp [hq])⟩

/-- A handler runs in kernel mode (R221). -/
theorem enterHandler_mode {s t : State} {off : Word} {level : Option (BitVec 5)} {pc : Word} {params : List Word}
    (h : enterHandler s off level pc params = .ok t) : t.mode = 0 := by
  rw [State.mode, (enterHandler_frame h).2.1]
  exact (handlerPsl_fields ..).1

/-- A handler is entered through its vector (R221). -/
theorem enterHandler_pc {s t : State} {off : Word} {level : Option (BitVec 5)} {pc : Word} {params : List Word}
    (h : enterHandler s off level pc params = .ok t) : t.pc = vectorOf s off &&& 0xFFFFFFFC#32 := by
  obtain ⟨u, -, rfl⟩ := enterHandler_ok h
  exact finish_pc ..

/-- What an exception pushes does not depend on whether an REI is owed. -/
theorem entryFrame_reiBegun (s : State) (e : Exc) :
    entryFrame (reiBegun s) (savedPc (reiBegun s) e) (excParams (reiBegun s) e) =
      entryFrame s (savedPc s e) (excParams s e) := by
  cases e <;> rfl

/-- A handler runs, for an exception or for the AST: in kernel mode, with SP in the cell of the stack left, and memory
changed in the longwords it pushed alone. -/
def runsHandler (s t : State) : Prop :=
  t.mode = 0 ∧ stackCell t s.psl = s.sp ∧
    ((∃ e off, scbOffset s.cfg e = some off ∧
        sameMemoryOutside s t
          (pushTargets (entryStart s off none) (entryFrame s (savedPc s e) (excParams s e)))) ∨
      sameMemoryOutside s t (pushTargets (entryStart s s.cfg.scbAst (some 2)) (entryFrame s s.pc [])))

/-- An exception leaves privileged state alone, in the state before the instruction or once the REI owed has begun. -/
theorem raise_keepsPrivilegedState {s u t : State} {e : Exc} (hu : u = s ∨ u = reiBegun s)
    (h : raise u e = .next t) : keepsPrivilegedState s t ∧ runsHandler s t := by
  obtain ⟨-, off, ho, h⟩ := raise_next h
  obtain ⟨hkeep, hcell, hmem⟩ := keepsPrivilegedState_of_entryKeeps (enterHandler_keeps h).1
  rcases hu with rfl | rfl
  · exact ⟨hkeep, enterHandler_mode h, hcell, .inl ⟨e, off, ho, hmem⟩⟩
  · rw [entryFrame_reiBegun, pushTargets_congr (s := entryStart s off none) (t := entryStart (reiBegun s) off none)
      ⟨rfl, rfl, rfl, rfl, rfl, rfl, rfl⟩ rfl] at hmem
    exact ⟨hkeep, enterHandler_mode h, hcell, .inl ⟨e, off, ho, hmem⟩⟩

/-- Outside kernel mode a step enters a handler or is an REI, and neither touches privileged state. -/
theorem step_keepsPrivilegedState {s t : State} (hm : s.mode ≠ 0) (h : step s = .next t) :
    keepsPrivilegedState s t ∧ ((stackCell t s.psl = s.sp + 8 ∧ sameMemory s t) ∨ runsHandler s t) := by
  rcases step_next_outsideKernel hm h with h | ⟨e, h⟩ | ⟨e, h⟩ | h
  · obtain ⟨hkeep, hcell, hmem⟩ :=
      keepsPrivilegedState_of_entryKeeps (entryKeeps_astTaken (enterHandler_keeps h).1)
    exact ⟨hkeep, .inr ⟨enterHandler_mode h, hcell, .inr hmem⟩⟩
  · exact (raise_keepsPrivilegedState (.inl rfl) h).imp id .inr
  · exact (raise_keepsPrivilegedState (.inr rfl) h).imp id .inr
  · obtain ⟨newPc, long, -, -, -, rfl⟩ := reiBody_ok h
    refine ⟨keepsPrivilegedState_reiResume (reiBegun s) newPc _, .inl ⟨?_, fun a => rfl⟩⟩
    rw [reiResume_stackCell]
    exact if_pos (sameStack_refl _)

/-- Settles O59. -/
theorem outsideKernelModeNothingPrivilegedChanges : Obligations.OutsideKernelModeNothingPrivilegedChanges := by
  intro s t hm h
  obtain ⟨⟨hcfg, hiprs, hvec, hwin, hpcb, htb, hcells⟩, hrest⟩ := step_keepsPrivilegedState hm h
  exact ⟨hcfg, hiprs, hvec, hwin, hpcb, htb, hcells, hrest⟩

/-- Settles O60: the default check of REI gives no more privileged mode, and entry to a handler is through its
vector. -/
theorem privilegeRisesOnlyByEntry : Obligations.PrivilegeRisesOnlyByEntry := by
  intro s t hr h hlt
  have hm : s.mode ≠ 0 := fun h0 => by rw [h0] at hlt; cases hlt
  have entered {u : State} {off : Word} {level : Option (BitVec 5)} {pc : Word} {params : List Word}
      (hu : enterHandler u off level pc params = .ok t) :
      t.mode = 0 ∧ pslPrvMod t.psl = (if level = none then u.mode else 0) ∧ t.pc = vectorOf u off &&& 0xFFFFFFFC#32 :=
    ⟨enterHandler_mode hu, by rw [(enterHandler_frame hu).2.1]; exact pslPrvMod_handlerPsl .., enterHandler_pc hu⟩
  rcases step_next_outsideKernel hm h with h | ⟨e, h⟩ | ⟨e, h⟩ | h
  · obtain ⟨hmode, hprv, hpc⟩ := entered h
    exact ⟨hmode, .inr hprv, s.cfg.scbAst, .inl rfl, hpc⟩
  · obtain ⟨-, off, ho, h⟩ := raise_next h
    obtain ⟨hmode, hprv, hpc⟩ := entered h
    exact ⟨hmode, .inl hprv, off, .inr ⟨e, ho⟩, hpc⟩
  · obtain ⟨-, off, ho, h⟩ := raise_next h
    obtain ⟨hmode, hprv, hpc⟩ := entered h
    exact ⟨hmode, .inl hprv, off, .inr ⟨e, ho⟩, hpc⟩
  · obtain ⟨newPc, long, -, -, hc, rfl⟩ := reiBody_ok h
    exact absurd hlt (Nat.not_lt.2 (reiResume_noGain (s := reiBegun s) hr (reiCheck_ok hc).2.1).1)

end Sys2Proof.Machine

/-!
PROOFS. LDPCTX and SVPCTX (40_privileged R131 to R144).
-/

namespace Sys2Proof.Machine

/-! ## Two pushes -/

theorem pushAll_two {s s2 s3 : State} {v w : Word} (h2 : push s v = .ok s2) (h3 : push s2 w = .ok s3) :
    pushAll s [v, w] = .ok s3 := by
  simp only [pushAll, h2, h3]

/-- Of two longwords pushed the first is above the second, on top (R65). -/
theorem stored_two {s t : State} {v w : Word} (h : pushAll s [v, w] = .ok t) (hp : s.plainMemory)
    (hm : Memory.wf s.mem = true) : storedLong t.mem (s.sp - 8 + 4) = v ∧ storedLong t.mem (s.sp - 8) = w := by
  have h0 := pushAll_stored h hp hm (by simp) 0 Nat.zero_lt_two
  have h1 := pushAll_stored h hp hm (by simp) 1 Nat.one_lt_two
  refine ⟨?_, h1⟩
  rwa [show s.sp - 8 + 4 = s.sp - BitVec.ofNat 32 (4 * (0 + 1)) by generalize s.sp = a; bv_omega]

/-! ## The kernel stack of LDPCTX -/

theorem getReg_ldpctxLoad_gpr (s : State) {r : Nat} (h : r < 14) :
    getReg (ldpctxLoad s) ⟨r, by omega⟩ = pcbRead s s.cfg.pcb.gpr[r] := by
  simp [getReg, pcbGprs, h]

theorem ldpctxLoad_sp (s : State) : (ldpctxLoad s).sp = s.sp := by
  simp [State.sp, getReg, pcbGprs, regSP]

theorem getReg_toKernelStack_ne (s : State) {q : Reg} (h : q ≠ regSP) : getReg (toKernelStack s) q = getReg s q := by
  unfold toKernelStack
  split
  · exact getReg_switchStack_ne _ _ _ h
  · split
    · exact getReg_setReg_ne _ _ h
    · rfl

@[simp] theorem toKernelStack_spSlot (s : State) : (toKernelStack s).spSlot = s.spSlot := by
  unfold toKernelStack
  split
  next h => simp [switchStack, setStackCell, setReg, h]
  next => split <;> rfl

/-- From the interrupt stack, SP goes to ISP (R136). -/
theorem toKernelStack_isp (s : State) : (toKernelStack s).isp = if pslIs s.psl then s.sp else s.isp := by
  unfold toKernelStack
  split
  next h => simp [switchStack, setStackCell, setReg, h]
  next => split <;> rfl

/-- From the interrupt stack in kernel mode, SP is the kernel stack pointer (R136). -/
theorem toKernelStack_sp_of_interrupt {s : State} (h : pslIs s.psl = true) (hm : s.mode = 0) :
    (toKernelStack s).sp = s.spSlot[0] := by
  have hsame : ¬ sameStack s.psl (pslWithIs s.psl false) = true := by simp [sameStack, h]
  rw [toKernelStack, if_pos h, switchStack_sp, if_neg hsame]
  exact stackCell_kernel s (pslIs_pslWithIs ..) ((pslCurMod_pslWithIs ..).trans hm)

/-- With IS clear, SP is the kernel stack pointer or stays as it is (log 25). -/
theorem toKernelStack_sp_of_process {s : State} (h : pslIs s.psl = false) :
    (toKernelStack s).sp = s.spSlot[0] ∨ (toKernelStack s).sp = s.sp := by
  rw [toKernelStack, if_neg (by simp [h])]
  split
  · exact .inl (setReg_sp_same ..)
  · exact .inr rfl

/-! ## The context LDPCTX loads -/

/-- The context of the PCB has been loaded, and an LDPCTX at PC has left its marks (R131, R133, R134, R139, R255). -/
structure ContextLoaded (s t : State) : Prop where
  gprs   : ∀ r (h : r < 14), getReg t ⟨r, by omega⟩ = pcbRead s s.cfg.pcb.gpr[r]
  cells  : t.spSlot = s.cfg.pcb.sp.map (pcbRead s)
  map    : t.map = pcbMap s
  astlvl : t.astlvl = pcbAstlvl s
  pme    : t.pme = pcbPme s
  asn    : t.asn = pcbAsn s
  pc     : t.pc = s.pc + 1
  tb     : t.tbEvents = ldpctxFlush s t.asn ++ s.tbEvents
  window : t.inSwitchWindow = false
  owed   : t.afterLdpctx = some (s.pc + 1)
  pcb    : t.loadedPcb = some s.pcbb

/-- The state from which LDPCTX pushes, as far as pushes and marks leave it. -/
abbrev ldpctxStart (s : State) : State := toKernelStack (ldpctxLoad s)

/-- The state LDPCTX leaves once it has pushed. -/
abbrev ldpctxEnd (s u : State) : State := finish (ldpctxDone u s.pcbb (s.pc + 1)) (s.pc + 1)

theorem contextLoaded_ldpctxEnd {s u : State} {vs : List Word} (h : pushAll (ldpctxStart s) vs = .ok u) :
    ContextLoaded s (ldpctxEnd s u) := by
  obtain ⟨hu, hregs, -⟩ := pushAll_ok h
  have hgpr (r : Nat) (hr : r < 14) : getReg (ldpctxEnd s u) ⟨r, by omega⟩ = pcbRead s s.cfg.pcb.gpr[r] := by
    have hsp : (⟨r, by omega⟩ : Reg) ≠ regSP := fun he => by have := congrArg Fin.val he; simp at this; omega
    have hpc : (⟨r, by omega⟩ : Reg) ≠ regPC := fun he => by have := congrArg Fin.val he; simp at this; omega
    rw [getReg_finish, if_neg hpc, ldpctxDone_getReg, hregs _ hsp, getReg_toKernelStack_ne _ hsp,
      getReg_ldpctxLoad_gpr s hr]
  refine ⟨hgpr, ?_, ?_, ?_, ?_, ?_, finish_pc .., ?_, rfl, rfl, rfl⟩
  all_goals
    rw [hu]
    simp

/-! ## LDPCTX's outcome -/

theorem push_cfg {s t : State} {v : Word} (h : push s v = .ok t) : t.cfg = s.cfg := by
  obtain ⟨pas, -, rfl⟩ := push_ok h
  rfl

section
variable {s : State} (hp : s.privileged) (ha : s.pcbb.extractLsb' 0 2 = 0)
include hp ha

/-- LDPCTX of a valid PCB completes once its two pushes do (R131, R136). -/
theorem exec_ldpctx_of {s2 s3 : State} (hq : requirePhys s.cfg (pcbAddrs s) = .ok ()) (hv : pcbValid s = true)
    (h2 : push (ldpctxStart s) (pcbRead s s.cfg.pcb.psl) = .ok s2)
    (h3 : push s2 (pcbRead s2 s.cfg.pcb.pc) = .ok s3) : exec .ldpctx s = .next (ldpctxEnd s s3) := by
  have hcfg : s2.cfg = s.cfg := (push_cfg h2).trans (by simp)
  rw [exec_ldpctx_eq hp ha hq, if_pos hv, ldpctxPush_of h2, res_ok_bind, hcfg, ldpctxPush_of h3]
  rfl

/-- The memory in which LDPCTX reads PC: the PSL has been pushed below `sp` (R131; log 47). -/
abbrev pslPushed (s : State) (sp : Word) : State :=
  { s with mem := Memory.writeAll s.mem (longAddrs (sp - 4)) (bytesOfLong (pcbRead s s.cfg.pcb.psl)) }

/-- Where memory is plain LDPCTX of a valid PCB completes, with PSL and, on top, PC below the SP it pushes from
(R136). -/
theorem exec_ldpctx_plain (hv : pcbValid s = true) (hplain : s.plainMemory) (hm : Memory.wf s.mem = true) :
    ∃ t, exec .ldpctx s = .next t ∧ ContextLoaded s t ∧ t.psl = (ldpctxStart s).psl ∧ t.isp = (ldpctxStart s).isp ∧
      t.sp = (ldpctxStart s).sp - 8 ∧ storedLong t.mem (t.sp + 4) = pcbRead s s.cfg.pcb.psl ∧
      storedLong t.mem t.sp = pcbRead (pslPushed s (ldpctxStart s).sp) s.cfg.pcb.pc := by
  have hplain1 : (ldpctxStart s).plainMemory := by simpa [State.plainMemory] using hplain
  have h2 := push_of (v := pcbRead s s.cfg.pcb.psl)
    (translateLong_identity hplain1.1 hplain1.2 ((ldpctxStart s).sp - 4) .write)
  generalize hs2 : setReg _ _ _ = s2 at h2
  have hpc : pcbRead s2 s.cfg.pcb.pc = pcbRead (pslPushed s (ldpctxStart s).sp) s.cfg.pcb.pc := by
    have hbytes : physByte s2 = physByte (pslPushed s (ldpctxStart s).sp) := by
      subst hs2
      apply physByte_congr <;> simp
    have hpcbb : s2.pcbb = s.pcbb := by subst hs2; simp
    simp only [pcbRead, physLong, hbytes, hpcbb]
  obtain ⟨s3, h3⟩ : ∃ s3, push s2 (pcbRead s2 s.cfg.pcb.pc) = .ok s3 :=
    ⟨_, push_of (translateLong_identity (by rw [push_cfg h2]; exact hplain1.1)
      (by rw [push_cfg h2]; exact hplain1.2) _ _)⟩
  have hall := pushAll_two h2 h3
  obtain ⟨hframe, -, hsp⟩ := pushAll_ok hall
  obtain ⟨hpsl, hpcTop⟩ := stored_two hall hplain1 (by simpa using hm)
  have hsp' : (ldpctxEnd s s3).sp = (ldpctxStart s).sp - 8 := (finish_sp ..).trans hsp
  refine ⟨_, exec_ldpctx_of hp ha (requirePhys_of_wide hplain.2 _) hv h2 h3, contextLoaded_ldpctxEnd hall, ?_, ?_, hsp',
    ?_, ?_⟩
  · rw [hframe]; rfl
  · rw [hframe]; rfl
  · rw [hsp']; exact hpsl
  · rw [hsp', ← hpc]; exact hpcTop

end

theorem ldpctxStart_sp_of_interrupt {s : State} (h : pslIs s.psl = true) (hm : s.mode = 0) :
    (ldpctxStart s).sp = pcbRead s s.cfg.pcb.sp[0] := by
  rw [toKernelStack_sp_of_interrupt (by simpa using h) (by simpa using hm)]
  simp

theorem ldpctxStart_sp_of_process {s : State} (h : pslIs s.psl = false) :
    (ldpctxStart s).sp = pcbRead s s.cfg.pcb.sp[0] ∨ (ldpctxStart s).sp = s.sp := by
  refine (toKernelStack_sp_of_process (s := ldpctxLoad s) (by simpa using h)).imp (fun h => ?_) fun h => ?_
  · rw [h]; simp
  · rw [h, ldpctxLoad_sp]

theorem ldpctxStart_isp (s : State) : (ldpctxStart s).isp = if pslIs s.psl then s.sp else s.isp := by
  rw [toKernelStack_isp, ldpctxLoad_psl, ldpctxLoad_sp, ldpctxLoad_isp]

theorem ldpctxStart_psl (s : State) : (ldpctxStart s).psl = if pslIs s.psl then pslWithIs s.psl false else s.psl := by
  rw [toKernelStack_psl, ldpctxLoad_psl]

/-- Settles O26: the context is what `ldpctxLoad` loads, and the pushes write SP and memory alone. -/
theorem ldpctxLoadsProcessContext : Obligations.LdpctxLoadsProcessContext := by
  intro s s2 s3 hp ha hq hv hIs h2 h3
  have hall := pushAll_two h2 h3
  obtain ⟨hframe, -, hsp⟩ := pushAll_ok hall
  have hisp := ldpctxStart_isp s
  have hpsl := ldpctxStart_psl s
  rw [if_pos hIs] at hisp hpsl
  obtain ⟨hgprs, hcells, hmap, hastlvl, hpme, hasn, hpc, htb, hwin, howed, hpcb⟩ := contextLoaded_ldpctxEnd hall
  refine ⟨ldpctxEnd s s3, exec_ldpctx_of hp ha hq hv h2 h3, hgprs, hcells, ?_, ?_, ?_, ?_, hastlvl, hpme, hasn,
    ?_, ?_, ?_, hpc, htb, hwin, howed, hpcb⟩
  · rw [hmap]; rfl
  · rw [hmap]; rfl
  · rw [hmap]; rfl
  · rw [hmap]; rfl
  · rw [hframe]; exact hisp
  · rw [hframe]; exact hpsl
  · rw [finish_sp, ← ldpctxStart_sp_of_interrupt hIs hp.1]; exact hsp

/-- Settles O27. -/
theorem ldpctxStacksPslAndPc : Obligations.LdpctxStacksPslAndPc := by
  intro s hp ha hv hIs hplain hm
  obtain ⟨t, ht, -, -, -, -, hpsl, hpc⟩ := exec_ldpctx_plain hp ha hv hplain hm
  rw [ldpctxStart_sp_of_interrupt hIs hp.1] at hpc
  exact ⟨t, ht, hpsl, hpc⟩

/-- Settles O28. -/
theorem ldpctxWithInterruptStackClear : Obligations.LdpctxWithInterruptStackClear := by
  intro s hp ha hv hIs hplain hm
  have hClear : ¬ pslIs s.psl = true := by simp [hIs]
  obtain ⟨t, ht, hload, hpsl, hisp, hsp, htop, hpc⟩ := exec_ldpctx_plain hp ha hv hplain hm
  rw [ldpctxStart_psl, if_neg hClear] at hpsl
  rw [ldpctxStart_isp, if_neg hClear] at hisp
  exact ⟨t, (ldpctxStart s).sp, ht, ldpctxStart_sp_of_process hIs, hsp, htop, hpc, hpsl, hisp, hload.cells, hload.map,
    hload.gprs, hload.pc, hload.astlvl, hload.pme, hload.asn, hload.tb, hload.window, hload.owed, hload.pcb⟩

/-- Settles O29, by which of the two pushes faults. -/
theorem ldpctxInvalidPcbAborts : Obligations.LdpctxInvalidPcbAborts := by
  intro s hp ha hq
  refine ⟨fun hv => ?_, fun e hv hpush => ?_⟩
  · rw [exec_ldpctx_eq hp ha hq, if_neg (by simp [hv]), settle_exc]
  · rw [exec_ldpctx_eq hp ha hq, if_pos hv]
    rcases hpush with h | ⟨s2, h2, h⟩
    · rw [ldpctxPush_exc h, toKernelStack_cfg, ldpctxLoad_cfg]
      rfl
    · have hcfg : s2.cfg = s.cfg := (push_cfg h2).trans (by simp)
      rw [ldpctxPush_of h2, res_ok_bind, hcfg, ldpctxPush_exc h, hcfg]
      rfl

/-- A PSL with IS cleared is as it was outside IS. -/
theorem pslWithIs_false_rest (p : Word) : pslWithIs p false &&& 0xFBFFFFFF#32 = p &&& 0xFBFFFFFF#32 := by
  rw [pslWithIs, if_neg Bool.false_ne_true, BitVec.and_assoc, BitVec.and_self]

/-- LDPCTX changes memory in the two longwords it pushes alone (R136). -/
theorem ldpctxBody_mem {s t : State} (h : ldpctxBody s = .ok t) : sameMemoryOutside s t (ldpctxTargets s) := by
  obtain ⟨-, -, s2, s3, h2, h3, rfl⟩ := ldpctxBody_ok h
  have htargets : ldpctxTargets s = pushTargets (ldpctxStart s)
      [pcbRead (ldpctxStart s) s.cfg.pcb.psl, pcbRead s2 s.cfg.pcb.pc] := by
    simp only [ldpctxTargets, h2]
  have hmem := pushAll_mem (pushAll_two h2 h3)
  rw [htargets]
  intro a ha
  rw [finish_mem, ldpctxDone_mem, hmem a ha, toKernelStack_mem, ldpctxLoad_mem]

/-- Settles O30. -/
theorem ldpctxFrame : Obligations.LdpctxFrame := by
  intro s t h
  refine (exec_ldpctx_next h).imp id fun hb => ?_
  obtain ⟨hcfg, hpsl, hvec, hvmap, hpcbb, hscbb, hcpuid, hvmpsl, hast, -⟩ := ldpctxBody_frame hb
  refine ⟨hcfg, hvec, hvmap, hpcbb, hscbb, hcpuid, hvmpsl, hast, ?_, ldpctxBody_mem hb⟩
  rw [hpsl]
  split
  · exact pslWithIs_false_rest _
  · rfl

/-! ## SVPCTX -/

theorem getReg_toInterruptStack_ne (s : State) {q : Reg} (h : q ≠ regSP) :
    getReg (toInterruptStack s) q = getReg s q := by
  unfold toInterruptStack
  split
  · rfl
  · exact getReg_switchStack_ne _ _ _ h

/-- SVPCTX changes no general register but SP and PC (R140). -/
theorem getReg_svpctxSave (s : State) (a b : Word) {q : Reg} (hsp : q ≠ regSP) (hpc : q ≠ regPC) :
    getReg (svpctxSave s a b) q = getReg s q := by
  rw [svpctxSave, getReg_finish, if_neg hpc, svpctxDone_getReg, getReg_pcbWriteAll, svpctxLeave,
    getReg_toInterruptStack_ne _ hsp, getReg_setReg_ne _ _ hsp, getReg_pcbWriteAll]

/-- SVPCTX changes memory in the fields it saves alone (R142). -/
theorem svpctxSave_sameMemoryOutside (s : State) (a b : Word) :
    sameMemoryOutside s (svpctxSave s a b) (svpctxTargets s) := by
  have hin {l : List (Word × Word)} (hl : ∀ p ∈ l, p.1 ∈ pcbSavedOffsets s.cfg) {x : Word} :
      x ∈ l.flatMap (fun p => longAddrs (s.pcbb + p.1)) → x ∈ svpctxTargets s := by
    intro hx
    obtain ⟨p, hp, hx⟩ := List.mem_flatMap.1 hx
    exact List.mem_flatMap.2 ⟨p.1, hl p hp, hx⟩
  have hslots : ∀ p ∈ svpctxSlots (svpctxLeave s a b), p.1 ∈ pcbSavedOffsets s.cfg := fun p hp => by
    simpa using svpctxSlots_saved hp
  intro x hx
  rw [svpctxSave_mem, pcbWriteAll, svpctxLeave_pcbb,
    sameMemoryOutside_setPhysBytes _ _ _ x fun h => hx (hin hslots h), svpctxLeave_mem]
  exact sameMemoryOutside_setPhysBytes _ _ _ x fun h => hx (hin (fun p hp => svpctxStores_saved hp) h)

/-- Settles O31: the fields lie apart, so that each reads back what was stored in it. -/
theorem svpctxSavesProcessContext : Obligations.SvpctxSavesProcessContext := by
  intro s a b hp ha h1 h2 hq hm hapart
  obtain ⟨hstores, hslots⟩ := svpctxSave_stored (a := a) (b := b) hm hapart
  refine ⟨svpctxSave s a b, congrArg (settle s) (svpctxBody_of hp ha h1 h2 hq), finish_pc ..,
    fun r hr => ⟨?_, ?_⟩, ?_, ?_, fun m => ?_, fun hasn => ?_, rfl, rfl⟩
  · refine getReg_svpctxSave s a b (fun he => ?_) fun he => ?_
    all_goals
      have := congrArg Fin.val he
      simp at this
      omega
  · exact hstores (s.cfg.pcb.gpr[r], getReg s ⟨r, by omega⟩) (by
      simp only [svpctxStores, List.append_assoc, List.mem_append, List.mem_map]
      exact .inl ⟨⟨r, hr⟩, List.mem_finRange _, rfl⟩)
  · exact hstores (s.cfg.pcb.pc, a) (by simp [svpctxStores])
  · exact hstores (s.cfg.pcb.psl, b) (by simp [svpctxStores])
  · rw [svpctxSave_spSlot]
    refine hslots (s.cfg.pcb.sp[m.val], _) ?_
    simp only [svpctxSlots, svpctxLeave_cfg]
    exact List.mem_map.2 ⟨m, List.mem_finRange _, rfl⟩
  · exact hstores (s.cfg.pcb.prvcpu, s.cpuid) (by simp [svpctxStores, hasn])

/-- A field of the PCB that lies apart from those SVPCTX saves is not written (R143). -/
theorem svpctxSave_unsaved {s : State} (a b : Word) {off : Word} (hapart : pcbFieldsApart s.cfg)
    (ho : off ∈ pcbUnsavedOffsets s.cfg) :
    storedLong (svpctxSave s a b).mem (s.pcbb + off) = storedLong s.mem (s.pcbb + off) := by
  refine storedLong_congr fun x hx => svpctxSave_sameMemoryOutside s a b x fun hin => ?_
  obtain ⟨off', ho', hin⟩ := List.mem_flatMap.1 hin
  obtain ⟨h1, h2⟩ := hapart off ho off' ho'
  refine longAddrs_apart ?_ ?_ hx hin
  · rwa [show s.pcbb + off - (s.pcbb + off') = off - off' by bv_omega]
  · rwa [show s.pcbb + off' - (s.pcbb + off) = off' - off by bv_omega]

/-- Settles O33. -/
theorem svpctxLeavesMapAstlvlPmeInPcb : Obligations.SvpctxLeavesMapAstlvlPmeInPcb := by
  intro s t h hapart
  refine (exec_svpctx_next h).imp id fun hb => ?_
  obtain ⟨-, a, b, -, -, rfl⟩ := svpctxBody_ok hb
  exact ⟨fun off ho => svpctxSave_unsaved a b hapart (List.mem_append_left _ ho),
    fun hasn => svpctxSave_unsaved a b hapart (by simp [pcbUnsavedOffsets, hasn])⟩

/-- Settles O34. -/
theorem svpctxFrame : Obligations.SvpctxFrame := by
  intro s t h
  refine (exec_svpctx_next h).imp id fun hb => ?_
  obtain ⟨hcfg, hpsl, hvec, hiprs, hast, howed, htb, hisp⟩ := svpctxBody_frame hb
  obtain ⟨-, a, b, -, -, rfl⟩ := svpctxBody_ok hb
  refine ⟨hcfg, fun q => getReg_svpctxSave s a b, hiprs, hvec, hast, howed, htb, hisp, ?_,
    svpctxSave_sameMemoryOutside s a b⟩
  rw [hpsl]
  split
  · rfl
  · exact svpctxPsl_rest _

/-- Settles O35: the switch of stack writes IS and IPL alone. -/
theorem contextSwitchKeepsConditionCodes : Obligations.ContextSwitchKeepsConditionCodes := by
  intro s t i hi h
  rcases hi with rfl | rfl
  · refine (exec_ldpctx_next h).imp id fun hb => ?_
    obtain ⟨-, hpsl, -⟩ := ldpctxBody_frame hb
    rw [hpsl]
    split <;> simp
  · refine (exec_svpctx_next h).imp id fun hb => ?_
    obtain ⟨-, hpsl, -⟩ := svpctxBody_frame hb
    rw [hpsl]
    split <;> simp [svpctxPsl]

end Sys2Proof.Machine

/-!
PROOFS. Operand specifiers (30_encoding R93 to R96) and the exceptions they raise in MTPR and MFPR (40_privileged R147,
R153).
-/

namespace Sys2Proof.Machine

/-! ## What a specifier that names memory is -/

section
variable {s t : State} {sp : Specifier} {pc a : Word} {k : Nat}

theorem readOperand_mem {v : Word} (h : evalSpecifier s sp pc k = .ok (.mem a, t)) (hv : memRead t a = .ok v) :
    readOperand s sp pc k = .ok (v, t) := by
  simp only [readOperand, h, res_ok_bind, hv]
  rfl

theorem resolveDestination_mem {pas : List Word} (h : evalSpecifier s sp pc k = .ok (.mem a, t))
    (hp : translateLong t a .write = .ok pas) : resolveDestination s sp pc k = .ok (.mem a, t) := by
  simp only [resolveDestination, h, res_ok_bind, hp]
  rfl

/-- A specifier that stops stops in either access (R94). -/
theorem readOperand_error {x : Stop} (h : evalSpecifier s sp pc k = .error x) : readOperand s sp pc k = .error x := by
  simp only [readOperand, h, res_error_bind]

theorem resolveDestination_error {x : Stop} (h : evalSpecifier s sp pc k = .error x) :
    resolveDestination s sp pc k = .error x := by
  simp only [resolveDestination, h, res_error_bind]

theorem namesAddress_of {b : Base} (h : evalBase s b pc = .ok (.mem a, t)) : namesAddress s b pc k a t :=
  ⟨fun _ hv => readOperand_mem (sp := .plain b) h hv, fun _ hp => resolveDestination_mem (sp := .plain b) h hp⟩

end

theorem refusePc_of {r : Reg} (h : r ≠ regPC) : refusePc r = .ok () := if_neg h

/-- An index adds four times the index register to the address (R94 mode 4). -/
theorem evalSpecifier_indexed {s t : State} {x : Reg} {b : Base} {pc a : Word} (k : Nat) (hx : x ≠ regPC)
    (hb : b.indexable = true) (h : evalBase s b pc = .ok (.mem a, t)) :
    evalSpecifier s (.indexed x b) pc k = .ok (.mem (a + 4 * indexValue s t x k), t) := by
  simp only [evalSpecifier, h, res_ok_bind, if_neg (show ¬(x = regPC ∨ b.indexable = false) by simp [hx, hb])]
  rfl

/-- The index is read before or after the base changes it (log 14). -/
theorem indexValue_eq (s t : State) (x : Reg) (k : Nat) :
    indexValue s t x k = getReg s x ∨ indexValue s t x k = getReg t x := by
  unfold indexValue
  split
  · exact .inl rfl
  · split
    · exact .inl rfl
    · exact .inr rfl

/-- An index register PC, or a base that cannot be indexed, is a reserved addressing mode (R94 mode 4). -/
theorem evalSpecifier_reserved {x : Reg} {b : Base} (h : x = regPC ∨ b.indexable = false) (s : State) (pc : Word)
    (k : Nat) : evalSpecifier s (.indexed x b) pc k = .error (.exc .reservedAddressingMode) := if_pos h

/-- A base that stops stops an indexed specifier whose index is legal. -/
theorem evalSpecifier_indexed_error {s : State} {x : Reg} {b : Base} {pc : Word} {e : Stop} (k : Nat) (hx : x ≠ regPC)
    (hb : b.indexable = true) (h : evalBase s b pc = .error e) : evalSpecifier s (.indexed x b) pc k = .error e := by
  simp only [evalSpecifier, h, res_error_bind, if_neg (show ¬(x = regPC ∨ b.indexable = false) by simp [hx, hb])]

/-- A destination that cannot be written is a reserved addressing mode (R94, R218). -/
theorem resolveDestination_unwritable {b : Base} (h : b.writable = false) (s : State) (pc : Word) (k : Nat) :
    resolveDestination s (.plain b) pc k = .error (.exc .reservedAddressingMode) := by
  cases b
  case literal | immediate => rfl
  all_goals cases h

/-- Displacement forms name the register, or the address after the specifier, and the displacement (R94 modes 10 to
15). -/
theorem namesAddress_displacement (s : State) (r : Reg) (pc : Word) (k : Nat) :
    (∀ d, namesAddress s (.byteDisp r d) pc k (baseReg s r pc + d.signExtend 32) s) ∧
      (∀ d, namesAddress s (.wordDisp r d) pc k (baseReg s r pc + d.signExtend 32) s) ∧
      (∀ d, namesAddress s (.longDisp r d) pc k (baseReg s r pc + d) s) ∧
      (∀ d a, memRead s (baseReg s r pc + d.signExtend 32) = .ok a →
        namesAddress s (.byteDispDeferred r d) pc k a s) ∧
      (∀ d a, memRead s (baseReg s r pc + d.signExtend 32) = .ok a →
        namesAddress s (.wordDispDeferred r d) pc k a s) ∧
      ∀ d a, memRead s (baseReg s r pc + d) = .ok a → namesAddress s (.longDispDeferred r d) pc k a s := by
  refine ⟨fun d => namesAddress_of rfl, fun d => namesAddress_of rfl, fun d => namesAddress_of rfl, fun d a h => ?_,
    fun d a h => ?_, fun d a h => ?_⟩
  all_goals
    refine namesAddress_of ?_
    simp only [evalBase, h, res_ok_bind]
    rfl

/-- Settles O36, form by form. -/
theorem operandFormsReadAsTabled : Obligations.OperandFormsReadAsTabled := by
  intro s pc k
  refine ⟨fun n => ⟨rfl, rfl⟩, fun v => ⟨rfl, rfl⟩, rfl, fun r hr => ⟨?_, ?_⟩, fun r hr => namesAddress_of ?_,
    fun r hr => namesAddress_of ?_, fun r hr => namesAddress_of ?_, fun r a hr ha => namesAddress_of ?_,
    fun a => namesAddress_of rfl, ?_, fun x b a t hx hb h => ?_, fun x b h => ?_⟩
  · simp only [readOperand, evalSpecifier, evalBase, res_ok_bind, if_neg hr]
    rfl
  · simp only [resolveDestination, evalSpecifier, evalBase, res_ok_bind, refusePc_of hr]
    rfl
  · simp only [evalBase, refusePc_of hr, res_ok_bind]
    rfl
  · simp only [evalBase, refusePc_of hr, res_ok_bind]
    rfl
  · simp only [evalBase, refusePc_of hr, res_ok_bind]
    rfl
  · simp only [evalBase, refusePc_of hr, ha, res_ok_bind]
    rfl
  · rintro r _ rfl
    exact namesAddress_displacement s r pc k
  · have hev := evalSpecifier_indexed k hx hb h
    exact ⟨indexValue s t x k, indexValue_eq s t x k, fun v => readOperand_mem hev,
      fun pas => resolveDestination_mem hev⟩
  · have hev := evalSpecifier_reserved h s pc k
    exact ⟨readOperand_error hev, resolveDestination_error hev⟩

/-! ## Operands that stop MTPR and MFPR -/

section
variable {s s1 : State} {first second : Specifier} {v : Word} {x : Stop} (hp : s.privileged)
include hp

/-- The first operand of either instruction stops it (R226). -/
theorem exec_first_stops (h : readOperand s first (pcAfter1 s first) 0 = .error x) :
    exec (.mtpr first second) s = settle s (.error x) ∧ exec (.mfpr first second) s = settle s (.error x) := by
  have hc := privilegeCheck_kernel hp.2 hp.1
  refine ⟨?_, ?_⟩
  · simp only [exec, execMtpr, mtprBody, hc, h, res_ok_bind, res_error_bind]
  · simp only [exec, execMfpr, mfprBody, hc, h, res_ok_bind, res_error_bind]

/-- The register number of MTPR stops it (R226). -/
theorem exec_mtpr_second_stops (h1 : readOperand s first (pcAfter1 s first) 0 = .ok (v, s1))
    (h2 : readOperand s1 second (pcAfter2 s first second) 1 = .error x) :
    exec (.mtpr first second) s = settle s (.error x) := by
  simp only [exec, execMtpr, mtprBody, privilegeCheck_kernel hp.2 hp.1, h1, h2, res_ok_bind, res_error_bind]

/-- The destination of MFPR stops it (R226). -/
theorem exec_mfpr_second_stops (h1 : readOperand s first (pcAfter1 s first) 0 = .ok (v, s1))
    (h2 : resolveDestination s1 second (pcAfter2 s first second) 1 = .error x) :
    exec (.mfpr first second) s = settle s (.error x) := by
  simp only [exec, execMfpr, mfprBody, privilegeCheck_kernel hp.2 hp.1, h1, h2, res_ok_bind, res_error_bind]

end

/-- Settles O37. -/
theorem operandEvaluationFrame : Obligations.OperandEvaluationFrame := by
  intro s t sp pc k
  refine ⟨fun v h => readOperand_ok h, fun d h => (resolveDestination_ok h).1, fun first second e hp =>
    ⟨fun h => exec_first_stops hp h, fun v h1 => ⟨fun h2 => ?_, fun h2 => ?_⟩⟩⟩
  · exact exec_mtpr_second_stops hp h1 h2
  · exact exec_mfpr_second_stops hp h1 h2

/-- Settles O47. -/
theorem mfprDestinationMustBeWritable : Obligations.MfprDestinationMustBeWritable := by
  intro s s1 procreg n hp h1
  exact ⟨fun b hb => exec_mfpr_second_stops hp h1 (resolveDestination_unwritable hb ..),
    fun x b h => exec_mfpr_second_stops hp h1 (resolveDestination_error (evalSpecifier_reserved h ..))⟩

/-! ## Forms refused by name -/

/-- PC in mode 6 or 7, under an index too, is refused (R94). -/
theorem evalSpecifier_unpredictable {b : Base} {form : Specifier} (hb : b = .regDeferred regPC ∨ b = .autoDec regPC)
    (hf : form = .plain b ∨ ∃ x, x ≠ regPC ∧ form = .indexed x b) (s : State) (pc : Word) (k : Nat) :
    evalSpecifier s form pc k = .error (.refuse .unpredictableOperand) := by
  have hbase : evalBase s b pc = .error (.refuse .unpredictableOperand) := by rcases hb with rfl | rfl <;> rfl
  rcases hf with rfl | ⟨x, hx, rfl⟩
  · exact hbase
  · exact evalSpecifier_indexed_error k hx (by rcases hb with rfl | rfl <;> rfl) hbase

/-- A misaligned PCBB is refused (R66). -/
theorem exec_pcbbMisaligned {s : State} (hp : s.privileged) (h : s.pcbb.extractLsb' 0 2 ≠ 0) :
    exec .ldpctx s = .refused .pcbbMisaligned ∧ exec .svpctx s = .refused .pcbbMisaligned := by
  have hc := privilegeCheck_kernel hp.2 hp.1
  have ha : requirePcbbAligned s = .error (.refuse .pcbbMisaligned) := if_neg h
  refine ⟨?_, ?_⟩
  · simp only [exec, execLdpctx, ldpctxBody, hc, ha, res_ok_bind, res_error_bind, settle_refuse]
  · simp only [exec, execSvpctx, svpctxBody, hc, ha, res_ok_bind, res_error_bind, settle_refuse]

/-- Settles O48: the decoder refuses what R95 leaves out, and evaluation, the alignment check and the read itself refuse
the others. -/
theorem formsRefusedByName : Obligations.FormsRefusedByName := by
  refine ⟨fun s hu hl hc => ⟨fun i rest hd ha => ?_, fun e hd ha => ?_⟩, fun s hp =>
    ⟨exec_pcbbMisaligned hp, fun sp dst n d s1 s2 h1 h2 hn hc => ?_, fun b form sp hb hf => ?_⟩⟩
  · rw [step_eq_runBytes hu]
    exact runBytes_refused hl hc (.inl ⟨i, rest, hd, ha⟩)
  · rw [step_eq_runBytes hu]
    exact runBytes_refused hl hc (.inr ⟨e, hd, ha⟩)
  · rw [exec_mfpr_eq hp h1 h2, readableIpr_of hn hc]
    rfl
  · have hev := evalSpecifier_unpredictable hb hf
    obtain ⟨hmtpr, hmfpr⟩ := exec_first_stops (second := sp) hp (readOperand_error (hev s (pcAfter1 s form) 0))
    refine ⟨hmtpr, hmfpr, fun n s1 h1 => ⟨?_, ?_, ?_⟩⟩
    · exact exec_mtpr_second_stops hp h1 (readOperand_error (hev ..))
    · exact exec_mfpr_second_stops hp h1 (resolveDestination_error (hev ..))
    · exact exec_mfpr_second_stops hp h1 (x := .refuse .unpredictableOperand) rfl

end Sys2Proof.Machine

/-!
PROOFS. MTPR and MFPR (40_privileged R145 to R155), the processor registers' numbers (10_state R29, R30) and writes of
VPSR (42_vector R186 to R199).
-/

namespace Sys2Proof.Machine

/-! ## What a write of a processor register leaves to be read -/

/-- Of a stack pointer not in use, the cell is read (R155). -/
theorem stackRead_setSlot {s : State} {slot : Option (Fin 4)} (hw : s.inSwitchWindow = false)
    (ha : stackActive s slot = false) (w pc : Word) :
    stackRead (finish (drawCc (setSlot s slot w)) pc) slot = .ok w := by
  have hw' : ¬ (finish (drawCc (setSlot s slot w)) pc).inSwitchWindow = true := by simp [hw]
  have ha' : ¬ stackActive (finish (drawCc (setSlot s slot w)) pc) slot = true := by
    cases slot <;> simpa [stackActive, State.mode] using ha
  unfold stackRead
  rw [if_neg hw', if_neg ha']
  cases slot <;> simp [setSlot]

/-- A value of at most 4 is its three low bits (R33). -/
theorem setWidth_astlvl {w : Word} (h : w.toNat ≤ 4) : (w.extractLsb' 0 3).setWidth 32 = w := by
  apply BitVec.eq_of_toNat_eq
  simp only [BitVec.toNat_setWidth, BitVec.extractLsb'_toNat, Nat.shiftRight_zero]
  omega

theorem bit0_eq_and (w : Word) : (if w.getLsbD 0 then 1#32 else 0) = w &&& 1 := by
  apply BitVec.eq_of_getLsbD_eq
  intro i hi
  cases i with
  | zero => cases h : w.getLsbD 0 <;> simpa using h
  | succ i => cases w.getLsbD 0 <;> simp

/-- What a register keeps of a value written is read when MTPR is done (R149, R155). -/
theorem iprRead_iprWrite {s u : State} {r : Ipr} {w : Word} (h : iprWrite s r w = .ok u) (hh : r.holdsValue = true)
    (ha : activeStackIpr s r = false) (pc : Word) :
    iprRead (finish (drawCc u) pc) r = .ok (keptPart s.cfg r w) := by
  have stack {slot : Option (Fin 4)} (h : stackWrite s slot w = .ok u) (ha : stackActive s slot = false) :
      stackRead (finish (drawCc u) pc) slot = .ok w := by
    obtain ⟨hw, rfl | ⟨ha', -, -⟩⟩ := stackWrite_ok h
    · exact stackRead_setSlot hw ha w pc
    · rw [ha] at ha'; cases ha'
  cases r
  case ksp | esp | ssp | usp | isp => exact stack h ha
  case p0br | p0lr | p1br | p1lr =>
    simp only [iprWrite] at h
    obtain ⟨-, rfl⟩ := mapWrite_ok h
    rfl
  case astlvl =>
    simp only [iprWrite, astlvlWrite] at h
    split at h
    next hle => cases h; exact congrArg Except.ok (setWidth_astlvl hle)
    next => cases h
  case pme =>
    cases h
    exact congrArg Except.ok (bit0_eq_and w)
  case vmpsl =>
    cases h
    exact congrArg Except.ok (pslToLong_pslOfLong ..)
  case tbia | tbis | vpsr | vaer | vmac | vtbia => cases hh
  all_goals (cases h; rfl)

/-- The TB events a write of a processor register records (R73, R74, R149). -/
theorem iprWrite_tbEvents {s u : State} {r : Ipr} {w : Word} (h : iprWrite s r w = .ok u) :
    u.tbEvents = mtprEvents s r w ++ s.tbEvents := by
  cases r
  case ksp | esp | ssp | usp | isp =>
    obtain ⟨-, rfl | ⟨-, -, rfl⟩⟩ := stackWrite_ok h <;> rfl
  case p0br | p0lr | p1br | p1lr =>
    simp only [iprWrite] at h
    obtain ⟨-, rfl⟩ := mapWrite_ok h
    rfl
  case astlvl =>
    simp only [iprWrite, astlvlWrite] at h
    split at h <;> cases h
    rfl
  case vpsr =>
    obtain ⟨-, rfl⟩ := vpsrWrite_ok h
    split <;> rfl
  case vaer | vmac => cases h
  all_goals (cases h; rfl)

/-! ## MTPR that completes -/

/-- What MTPR accepts does not depend on the general registers. -/
theorem mtprAccepts_of_regs (s : State) (x : Vector Word 16) (r : Ipr) (w : Word) :
    mtprAccepts { s with x := x } r w = mtprAccepts s r w := by
  cases r <;> rfl

section
variable {s s1 s2 : State} {src procreg : Specifier} {v n : Word} {r : Ipr} (hp : s.privileged)
  (h1 : readOperand s src (pcAfter1 s src) 0 = .ok (v, s1))
  (h2 : readOperand s1 procreg (pcAfter2 s src procreg) 1 = .ok (n, s2)) (hn : iprMap s.cfg n = some r)
  (hc : iprClass s.cfg n ≠ some .readOnly)
include hp h1 h2 hn hc

/-- MTPR, once its operands are read and name a register that can be written, is that write (R145). -/
theorem exec_mtpr_write : exec (.mtpr src procreg) s = settle s (iprWrite s2 r v >>= fun u =>
    .ok (finish (drawCc u) (pcAfter2 s src procreg))) := by
  rw [exec_mtpr_eq hp h1 h2, writableIpr_of hn hc, res_ok_bind]

/-- A write that stops stops MTPR. -/
theorem exec_mtpr_write_stops {x : Stop} (h : iprWrite s2 r v = .error x) :
    exec (.mtpr src procreg) s = settle s (.error x) := by
  rw [exec_mtpr_write hp h1 h2 hn hc, h, res_error_bind]

/-- An accepted value is written, and MTPR completes (R149). -/
theorem exec_mtpr_accepts (ha : mtprAccepts s r v = true) :
    ∃ u, iprWrite s2 r v = .ok u ∧
      exec (.mtpr src procreg) s = .next (finish (drawCc u) (pcAfter2 s src procreg)) := by
  have hs2 := readOperands_state h1 h2
  obtain ⟨u, hu⟩ := iprWrite_of (s := s2) (r := r) (w := v) (by rw [hs2, mtprAccepts_of_regs, ha])
  exact ⟨u, hu, by rw [exec_mtpr_write hp h1 h2 hn hc, hu]; rfl⟩

end

/-- Settles O38: the write is `iprWrite`, which the operands' updates of general registers do not disturb. -/
theorem mtprStoresInProcessorRegister : Obligations.MtprStoresInProcessorRegister := by
  intro s s1 s2 src procreg v n r hp h1 h2 hn hc ha
  obtain ⟨u, hu, hexec⟩ := exec_mtpr_accepts hp h1 h2 hn hc ha
  have hs2 := readOperands_state h1 h2
  obtain ⟨-, -, -, hpsl, hmem, -, hdraws, -⟩ := iprWrite_ok hu
  have hpsl' : (finish (drawCc u) (pcAfter2 s src procreg)).psl = pslWithCc s.psl (Config.freeFlags s.draws) := by
    rw [finish_psl, drawCc_psl, hpsl, hdraws, hs2]
  refine ⟨_, hexec, (finish_pc ..).trans (pcAfter2_eq ..), ?_, ?_, fun a => ?_, fun hh hact => ?_, ?_⟩
  · rw [hpsl', pslCc_pslWithCc]
  · rw [samePslButCc, hpsl', pslWithCc_rest]
  · rw [finish_mem, drawCc_mem, hmem, hs2]
  · have hact2 : activeStackIpr s2 r = false := by
      rw [hs2]
      cases r <;> exact hact
    have hcfg : s2.cfg = s.cfg := by rw [hs2]
    rw [iprRead_iprWrite hu hh hact2, hcfg]
  · rw [finish_tbEvents, drawCc_tbEvents, iprWrite_tbEvents hu, hs2]
    cases r <;> rfl

/-! ## Memory management registers -/

/-- The default of `PcbValid` for P0LR's longword in R35's layout. -/
theorem lengthValid_standard_p0lr (v : Word) :
    lengthValid PcbLayout.standard PcbLayout.standard.p0lr v = true ↔
      v &&& 0xF8C00000#32 = 0 ∧ (v.extractLsb' 24 3).toNat ≤ 4 := by
  have hmask : ~~~lengthMask PcbLayout.standard PcbLayout.standard.p0lr = 0xF8C00000#32 := by decide
  have hoff : ¬ PcbLayout.standard.astlvl.offset ≠ PcbLayout.standard.p0lr := by decide
  rw [lengthValid, hmask, Bool.and_eq_true, beq_iff_eq, Bool.or_eq_true, decide_eq_true_iff, decide_eq_true_iff,
    or_iff_right hoff]
  rfl

theorem lengthValid_standard_p1lr (v : Word) :
    lengthValid PcbLayout.standard PcbLayout.standard.p1lr v = true ↔ v &&& 0x7FC00000#32 = 0 := by
  have hmask : ~~~lengthMask PcbLayout.standard PcbLayout.standard.p1lr = 0x7FC00000#32 := by decide
  rw [lengthValid, hmask]
  simp [PcbLayout.standard]

/-- Both copies of a memory management register are written (R75, R146). -/
theorem mapWrite_copies {s u : State} {valid : Bool} {f : MapRegs → MapRegs} (hv : s.cfg.hasVector = true)
    (h : mapWrite s valid f = .ok u) : u.map = f s.map ∧ u.vecMap = f s.vecMap := by
  obtain ⟨-, rfl⟩ := mapWrite_ok h
  exact ⟨rfl, if_pos hv⟩

/-- Settles O39. -/
theorem mtprWritesAllCopiesOfMapRegisters : Obligations.MtprWritesAllCopiesOfMapRegisters := by
  refine ⟨fun v => ⟨lengthValid_standard_p0lr v, lengthValid_standard_p1lr v⟩, ?_⟩
  intro s s1 s2 src procreg v n hp hvec h1 h2 hc
  have hvec2 : s2.cfg.hasVector = true := by rw [readOperands_state h1 h2]; exact hvec
  refine ⟨fun hn ha => ?_, fun hn ha => ?_, fun hn ha => ?_, fun hn ha => ?_⟩
  all_goals
    obtain ⟨u, hu, hexec⟩ := exec_mtpr_accepts hp h1 h2 hn hc ha
    simp only [iprWrite] at hu
    obtain ⟨hmap, hvmap⟩ := mapWrite_copies hvec2 hu
    exact ⟨_, hexec, by rw [finish_map, drawCc_map, hmap], by rw [finish_vecMap, drawCc_vecMap, hvmap]⟩

/-- Settles O40. -/
theorem mtprFrame : Obligations.MtprFrame := by
  intro s t src procreg h
  refine (exec_mtpr_next h).imp id fun hb => ?_
  obtain ⟨v, s1, n, s2, r, h1, h2, hr, -, hcfg, hiprs, hpsl, hast, hwin, howed, hpcb, hmem, -, hregs⟩ :=
    mtprBody_frame hb
  exact ⟨v, s1, n, s2, r, h1, h2, hr, hcfg, hiprs, by rw [samePslButCc, hpsl, pslWithCc_rest], hast, hwin, howed, hpcb,
    fun a => by rw [hmem], hregs⟩

/-! ## Registers and values that are not accepted -/

theorem writableIpr_fault {cfg : Params} {n : Word} (h : iprMap cfg n = none ∨ iprClass cfg n = some .readOnly) :
    writableIpr cfg n = .error (.exc .reservedOperandFault) := by
  unfold writableIpr
  split
  · rfl
  next hn => exact if_pos (h.resolve_left (by simp [hn]))

theorem readableIpr_fault {cfg : Params} {n : Word} (h : iprMap cfg n = none ∨ iprClass cfg n = some .writeOnly) :
    readableIpr cfg n = .error (.exc .reservedOperandFault) := by
  unfold readableIpr
  split
  · rfl
  next hn => exact if_pos (h.resolve_left (by simp [hn]))

/-- Settles O41. -/
theorem wrongProcessorRegisterFaults : Obligations.WrongProcessorRegisterFaults := by
  intro s s1 s2 first second v n d hp
  refine ⟨fun h1 h2 h => ?_, fun h1 h2 h => ?_⟩
  · rw [exec_mtpr_eq hp h1 h2, writableIpr_fault h]
    rfl
  · rw [exec_mfpr_eq hp h1 h2, readableIpr_fault h]
    rfl

/-- Settles O42: the write itself is what stops. -/
theorem mtprValuesNotAccepted : Obligations.MtprValuesNotAccepted := by
  intro s s1 s2 src procreg v n r hp h1 h2 hn hc
  have hcfg : s2.cfg = s.cfg := by rw [readOperands_state h1 h2]
  have stops {x : Stop} (h : iprWrite s2 r v = .error x) : exec (.mtpr src procreg) s = settle s (.error x) :=
    exec_mtpr_write_stops hp h1 h2 hn hc h
  have invalid {b : Bool} {f : MapRegs → MapRegs} (h : b = false) :
      mapWrite s2 b f = .error (.refuse .mapRegisterInvalid) := if_neg (by simp [h])
  refine ⟨?_, ?_, ?_, ?_, ?_, ?_⟩
  · rintro rfl hv
    exact stops (if_neg (Nat.not_le.2 hv))
  · rintro (rfl | rfl) hv <;> exact stops (by simp only [iprWrite]; exact invalid hv)
  · rintro rfl hv
    exact stops (by simp only [iprWrite]; exact invalid (by rw [hcfg, hv]))
  · rintro rfl hv
    exact stops (by simp only [iprWrite]; exact invalid (by rw [hcfg, hv]))
  · rintro rfl
    exact stops rfl
  · rintro rfl
    exact stops rfl

/-! ## The numbers of the processor registers -/

/-- A number's row is the first with it whose register the processor has (R30). -/
theorem iprRow_of {cfg : Params} {n : Word} {row : IprRow} (h : iprRow cfg n = some row) :
    iprMap cfg n = some row.reg ∧ iprClass cfg n = some row.cls := by
  simp [iprMap, iprClass, h]

theorem iprMap_none {cfg : Params} {n : Word}
    (h : ∀ row ∈ cfg.iprMap, row.number = n → iprPresent cfg row.reg = false) : iprMap cfg n = none := by
  have hrow : iprRow cfg n = none := by
    rw [iprRow, List.find?_eq_none]
    intro row hr
    by_cases hnum : row.number = n
    · simp [h row hr hnum]
    · simp [hnum]
  simp [iprMap, hrow]

/-- Rows before the first with a number do not change which row it has (R30). -/
theorem iprRow_append {cfg : Params} {n : Word} {r : Ipr} {c : IprClass} {before after : List IprRow}
    (h : cfg.iprMap = before ++ ⟨n, r, c⟩ :: after) (hb : ∀ row ∈ before, row.number ≠ n)
    (hp : iprPresent cfg r = true) : iprRow cfg n = some ⟨n, r, c⟩ := by
  have hnone : before.find? (fun row => decide (row.number = n) && iprPresent cfg row.reg) = none := by
    rw [List.find?_eq_none]
    intro row hr
    simp [hb row hr]
  rw [iprRow, h, List.find?_append, hnone]
  simp [hp]

/-- Settles O44. -/
theorem processorRegisterNumbers : Obligations.ProcessorRegisterNumbers := by
  refine ⟨fun cfg h => ⟨?_, ?_, ?_, fun n hn => iprMap_none fun row hr hnum => ?_⟩,
    fun cfg n r c before after h hb hp => iprRow_of (iprRow_append h hb hp), fun cfg n => iprMap_none,
    fun cfg => ⟨rfl, rfl, rfl, rfl⟩⟩
  · simp [iprMap, iprClass, iprRow, h, iprDefault, iprPresent]
  · simp [iprMap, iprClass, iprRow, h, iprDefault, iprPresent]
  · cases hv : cfg.hasVector <;> simp [iprMap, iprClass, iprRow, h, iprDefault, iprPresent, hv]
  · subst hnum
    rw [h] at hr
    exact absurd (List.mem_map_of_mem (f := fun row => row.number.toNat) hr) hn

end Sys2Proof.Machine

/-!
PROOFS. MFPR that completes (40_privileged R152 to R155), writes of VPSR (42_vector R186 to R199), the vector operations
(R180 to R185), and the stack and memory (20_memory R64 to R67).
-/

namespace Sys2Proof.Machine

/-! ## MFPR -/

/-- MFPR that completes moves PC past itself. -/
theorem mfprBody_pc {procreg dst : Specifier} {s t : State} (h : mfprBody procreg dst s = .ok t) :
    t.pc = s.pc + BitVec.ofNat 32 (instrLength (.mfpr procreg dst)) := by
  obtain ⟨-, n, d, r, v, u, -, -, -, -, -, rfl⟩ := mfprBody_ok h
  exact (finish_pc ..).trans (pcAfter2_eq s procreg dst)

/-- Settles O45. -/
theorem mfprLoadsRegister : Obligations.MfprLoadsRegister := by
  intro s s1 s2 procreg dst n v r q hp h1 h2 hn hc hv
  obtain ⟨t, hbody, hq, hregs, hmem⟩ := mfprBody_register hp h1 h2 (readableIpr_of hn hc) hv
  obtain ⟨hcc, hpsl, hcfg, hiprs, hcells, hvec, hmarks⟩ := mfprBody_keeps hbody
  exact ⟨t, exec_mfpr_of hbody, hq, iprRead_contents hv, mfprBody_pc hbody, hcc, hpsl, hcfg, hregs, hiprs, hcells, hvec,
    hmarks, hmem⟩

/-- Settles O46. -/
theorem mfprStoresInMemory : Obligations.MfprStoresInMemory := by
  intro s s1 s2 procreg dst n v a r hp h1 h2 hn hc hv
  obtain ⟨t, pas, hbody, hpas, hstored, hregs, hmem⟩ := mfprBody_memory hp h1 h2 (readableIpr_of hn hc) hv
  obtain ⟨hcc, hpsl, hcfg, hiprs, hcells, hvec, hmarks⟩ := mfprBody_keeps hbody
  exact ⟨t, pas, exec_mfpr_of hbody, hpas, iprRead_contents hv, mfprBody_pc hbody, hstored, hmem, hcc, hpsl, hcfg,
    hregs, hiprs, hcells, hvec, hmarks⟩

/-! ## Writes of VPSR -/

/-- Settles O49: RST, when it is written, comes before the bits that act one by one. -/
theorem vpsrWriteActsBitByBit : Obligations.VpsrWriteActsBitByBit := by
  intro s s1 s2 src procreg w n hp h1 h2 hn hc ha
  obtain ⟨u, hu, hexec⟩ := exec_mtpr_accepts hp h1 h2 hn hc ha
  obtain ⟨-, rfl⟩ := vpsrWrite_ok hu
  refine ⟨_, hexec, ?_⟩
  rw [readOperands_state h1 h2]
  cases hrst : w.getLsbD 1 <;> simp [vpsrBits, vpsrReset]

/-- The settings of VPSR<3:0> that R199's table leaves out are not among those that are accepted. -/
theorem vpsrSettings_unlisted : ∀ x : BitVec 4,
    x ∈ [0b0101#4, 0b0110#4, 0b0111#4, 0b1010#4, 0b1011#4, 0b1100#4, 0b1101#4, 0b1110#4, 0b1111#4] →
      x ∉ vpsrSettings := by decide

/-- The bits of VPSR<3:0> are those of the setting. -/
theorem getLsbD_of_extractLsb'_eq {w : Word} {x : BitVec 4} (h : w.extractLsb' 0 4 = x) {i : Nat} (hi : i < 4) :
    w.getLsbD i = x.getLsbD i := by
  rw [← h, BitVec.getLsbD_extractLsb']
  simp [hi]

section
variable {s : State} {w : Word} (hmbz : w &&& 0x7CFFFF10#32 = 0)
include hmbz

theorem vpsrWrite_unlisted (h : w.extractLsb' 0 4 ∉ vpsrSettings) : vpsrWrite s w = .error (.refuse .vpsrSetting) := by
  rw [vpsrWrite, if_neg (not_not.2 hmbz), if_pos h]

/-- RST while busy is refused (R189; log 33). -/
theorem vpsrWrite_resetWhileBusy (h : w.extractLsb' 0 4 = 0b0010#4 ∨ w.extractLsb' 0 4 = 0b0011#4)
    (hb : s.vpsr.bsy = true) : vpsrWrite s w = .error (.refuse .vpsrResetWhileBusy) := by
  have hlisted : w.extractLsb' 0 4 ∈ vpsrSettings := by rcases h with h | h <;> rw [h] <;> decide
  have hrst : w.getLsbD 1 = true := by
    rcases h with h | h <;> rw [getLsbD_of_extractLsb'_eq h (by decide)] <;> rfl
  rw [vpsrWrite, if_neg (not_not.2 hmbz), if_neg (not_not.2 hlisted), if_pos ⟨hrst, hb⟩]

/-- STS and RLD under the asynchronous method are refused (R190, R191; log 33). -/
theorem vpsrWrite_stateTransfer
    (h : w.extractLsb' 0 4 = 0b0100#4 ∨ w.extractLsb' 0 4 = 0b1000#4 ∨ w.extractLsb' 0 4 = 0b1001#4)
    (ha : s.cfg.vecMMAsync = true) : vpsrWrite s w = .error (.refuse .vectorStateTransfer) := by
  have hlisted : w.extractLsb' 0 4 ∈ vpsrSettings := by rcases h with h | h | h <;> rw [h] <;> decide
  have hrst : w.getLsbD 1 = false := by
    rcases h with h | h | h <;> rw [getLsbD_of_extractLsb'_eq h (by decide)] <;> rfl
  have htransfer : w.getLsbD 2 = true ∨ w.getLsbD 3 = true := by
    rcases h with h | h | h <;>
      rw [getLsbD_of_extractLsb'_eq h (by decide : 2 < 4), getLsbD_of_extractLsb'_eq h (by decide : 3 < 4)] <;> decide
  rw [vpsrWrite, if_neg (not_not.2 hmbz), if_neg (not_not.2 hlisted),
    if_neg (fun h => Bool.false_ne_true (hrst.symm.trans h.1)), if_pos ⟨htransfer, ha⟩]

end

/-- Settles O52. -/
theorem vpsrSettingsRefused : Obligations.VpsrSettingsRefused := by
  intro s s1 s2 src procreg w n hp h1 h2 hn hc hmbz
  have stops {x : Stop} (h : vpsrWrite s2 w = .error x) : exec (.mtpr src procreg) s = settle s (.error x) :=
    exec_mtpr_write_stops hp h1 h2 hn hc h
  have hs2 := readOperands_state h1 h2
  have hvpsr : s2.vpsr = s.vpsr := by rw [hs2]
  have hcfg : s2.cfg = s.cfg := by rw [hs2]
  refine ⟨fun h => ?_, fun h hb => ?_, fun h ha => ?_⟩
  · exact stops (vpsrWrite_unlisted hmbz (vpsrSettings_unlisted _ h))
  · exact stops (vpsrWrite_resetWhileBusy hmbz h (by rw [hvpsr, hb]))
  · exact stops (vpsrWrite_stateTransfer hmbz h (by rw [hcfg, ha]))

/-! ## Vector operations -/

/-- An element of the destination after a vector write. -/
theorem element_vectorResult (s : State) (kind : VectorKind) (c : VReg) (results : Vector Word 64) (e : Fin 64) :
    element { s with v := s.v.set c.val (vectorResult s kind c results) c.isLt } c e =
      if e.val < s.vlr.toNat then elementHigh s kind e ++ results[e.val] else element s c e := by
  simp [element, vectorResult]

/-- A vector write leaves the other registers alone. -/
theorem element_vectorResult_ne (s : State) (kind : VectorKind) {c d : VReg} (results : Vector Word 64) (h : d ≠ c)
    (e : Fin 64) :
    element { s with v := s.v.set c.val (vectorResult s kind c results) c.isLt } d e = element s d e := by
  have hv : c.val ≠ d.val := fun he => h (Fin.ext he.symm)
  simp [element, hv]

/-- A vector write, register by register and element by element (R180, R181, R185). -/
theorem vectorWrite_spec {s : State} (kind : VectorKind) (c : VReg) (hl : s.vlr.toNat ≤ 64)
    (results : Vector Word 64) : ∃ t, vectorWrite s kind c results = .ok t ∧
      (∀ e : Fin 64, e.val < s.vlr.toNat → (element t c e).extractLsb' 0 32 = results[e.val]) ∧
      (∀ e : Fin 64, e.val < s.vlr.toNat → (element t c e).extractLsb' 32 32 = elementHigh s kind e) ∧
      (∀ e : Fin 64, s.vlr.toNat ≤ e.val → element t c e = element s c e) ∧
      (∀ d, d ≠ c → ∀ e, element t d e = element s d e) := by
  refine ⟨_, if_pos hl, fun e he => ?_, fun e he => ?_, fun e he => ?_, fun d hd e =>
    element_vectorResult_ne s kind results hd e⟩
  · rw [element_vectorResult, if_pos he]
    exact BitVec.extractLsb'_append_eq_right
  · rw [element_vectorResult, if_pos he]
    exact BitVec.extractLsb'_append_eq_left
  · rw [element_vectorResult, if_neg (Nat.not_lt.2 he)]

/-- Settles O53. -/
theorem vectorWriteRespectsLength : Obligations.VectorWriteRespectsLength := by
  intro s kind c hl
  refine ⟨fun results => ?_, fun f => ?_⟩
  · obtain ⟨t, ht, hlow, hhigh, hrest, hother⟩ := vectorWrite_spec kind c hl results
    refine ⟨t, ht, hlow, fun e he va vb hk => ?_, hrest, hother⟩
    rw [hhigh e he, hk]
    rfl
  · obtain ⟨t, ht, hlow, hhigh, hrest, hother⟩ :=
      vectorWrite_spec kind c hl (Vector.ofFn (fun e => f (sourceLongs s kind e)))
    refine ⟨t, ht, fun e he sources hk => ?_, fun e he va vb hk => ⟨?_, ?_⟩, hrest, hother⟩
    · rw [hlow e he, hk, Vector.getElem_ofFn]
      rfl
    · rw [hlow e he, hk, Vector.getElem_ofFn]
      rfl
    · rw [hhigh e he, hk]
      rfl

/-! ## The stack and memory -/

/-- With no PCB loaded and no translation table a load reads the longword stored at its address (R22, R64). -/
theorem memRead_plain {s : State} (h : s.plainMemory) (hl : s.loadedPcb = none) (a : Word) :
    memRead s a = .ok (storedLong s.mem a) := by
  have hbyte : physByte s = fun b => Memory.read s.mem b.toNat := by
    funext b
    simp [physByte, unreliable, hl]
  rw [memRead, translateLong_identity h.1 h.2, hbyte]
  rfl

/-- Settles O54. -/
theorem pushedLongwordIsOnTop : Obligations.PushedLongwordIsOnTop := by
  intro s v hm hwf hl
  refine ⟨_, push_of (translateLong_identity hm.1 hm.2 ..), setReg_sp_same .., ?_, ?_⟩
  · rw [memRead_plain (by exact hm) (by exact hl), setReg_mem, setReg_sp_same]
    exact congrArg Except.ok (storedLong_writeAll hwf ..)
  · rw [setReg_sp_same]
    exact sameMemoryOutside_setPhysBytes s _ _

/-- The k-th byte of a longword is its bits <8k+7:8k> (R64). -/
theorem bytesOfLong_getElem? (v : Word) {k : Nat} (hk : k < 4) :
    (bytesOfLong v)[k]? = some (v.extractLsb' (8 * k) 8) := by
  match k, hk with
  | 0, _ | 1, _ | 2, _ | 3, _ => rfl

/-- Settles O55. -/
theorem storesAreLittleEndian : Obligations.StoresAreLittleEndian := by
  refine ⟨fun s t va v h => ?_, fun s va v e h => by rw [memWrite, h]; rfl⟩
  obtain ⟨pas, hpas, rfl⟩ := memWrite_ok h
  refine ⟨pas, hpas, sameMemoryOutside_setPhysBytes s _ _, fun hwf hnd k hk pa hpa => ?_⟩
  have hbytes := congrArg (·[k]?) (Memory.map_read_writeAll (translateLong_ok hpas).1 hnd hwf (bs := bytesOfLong v))
  simpa [hpa, bytesOfLong_getElem? v hk] using hbytes

end Sys2Proof.Machine
